-- ==== Sys2Proof/Word.lean ====
section
/-! DEFINITION. The word types of the core and their plainest readings (00_scope.md R11, R12). -/

namespace Sys2Proof

/-- One byte of a port (20_memory.md R53). -/
abbrev Byte := BitVec 8

/-- One component of an IQ pair, int16 (10_state.md R24). -/
abbrev Half := BitVec 16

/-- A slice sample or sample word, int32 (00_scope.md R10, 30_encoding.md R78). -/
abbrev Sample := BitVec 32

/-- A 64-bit register: a phase register, `SUM`, `LEVEL`, a correlation (10_state.md R26, R28, R30). -/
abbrev Word64 := BitVec 64

end Sys2Proof
end

