-- ==== Sys2Proof/Syntax.lean ====
section
/-! DEFINITION. The operations of the core (30_encoding.md R73): one constructor of `Instr` for each row of
spec/opcode_table.json, with the small types their operands need. An operand of a constructor is an argument the
operation's pseudocode passes; what the pseudocode reads from state is no operand. -/

namespace Sys2Proof

/-- The two agents (00_scope.md R6). -/
inductive Agent where
  | demod
  | corr
  deriving DecidableEq, Repr, Inhabited

/-- Packet type: `F` (FIS-B) or `A` (ADS-B) (00_scope.md R2). -/
inductive PType where
  | F
  | A
  deriving DecidableEq, Repr, Inhabited

/-- Phase register: `RA` or `RB` (10_state.md R28). -/
inductive Phase where
  | A
  | B
  deriving DecidableEq, Repr, Inhabited

/-- Window offset `w` of the slicer: 0 or 1 (42_slicer_deinterleaver.md R136). -/
inductive Window where
  | nominal
  | later
  deriving DecidableEq, Repr, Inhabited

/-- Reed–Solomon code: RS(92,72), RS(48,34) or RS(30,18) (43_rs_decoder.md R147). -/
inductive Code where
  | uplink
  | long
  | short
  deriving DecidableEq, Repr, Inhabited

/-- Kind of a capture record (44_output.md R186). -/
inductive CapKind where
  | raw
  | fail
  deriving DecidableEq, Repr, Inhabited

/-- Where an EOF of CORR's input fell (42_slicer_deinterleaver.md R135). -/
inductive EofPos where
  | boundary
  | midframe
  deriving DecidableEq, Repr, Inhabited

/-- A sync match: the candidate value of `D.PROBE` and the contents of `PEND` (10_state.md R30). -/
structure Cand where
  type  : PType
  /-- sample index `n` of the match -/
  idx   : Nat
  /-- Hamming distance, 0..4 -/
  err   : Nat
  /-- signed correlation, int64 -/
  corr  : Word64
  /-- `LEVEL` at the match, u64 -/
  level : Word64
  sec   : Nat
  usec  : Nat
  deriving DecidableEq, Repr, Inhabited

/-- Outcome of a packet's decode, with the payload on success (44_output.md R177). -/
inductive Completion where
  | success (payload : List Byte)
  | failure
  deriving DecidableEq, Repr, Inhabited

/-- The operations, in the order of spec/opcode_table.json. -/
inductive Instr where
  /-- `D.CHUNK`, 41_sync_detector.md R123; operands of 30_encoding.md R75. -/
  | dChunk (sec usec len : Nat)
  /-- `D.IQ`, 40_demodulator.md R103; operands of 30_encoding.md R74. -/
  | dIq (i q : Half)
  /-- `D.EOF`, 40_demodulator.md R107. -/
  | dEof
  /-- `D.DISC`, 40_demodulator.md R99. -/
  | dDisc (i q : Half)
  /-- `D.ENERGY`, 40_demodulator.md R100. -/
  | dEnergy (v : Sample)
  /-- `D.GATE`, 40_demodulator.md R101. -/
  | dGate
  /-- `D.SHIFT`, 41_sync_detector.md R113. -/
  | dShift (p : Phase) (v : Sample)
  /-- `D.PROBE`, 41_sync_detector.md R114; the pair index and the chunk tag are DEMOD's own. -/
  | dProbe (p : Phase)
  /-- `D.CORRELATE`, 41_sync_detector.md R115. -/
  | dCorrelate (t : PType)
  /-- `D.ARBITRATE`, 41_sync_detector.md R117. -/
  | dArbitrate (cand : Option Cand) (v : Sample)
  /-- `D.SELECT`, 41_sync_detector.md R118. -/
  | dSelect (c : Cand)
  /-- `D.CAPTURE`, 41_sync_detector.md R120. -/
  | dCapture (v : Sample)
  /-- `D.EMIT`, 41_sync_detector.md R121. -/
  | dEmit
  /-- `D.STAMP`, 41_sync_detector.md R124, R127; the tag is DEMOD's own. -/
  | dStamp
  /-- `D.HEADER`, 41_sync_detector.md R126. -/
  | dHeader (c : Cand)
  /-- `C.HDR` with type byte `F`, 42_slicer_deinterleaver.md R133; all 36 bytes are the operand. -/
  | cHdrF (h : List Byte)
  /-- `C.HDR` with type byte `A`, 42_slicer_deinterleaver.md R133. -/
  | cHdrA (h : List Byte)
  /-- `C.SMP`, 42_slicer_deinterleaver.md R134. -/
  | cSmp (v : Sample)
  /-- `C.EOF`, 42_slicer_deinterleaver.md R135. -/
  | cEof (pos : EofPos)
  /-- `C.SLICE`, 42_slicer_deinterleaver.md R136; the type fixes the number of payload bits. -/
  | cSlice (w : Window) (t : PType)
  /-- `C.MIX`, 42_slicer_deinterleaver.md R137. -/
  | cMix (c m : Sample) (pct : Nat)
  /-- `C.VARIANT`, 42_slicer_deinterleaver.md R138. -/
  | cVariant (w : Window) (j : Nat) (t : PType)
  /-- `C.PACK`, 42_slicer_deinterleaver.md R139. -/
  | cPack (bits : List Bool)
  /-- `C.DEINT`, 42_slicer_deinterleaver.md R140. -/
  | cDeint (y : List Byte)
  /-- `C.ABYTES`, 42_slicer_deinterleaver.md R141. -/
  | cAbytes (z : List Byte)
  /-- `C.RS`, 43_rs_decoder.md R149. -/
  | cRs (code : Code) (y : List Byte)
  /-- `C.SEARCH`, 43_rs_decoder.md R153. -/
  | cSearch (i : Fin 6) (w : Window) (h : Nat)
  /-- `C.BLOCK`, 43_rs_decoder.md R155. -/
  | cBlock (i : Fin 6) (h : Nat)
  /-- `C.SHORTCUT`, 43_rs_decoder.md R161. -/
  | cShortcut
  /-- `C.TZ`, 43_rs_decoder.md R164. -/
  | cTz (i : Fin 6)
  /-- `C.FIXED`, 43_rs_decoder.md R167. -/
  | cFixed
  /-- `C.FISB`, 43_rs_decoder.md R170. -/
  | cFisb
  /-- `C.ADSB`, 43_rs_decoder.md R173. -/
  | cAdsb
  /-- `C.COMPLETE`, 44_output.md R177. -/
  | cComplete (o : Completion)
  /-- `C.LINE`, 44_output.md R178. -/
  | cLine (d : List Byte)
  /-- `C.FAILLINE`, 44_output.md R183. -/
  | cFailline
  /-- `C.CAPTURE`, 44_output.md R186. -/
  | cCapture (k : CapKind)
  deriving DecidableEq, Repr

end Sys2Proof
end

