-- ==== Sys2Proof/Config.lean ====
section
/-! DEFINITION. What a run of the core is given and never changes (10_state.md R21, R23; 00_scope.md R9): the
configuration record `Cfg`, the parameters `Params`, and the values the spec leaves open, as constants without a body. -/

namespace Sys2Proof

/-- Phase arbitration, `CFG.PHASE_SELECT` (10_state.md R21). -/
inductive PhaseSelect where
  | first
  | best
  deriving DecidableEq, Repr, Inhabited

/-- `CFG.COMPAT`: `none` is the only legal value; `legacy` stands for every other (44_output.md R185). -/
inductive Compat where
  | none
  | legacy (mode : Nat)
  deriving DecidableEq, Repr, Inhabited

/-- The configuration record `CFG` with the defaults of 10_state.md R21. -/
structure Cfg where
  enableFisb       : Bool := true
  enableAdsb       : Bool := true
  levelThreshold   : BitVec 32 := 900000
  replayMode       : Bool := false
  phaseSelect      : PhaseSelect := .best
  fixedBitsEn      : Bool := true
  tzRepairEn       : Bool := true
  candidates       : List (List Byte) := []
  acceptCandidates : Bool := true
  failFisb         : Bool := false
  failAdsb         : Bool := false
  compat           : Compat := .none
  captureRaw       : Bool := false
  captureFail      : Bool := false
  deriving DecidableEq, Repr, Inhabited

/-- Direction of a mix (43_rs_decoder.md R151). -/
inductive Dir where
  | before
  | after
  deriving DecidableEq, Repr, Inhabited

/-- One entry of `SHIFT_SCHEDULE`; any percent can be written, only 10, 20, …, 90 are legal (43_rs_decoder.md R151). -/
structure ShiftEntry where
  dir : Dir
  pct : Nat
  deriving DecidableEq, Repr, Inhabited

/-- The spec's default schedule: 18 entries (43_rs_decoder.md R151). -/
def defaultSchedule : List ShiftEntry :=
  [10, 20, 30, 40, 50, 60, 70, 80, 90].flatMap fun p => [⟨.before, p⟩, ⟨.after, p⟩]

/-- One code's part of `RS_PARAMS`: the field polynomial with its `x^8` bit, the exponent of the first root and the
step between root exponents; the defaults are those of 43_rs_decoder.md R148. -/
structure RsParams where
  poly      : BitVec 9 := 0x187
  firstRoot : Nat := 120
  spacing   : Nat := 1
  deriving DecidableEq, Repr, Inhabited

/-- Answer of `BLOCK0_END` (43_rs_decoder.md R160). -/
inductive Block0End where
  | continues
  | ends
  | inconsistent
  deriving DecidableEq, Repr, Inhabited

/-- A text of the shape `-?[0-9]+\.[0-9]` (44_output.md R181): a sign, a first digit, more digits, one fraction digit. -/
structure RssiText where
  neg  : Bool
  lead : Fin 10
  more : List (Fin 10)
  frac : Fin 10
  deriving DecidableEq, Repr, Inhabited

/-- The parameter `CAPTURE_NAME`: the spec's default rule or some other function (44_output.md R186). -/
inductive NameRule where
  | default
  | other
  deriving DecidableEq, Repr, Inhabited

/-- `FIXED_MASK`, OPEN (43_rs_decoder.md R166, 93 U4). -/
opaque Config.fixedMask : Vector Byte 8

/-- `FIXED_VALUE`, OPEN (43_rs_decoder.md R166, 93 U4). -/
opaque Config.fixedValue : Vector Byte 8

/-- `TZ_THRESHOLD`, OPEN (43_rs_decoder.md R163, 93 U5). -/
opaque Config.tzThreshold : BitVec 31

/-- `BLOCK0_END`, OPEN (43_rs_decoder.md R160, 93 U3). -/
opaque Config.block0End : List Byte → Block0End

/-- `RSSI_TEXT`, OPEN: a function of the header and the frame's samples (44_output.md R181, 93 U7). -/
opaque Config.rssiText : List Byte → List Sample → RssiText

/-- `REPLAY_CLOCK(k, tag)`, OPEN: of the number of candidates stamped before and the tag (CSEC, CUSEC, CIDX), within
the two ranges the spec states (41_sync_detector.md R127, 93 U8). -/
opaque Config.replayClock : Nat → Nat → Nat → Nat → Fin 10000000000 × Fin 1000000

/-- Any other `CAPTURE_NAME` a model may be given: of HSEC, HUSEC, HTYPE (00_scope.md R9, 93 U11). -/
opaque Config.captureName : Nat → Nat → PType → List Byte

/-- FREE VALUE: the time of the k-th stamp where the host broke the duty of 60_exceptions.md R207: the chunk's time is none
of 20_memory.md R56, or the formula leaves 0 … 10^10 − 1 seconds (93 U16; log 7). Read as two header fields, so it keeps
their ranges. -/
opaque Config.freeStamp : Nat → Fin 10000000000 × Fin 1000000

/-- FREE VALUE: the number printed for a status that no rule has written (10_state.md R35, R41: `UNSET`, never read by
a packet's own decode). -/
opaque Config.unsetStatus : Nat

/-- The parameters of 00_scope.md R9 that are data, with their defaults. A parameter that is a function is either the
open function above or one fixed answer for every argument. -/
structure Params where
  schedule    : List ShiftEntry := defaultSchedule
  rsUplink    : RsParams := {}
  rsLong      : RsParams := {}
  rsShort     : RsParams := {}
  block0End   : Option Block0End := none
  fixedMask   : Vector Byte 8 := Config.fixedMask
  fixedValue  : Vector Byte 8 := Config.fixedValue
  tzThreshold : BitVec 31 := Config.tzThreshold
  rssiText    : Option RssiText := none
  captureName : NameRule := .default
  bufPairs    : Nat := 208334
  /-- `PIPE_CAP`, at least 1; `none`: unbounded (00_scope.md R9, 20_memory.md R63). DESIGN CHOICE (log 34): the type also
  admits `some 0`, of which the spec says nothing; no check refuses it, and a `CH` of capacity 0 never takes a byte. -/
  pipeCap     : Option Nat := none
  deriving DecidableEq, Repr

end Sys2Proof
end

