-- ==== Sys2Proof/Machine/Operands.lean ====
section
/-! DEFINITION. Operand forms: packet and code constants, byte order, ASCII and decimal fields, header fields, bit
packing. Nothing here reads or writes state. -/

namespace Sys2Proof.Machine

/-! Constants (00_scope.md R7, 43_rs_decoder.md R147). -/

/-- Payload bits `NB`: `FISB_PAYLOAD_BITS`, `ADSB_PAYLOAD_BITS` (00_scope.md R7). -/
def payloadBits : PType → Nat
  | .F => 4416
  | .A => 384

/-- Frame length: `FLEN_F`, `FLEN_A` (00_scope.md R7). -/
def frameLen : PType → Nat
  | .F => 8835
  | .A => 771

/-- Type byte of a header (30_encoding.md R76). -/
def typeByte : PType → Byte
  | .F => 0x46
  | .A => 0x41

/-- Packet type of a type byte (30_encoding.md R76, R84). -/
def typeOfByte (b : Byte) : Option PType :=
  if b = 0x46 then some .F else if b = 0x41 then some .A else none

/-- `SYNC_FISB`, `SYNC_ADSB` (41_sync_detector.md R111). -/
def syncWord : PType → BitVec 36
  | .F => 0x153225B1D
  | .A => 0xEACDDA4E2

/-- Codeword length `n` (43_rs_decoder.md R147). -/
def codeN : Code → Nat
  | .uplink => 92
  | .long => 48
  | .short => 30

/-- Data length `k` (43_rs_decoder.md R147). -/
def codeK : Code → Nat
  | .uplink => 72
  | .long => 34
  | .short => 18

/-- Correction capacity `t` (43_rs_decoder.md R147). -/
def codeT : Code → Nat
  | .uplink => 10
  | .long => 7
  | .short => 6

/-- The window offset `w` as a number (42_slicer_deinterleaver.md R136). -/
def windowOffset : Window → Nat
  | .nominal => 0
  | .later => 1

/-- The phase register fed by the pair of index `n` (40_demodulator.md R104). -/
def phaseOf (n : Nat) : Phase := if n % 2 = 0 then .A else .B

/-! Byte order (20_memory.md R57). -/

/-- `LE16(b0, b1)` (00_scope.md R14). -/
def le16 (b0 b1 : Byte) : Half := b1 ++ b0

/-- The int32 whose little-endian bytes are `b0 b1 b2 b3` (20_memory.md R60). -/
def le32 (b0 b1 b2 b3 : Byte) : Sample := b3 ++ b2 ++ b1 ++ b0

/-- The `k` low bytes of `w`, least significant first. -/
def leBytes : Nat → Nat → List Byte
  | 0, _ => []
  | k + 1, w => BitVec.ofNat 8 w :: leBytes k (w / 256)

/-- The 2-byte little-endian encoding of an int16 (20_memory.md R58). -/
def halfBytes (v : Half) : List Byte := [v.extractLsb' 0 8, v.extractLsb' 8 8]

/-- `LE32(v)` (00_scope.md R14). -/
def sampleBytes (v : Sample) : List Byte :=
  [v.extractLsb' 0 8, v.extractLsb' 8 8, v.extractLsb' 16 8, v.extractLsb' 24 8]

/-- `LE32` of each sample in turn (20_memory.md R59). -/
def samplesBytes (l : List Sample) : List Byte := l.flatMap sampleBytes

/-! ASCII and decimal text (00_scope.md R13). -/

/-- The bytes of ASCII characters. -/
def ascii (l : List Char) : List Byte := l.map fun c => BitVec.ofNat 8 c.toNat

/-- The ASCII digit of `d mod 10`. -/
def digitByte (d : Nat) : Byte := BitVec.ofNat 8 (48 + d % 10)

/-- The decimal digits of `v`, given at least as many rounds as it has digits. -/
def decDigits : Nat → Nat → List Byte
  | 0, _ => []
  | f + 1, v => if v < 10 then [digitByte v] else decDigits f (v / 10) ++ [digitByte v]

/-- `dec(v)` (00_scope.md R13). -/
def dec (v : Nat) : List Byte := decDigits (v + 1) v

/-- `dec(v, w)` (00_scope.md R13). -/
def decPad (v w : Nat) : List Byte := List.replicate (w - (dec v).length) (digitByte 0) ++ dec v

/-- A hexadecimal digit, lowercase. -/
def nibbleByte (v : Nat) : Byte := BitVec.ofNat 8 (if v < 10 then 48 + v else 87 + v)

/-- `hex(B)`, most significant nibble first (00_scope.md R13). -/
def hex (l : List Byte) : List Byte := l.flatMap fun b => [nibbleByte (b.toNat / 16), nibbleByte (b.toNat % 16)]

/-- Whether a byte is a decimal digit. -/
def isDigit (b : Byte) : Bool := 48 ≤ b.toNat && b.toNat ≤ 57

/-- A digit field read most significant digit first (30_encoding.md R77). -/
def decimal (l : List Byte) : Nat := l.foldl (fun a b => 10 * a + (b.toNat - 48)) 0

/-- Bytes `a .. a+k-1` of `h`. -/
def field (h : List Byte) (a k : Nat) : List Byte := (h.drop a).take k

/-- The header checks beyond length and type byte (30_encoding.md R84). -/
def headerWellformed (h : List Byte) : Bool :=
  (field h 0 10).all isDigit && (field h 11 6).all isDigit && (field h 20 8).all isDigit &&
  h.getD 10 0 == 0x2E && h.getD 17 0 == 0x2E && h.getD 19 0 == 0x2E && h.getD 28 0 == 0x2E &&
  (48 ≤ (h.getD 29 0).toNat && (h.getD 29 0).toNat ≤ 52) &&
  (field h 30 6).all (· == 0x20)

/-- A time of a chunk tag or a header: ten digits of seconds, six of microseconds (20_memory.md R56, 30_encoding.md R76). -/
def timeInRange (sec usec : Nat) : Bool := sec < 10000000000 && usec < 1000000

/-! Level, time and status texts (44_output.md R180, R182). -/

/-- `LEVEL_TEXT(L)` (44_output.md R180). -/
def levelText (l : Nat) : List Byte :=
  let q := (l + 5000) / 10000
  dec (q / 100) ++ ascii ['.'] ++ decPad (q % 100) 2

/-- `TIME_TEXT(S, U)` (44_output.md R182). -/
def timeText (s u : Nat) : List Byte := decPad s 10 ++ ascii ['.'] ++ decPad (u / 1000) 3

/-- The spelling of an `RssiText` (44_output.md R181). -/
def rssiBytes (r : RssiText) : List Byte :=
  (if r.neg then ascii ['-'] else []) ++ (r.lead :: r.more).map (fun d => digitByte d.val) ++ ascii ['.'] ++
  [digitByte r.frac.val]

/-! Bits and bytes (00_scope.md R11). -/

/-- Eight bits to a byte, the first the most significant; fewer than eight are read as if followed by 0 bits. -/
def packByte (b : List Bool) : Byte :=
  BitVec.ofNat 8 ((b ++ List.replicate (8 - b.length) false).foldl (fun a x => 2 * a + x.toNat) 0)

/-- The groups of eight of a list, the last one possibly shorter; `f` bounds their number. -/
def groups8 {α : Type} : Nat → List α → List (List α)
  | 0, _ => []
  | _ + 1, [] => []
  | f + 1, l => l.take 8 :: groups8 f (l.drop 8)

/-- `C.PACK`: a bit stream to bytes (42_slicer_deinterleaver.md R139). -/
def packBits (b : List Bool) : List Byte := (groups8 b.length b).map packByte

/-- Every sixth element, beginning with the first; `f` bounds their number. -/
def sixths {α : Type} : Nat → List α → List α
  | 0, _ => []
  | _ + 1, [] => []
  | f + 1, a :: l => a :: sixths f (l.drop 5)

/-- Block `i` of an interleaved list: elements `6t + i` (42_slicer_deinterleaver.md R140). -/
def blockOf {α : Type} (i : Fin 6) (y : List α) : List α := sixths y.length (y.drop i.val)

end Sys2Proof.Machine
end

