-- ==== Sys2Proof/Machine/State.lean ====
section
/-! DEFINITION. The state of the core: all of 10_state.md, the input buffer of 20_memory.md R54, the bytes a blocked
read or write is holding (00_scope.md R14, 20_memory.md R63), and two fields of the model's own (`ret`, `script`).
INVENTORY.md lists every field with its rule and reset value. -/

namespace Sys2Proof.Machine

/-- Why a step or an operation stops. None of these is a fault of the hardware: those (60_exceptions.md R200) are
next states. -/
inductive Fault where
  /-- An operation of DEMOD in a state where DEMOD has ended, faulted or been aborted ("the agent takes no further step",
  60_exceptions.md R190). Raised by `exec`; safe. -/
  | demodHalted
  /-- The same for CORR (60_exceptions.md R190). Raised by `exec`; safe. -/
  | corrHalted
  /-- Every agent of the run has halted and the host does nothing more (60_exceptions.md R190). Raised by `step`; safe. -/
  | coreHalted
  deriving DecidableEq, Repr

/-- Why an instruction is refused. -/
inductive Refusal where
  /-- Not modelled yet; raised by no arm of this model. Safe. -/
  | notModelled (mnemonic : String)
  /-- A schedule index above `N` (42_slicer_deinterleaver.md R138 and 43_rs_decoder.md R152 give none an effect).
  Raised by `C.VARIANT`, `C.SEARCH` and `C.BLOCK` run on their own; safe. -/
  | scheduleIndex
  deriving DecidableEq, Repr

/-- Fault codes of the hardware (60_exceptions.md R200). -/
inductive FCode where
  | arg
  | shortRead
  | read
  | write
  | hdrLen
  | hdrType
  | hdrFormat
  | eofMidFrame
  deriving DecidableEq, Repr

/-- `DSTATE` (10_state.md R29); `PENDING` carries `PEND`, which is valid only there (R30). -/
inductive DState where
  | search
  | pending (p : Cand)
  | emitting
  | ended
  | faulted (c : FCode)
  | aborted
  deriving DecidableEq, Repr

/-- `CSTATE` (10_state.md R33). -/
inductive CState where
  | hdr
  | samples
  | decode
  | ended
  | faulted (c : FCode)
  | aborted
  deriving DecidableEq, Repr

/-- `EXIT` (10_state.md R37). -/
inductive Exit where
  | none
  | zero
  | nonzero
  deriving DecidableEq, Repr

/-- A block status: `UNSET`, an error count, 98 or 99 (10_state.md R35, 43_rs_decoder.md R150). -/
inductive BStatus where
  | unset
  | decoded (e : Nat)
  | uncorrectable
  | notAttempted
  deriving DecidableEq, Repr

/-- DEMOD (10_state.md R24 to R32). -/
structure Demod where
  i1 : Half
  q1 : Half
  i2 : Half
  q2 : Half
  n  : Nat
  ew : Vector Sample 72
  ewp : Fin 72
  sum : Word64
  level : Word64
  gate : Bool
  ra : Word64
  rb : Word64
  /-- `DSTATE` -/
  ctl : DState
  ftype : PType
  flen : Nat
  fcnt : Nat
  /-- `FRAME[0 .. FCNT-1]`, newest first -/
  frameRev : List Sample
  fhdr : List Byte
  csec : Nat
  cusec : Nat
  cidx : Nat
  /-- candidates stamped since reset, the `k` of 41_sync_detector.md R127 -/
  stamps : Nat
  /-- DEMOD's input buffer: the unread bytes of the current chunk (20_memory.md R54) -/
  ibuf : List Byte
  exit : Exit
  deriving DecidableEq, Repr

/-- CORR (10_state.md R33 to R35). -/
structure Corr where
  /-- `CSTATE` -/
  ctl : CState
  hbuf : List Byte
  hsec : Nat
  husec : Nat
  htype : PType
  hlevel : Nat
  herr : Nat
  clen : Nat
  ccnt : Nat
  /-- `CBUF[0 .. CCNT-1]`, newest first -/
  cbufRev : List Sample
  hint : Nat
  status : Vector BStatus 6
  data : Vector (List Byte) 6
  astatus : BStatus
  adata : List Byte
  /-- bytes a `ReadIn` that is still blocked has already taken (00_scope.md R14) -/
  rbuf : List Byte
  exit : Exit
  deriving DecidableEq, Repr

/-- What the host signals on `IN` (20_memory.md R56; an error is 60_exceptions.md R198). -/
inductive InEvent where
  | chunk (sec usec : Nat) (bytes : List Byte)
  | eof
  | error
  deriving DecidableEq, Repr

/-- How the host byte stream of a CORR that runs alone goes on after its bytes (10_state.md R37). -/
inductive StreamEnd where
  | more
  | eof
  | error
  deriving DecidableEq, Repr

/-- A capture record (30_encoding.md R83). -/
structure CapRec where
  kind  : CapKind
  name  : List Byte
  bytes : List Byte
  deriving DecidableEq, Repr

/-- The ports (10_state.md R36, R37; 20_memory.md R53 to R63). `…Wr` is what a `WriteOut` has still to hand over. -/
structure Io where
  inq : List InEvent
  alone : Bool
  cin : List Byte
  cinEnd : StreamEnd
  /-- unread bytes of `CH` -/
  ch : List Byte
  chWr : List Byte
  chClosed : Bool
  /-- CORR's read end of `CH` is closed -/
  chBroken : Bool
  /-- bytes the host has accepted on `OUT` -/
  out : List Byte
  outWr : List Byte
  outClosed : Bool
  outRefused : Bool
  outStall : Bool
  /-- records the host has accepted on `CAP`; after a halt the last may be cut short -/
  cap : List CapRec
  capWr : List CapRec
  /-- bytes of the first record of `capWr` that the host has accepted -/
  capSent : Nat
  capClosed : Bool
  capRefused : Bool
  capStall : Bool
  /-- the host's log channel: who wrote each diagnostic -/
  log : List Agent
  deriving DecidableEq, Repr

/-- A host-facing output port of CORR. -/
inductive Port where
  | out
  | cap
  deriving DecidableEq, Repr

/-- One action of the host (log 1): let an agent make its next move, moving at most `k` bytes when that move is a
transfer; abort an agent (60_exceptions.md R199); close a port on CORR (R196); stop or resume accepting its bytes
(20_memory.md R63). -/
inductive HostAct where
  | run (a : Agent)
  | push (a : Agent) (k : Nat)
  | abort (a : Agent)
  | refuse (p : Port)
  | stall (p : Port) (on : Bool)
  deriving DecidableEq, Repr

/-- The value an internal operation returns when it is run on its own (log 3). -/
inductive Ret where
  | none
  | sample (v : Sample)
  | cand (c : Option Cand)
  | corr (v : Word64)
  | stamp (sec usec : Nat)
  | slices (bef cur aft : List Sample) (bits : List Bool)
  | bit (b : Bool)
  | bits (b : List Bool)
  | bytes (b : List Byte)
  | blocks (b : List (List Byte))
  | words (long short : List Byte)
  /-- data and error count, or `FAIL` -/
  | rs (r : Option (List Byte × Nat))
  /-- schedule index, data and error count, or `NOTFOUND` -/
  | found (r : Option (Nat × List Byte × Nat))
  /-- data, error count and new hint, or `FAIL` -/
  | block (r : Option (List Byte × Nat × Nat))
  | taken (b : Bool)
  deriving DecidableEq, Repr

/-- The whole core. -/
structure State where
  cfg : Cfg
  par : Params
  demod : Demod
  corr : Corr
  io : Io
  /-- the model's own: the last value returned (log 3) -/
  ret : Ret
  /-- the model's own: the host's further actions (log 1) -/
  script : List HostAct
  deriving DecidableEq, Repr

/-- DEMOD at reset (10_state.md R41; the elements R41 calls invalid hold the values of log 4). -/
def Demod.reset : Demod where
  i1 := 0
  q1 := 0
  i2 := 0
  q2 := 0
  n := 0
  ew := Vector.replicate 72 0
  ewp := 0
  sum := 0
  level := 0
  gate := false
  ra := 0
  rb := 0
  ctl := .search
  ftype := .F
  flen := 8835
  fcnt := 0
  frameRev := []
  fhdr := List.replicate 36 0
  csec := 0
  cusec := 0
  cidx := 0
  stamps := 0
  ibuf := []
  exit := .none

/-- CORR at reset (10_state.md R41; log 4). -/
def Corr.reset : Corr where
  ctl := .hdr
  hbuf := List.replicate 36 0
  hsec := 0
  husec := 0
  htype := .F
  hlevel := 0
  herr := 0
  clen := 8835
  ccnt := 0
  cbufRev := []
  hint := 0
  status := Vector.replicate 6 .unset
  data := Vector.replicate 6 (List.replicate 72 0)
  astatus := .unset
  adata := []
  rbuf := []
  exit := .none

/-- The ports at reset (10_state.md R36, R41): nothing delivered, nothing written, all open. -/
def Io.reset : Io where
  inq := []
  alone := false
  cin := []
  cinEnd := .more
  ch := []
  chWr := []
  chClosed := false
  chBroken := false
  out := []
  outWr := []
  outClosed := false
  outRefused := false
  outStall := false
  cap := []
  capWr := []
  capSent := 0
  capClosed := false
  capRefused := false
  capStall := false
  log := []

/-- The core after reset with the default configuration and parameters (70_reset_and_hazards.md R213, 10_state.md R41). -/
def State.reset : State where
  cfg := {}
  par := {}
  demod := Demod.reset
  corr := Corr.reset
  io := Io.reset
  ret := .none
  script := []

end Sys2Proof.Machine
end

