-- ==== Sys2Proof/Machine/Flags.lean ====
section
/-! DEFINITION. The status values of 10_state.md R38 (the core has no condition codes): `LEVEL` and `GATE`, the control
states, block statuses and the exit status. -/

namespace Sys2Proof.Machine

/-- `|v|` of a sample as a u64 (00_scope.md R12). -/
def magnitude (v : Sample) : Word64 := BitVec.ofNat 64 v.toInt.natAbs

/-- `LEVEL = SUM div 72` (40_demodulator.md R101). -/
def levelOf (sum : Word64) : Word64 := sum / 72

/-- `GATE`: the level is above the threshold, not equal to it (40_demodulator.md R101). -/
def gateOf (level : Word64) (threshold : BitVec 32) : Bool := threshold.toNat < level.toNat

/-- DEMOD can still take a step: `DSTATE` is `SEARCH`, `PENDING` or `EMITTING` (10_state.md R29). -/
def DState.live : DState → Bool
  | .search => true
  | .pending _ => true
  | .emitting => true
  | .ended => false
  | .faulted _ => false
  | .aborted => false

/-- CORR can still take a step: `CSTATE` is `HDR`, `SAMPLES` or `DECODE` (10_state.md R33). -/
def CState.live : CState → Bool
  | .hdr => true
  | .samples => true
  | .decode => true
  | .ended => false
  | .faulted _ => false
  | .aborted => false

/-- The number of a block status (43_rs_decoder.md R150); `UNSET` has none, so a free value stands for it (log 12). -/
def statusNumber : BStatus → Nat
  | .unset => Config.unsetStatus
  | .decoded e => e
  | .uncorrectable => 98
  | .notAttempted => 99

/-- The exit status of the run, `true` for 0: both agents must have ended with 0 (60_exceptions.md R201). DESIGN CHOICE (log 37):
a DEMOD that is no part of a run of CORR alone counts among the two, so that such a run, DEMOD's status being `NONE`, never
has the status 0; the spec does not say whether it counts. -/
def runExit (d c : Exit) : Bool := d == .zero && c == .zero

end Sys2Proof.Machine
end

