-- ==== Sys2Proof/Machine/Ops.lean ====
section
/-! DEFINITION. The operations the meanings share: running an operation of a live agent, reset with a chosen
configuration, taking a fault (60_exceptions.md R195), the host abort (R199), writing to the ports (00_scope.md R14,
20_memory.md R62, R63). -/

namespace Sys2Proof.Machine

/-- What an operation answers. -/
abbrev Result := Host.Outcome State Fault Refusal

/-- An operation of DEMOD: it runs unless DEMOD has halted (60_exceptions.md R190). -/
def demodRun (s : State) (f : State → State) : Result :=
  if s.demod.ctl.live then .next (f s) else .fault .demodHalted

/-- An operation of CORR: it runs unless CORR has halted (60_exceptions.md R190). -/
def corrRun (s : State) (f : State → State) : Result :=
  if s.corr.ctl.live then .next (f s) else .fault .corrHalted

/-! Halting. -/

/-- DEMOD closes its output port `CH`; what it had not yet handed over is lost (60_exceptions.md R195 items 2 to 4). -/
def closeDemodPorts (p : Io) : Io := { p with chClosed := true, chWr := [] }

/-- The records of `CAP` as the host has them when CORR halts: those complete, and the part of one in progress it has
accepted. DESIGN CHOICE (log 32): a record cut before its first content byte is no record at all; the spec does not say
whether its name alone would be seen (60_exceptions.md R199). -/
def capAccepted (p : Io) : List CapRec :=
  match p.capWr with
  | [] => p.cap
  | r :: _ => if p.capSent = 0 then p.cap else p.cap ++ [{ r with bytes := r.bytes.take p.capSent }]

/-- CORR closes `OUT` and `CAP`, and its read end of `CH` (60_exceptions.md R195 items 2 to 4, R202). -/
def closeCorrPorts (p : Io) : Io :=
  { p with outClosed := true, outWr := [], cap := capAccepted p, capWr := [], capSent := 0, capClosed := true,
           chBroken := true }

/-- `raise Fault(code)` in an agent (60_exceptions.md R195): the one way a fault is taken. Its ports close, one
diagnostic is logged, `EXIT` becomes `NONZERO`, the control state `FAULTED(code)`. The agent's other registers are never
read again (log 15). -/
def raiseFault (a : Agent) (code : FCode) (s : State) : State :=
  match a with
  | .demod =>
    { s with demod := { s.demod with ctl := .faulted code, exit := .nonzero },
             io := { closeDemodPorts s.io with log := s.io.log ++ [.demod] } }
  | .corr =>
    { s with corr := { s.corr with ctl := .faulted code, exit := .nonzero },
             io := { closeCorrPorts s.io with log := s.io.log ++ [.corr] } }

/-- The host aborts an agent (60_exceptions.md R199); an agent that has halted stays as it is (R205). DESIGN CHOICE (log 36):
in a run of CORR alone an abort of DEMOD, which is no part of that run, makes it `ABORTED` with `NONZERO` and closes `CH` as in
every run; the spec does not say what it does there (70_reset_and_hazards.md R214). -/
def abortAgent (a : Agent) (s : State) : State :=
  match a with
  | .demod =>
    if s.demod.ctl.live then
      { s with demod := { s.demod with ctl := .aborted, exit := .nonzero }, io := closeDemodPorts s.io }
    else s
  | .corr =>
    if s.corr.ctl.live then
      { s with corr := { s.corr with ctl := .aborted, exit := .nonzero }, io := closeCorrPorts s.io }
    else s

/-- DEMOD's clean end (40_demodulator.md R107). -/
def endDemod (s : State) : State :=
  { s with demod := { s.demod with ctl := .ended, exit := .zero }, io := { s.io with chClosed := true } }

/-- CORR's clean end (42_slicer_deinterleaver.md R135). -/
def endCorr (s : State) : State :=
  { s with corr := { s.corr with ctl := .ended, exit := .zero },
           io := { s.io with outClosed := true, capClosed := true, chBroken := true } }

/-! Reset. -/

/-- A legal schedule entry (43_rs_decoder.md R151). -/
def entryLegal (e : ShiftEntry) : Bool := e.pct % 10 == 0 && 10 ≤ e.pct && e.pct ≤ 90

/-- A legal configuration (10_state.md R22). -/
def configLegal (cfg : Cfg) (par : Params) : Bool :=
  (cfg.enableFisb || cfg.enableAdsb) && cfg.candidates.all (fun c => c.length == 6) && cfg.compat == .none &&
  par.schedule.all entryLegal

/-- The core after a reset with the host's configuration and parameters; `alone` says that CORR runs alone
(70_reset_and_hazards.md R213, R214). An illegal configuration halts both agents with `F_ARG` (60_exceptions.md R191). DESIGN CHOICE (log 33):
the host's log then holds DEMOD's diagnostic before CORR's; the spec gives the two no order. DESIGN CHOICE (log 35): where
CORR runs alone an illegal configuration still halts both agents, DEMOD (no part of that run) and its diagnostic
included; the spec does not say whether R191's "both agents" takes it in. DESIGN CHOICE (log 34): a `PIPE_CAP` of 0 is not
among R22's checks and is accepted. -/
def boot (cfg : Cfg) (par : Params) (alone : Bool) : State :=
  let s := { State.reset with cfg := cfg, par := par, io := { Io.reset with alone := alone } }
  if configLegal cfg par then s else raiseFault .corr .arg (raiseFault .demod .arg s)

/-! Writing. A `WriteOut` puts the bytes into the port's `…Wr` field; the agent's next moves hand them over, before it
does anything else (20_memory.md R62; log 2). -/

/-- `emit(CH, B)` (41_sync_detector.md R121). -/
def emitCh (b : List Byte) (s : State) : State := { s with io := { s.io with chWr := s.io.chWr ++ b } }

/-- `emit(B)` on `OUT` (44_output.md R178). -/
def emitOut (b : List Byte) (s : State) : State := { s with io := { s.io with outWr := s.io.outWr ++ b } }

/-- `emitCap(kind, name, bytes)` (44_output.md R186). -/
def emitCap (r : CapRec) (s : State) : State := { s with io := { s.io with capWr := s.io.capWr ++ [r] } }

/-- How many of `have` bytes a transfer moves, given an upper limit or none. -/
def atMost (limit : Option Nat) (have_ : Nat) : Nat :=
  match limit with
  | none => have_
  | some k => min k have_

/-- The room of `CH` (20_memory.md R63). DESIGN CHOICE (log 34): a `PIPE_CAP` of 0, outside R9's range, leaves no room at
any time, and DEMOD stays blocked at its first record unless the reader is gone. -/
def chRoom (s : State) : Option Nat := s.par.pipeCap.map fun c => c - s.io.ch.length

/-- Hands over up to `limit` bytes of DEMOD's record in progress. A `CH` whose reader is gone raises `F_WRITE`
(60_exceptions.md R196). `none` when not one byte can move: DEMOD stays blocked. -/
def pumpCh (limit : Option Nat) (s : State) : Option State :=
  if s.io.chBroken then some (raiseFault .demod .write s)
  else
    let k := atMost limit (atMost (chRoom s) s.io.chWr.length)
    if k = 0 then none
    else some { s with io := { s.io with ch := s.io.ch ++ s.io.chWr.take k, chWr := s.io.chWr.drop k } }

/-- Hands over up to `limit` bytes of the first capture record in progress (`F_WRITE` if the host closed `CAP`). -/
def pumpCap (limit : Option Nat) (s : State) : Option State :=
  match s.io.capWr with
  | [] => none
  | r :: rest =>
    if s.io.capRefused then some (raiseFault .corr .write s)
    else if s.io.capStall then none
    else
      let left := r.bytes.length - s.io.capSent
      let k := atMost limit left
      if k = left then
        some { s with io := { s.io with cap := s.io.cap ++ [r], capWr := rest, capSent := 0 } }
      else if k = 0 then none
      else some { s with io := { s.io with capSent := s.io.capSent + k } }

/-- Hands over up to `limit` bytes of the line in progress (`F_WRITE` if the host closed `OUT`). -/
def pumpOut (limit : Option Nat) (s : State) : Option State :=
  if s.io.outRefused then some (raiseFault .corr .write s)
  else if s.io.outStall then none
  else
    let k := atMost limit s.io.outWr.length
    if k = 0 then none
    else some { s with io := { s.io with out := s.io.out ++ s.io.outWr.take k, outWr := s.io.outWr.drop k } }

/-- What CORR has still to hand over: capture records before the line (44_output.md R187). -/
def pumpCorr (limit : Option Nat) (s : State) : Option State :=
  if s.io.capWr.isEmpty then pumpOut limit s else pumpCap limit s

end Sys2Proof.Machine
end

