-- ==== Sys2Proof/Machine/Demodulator.lean ====
section
/-! DEFINITION. The discriminator, the energy window and the gate: `D.DISC`, `D.ENERGY`, `D.GATE`
(40_demodulator.md R99 to R101). -/

namespace Sys2Proof.Machine

/-- The sample of a pair: `I[n-2]·Q[n] − I[n]·Q[n-2]`, an exact integer stored as int32 (40_demodulator.md R99). -/
def discriminate (d : Demod) (i q : Half) : Sample :=
  BitVec.ofInt 32 (d.i2.toInt * q.toInt - i.toInt * d.q2.toInt)

/-- The rolling registers after a pair (40_demodulator.md R99). -/
def rollPair (d : Demod) (i q : Half) : Demod := { d with i2 := d.i1, q2 := d.q1, i1 := i, q1 := q }

/-- The energy window after a sample (40_demodulator.md R100). -/
def energyStep (v : Sample) (d : Demod) : Demod :=
  { d with ew := d.ew.set d.ewp v, ewp := d.ewp + 1, sum := d.sum - magnitude d.ew[d.ewp] + magnitude v }

/-- `LEVEL` and `GATE` from the present sum (40_demodulator.md R101). -/
def gateStep (cfg : Cfg) (d : Demod) : Demod :=
  { d with level := levelOf d.sum, gate := gateOf (levelOf d.sum) cfg.levelThreshold }

/-- `D.DISC` (40_demodulator.md R99): it returns the sample. -/
def execDDisc (i q : Half) (s : State) : Result :=
  demodRun s fun s => { s with demod := rollPair s.demod i q, ret := .sample (discriminate s.demod i q) }

/-- `D.ENERGY` (40_demodulator.md R100). -/
def execDEnergy (v : Sample) (s : State) : Result :=
  demodRun s fun s => { s with demod := energyStep v s.demod }

/-- `D.GATE` (40_demodulator.md R101). -/
def execDGate (s : State) : Result :=
  demodRun s fun s => { s with demod := gateStep s.cfg s.demod }

end Sys2Proof.Machine
end

