-- ==== Sys2Proof/Machine/Sync.lean ====
section
/-! DEFINITION. The sync detector, frame capture, the time base and the header: `D.SHIFT`, `D.PROBE`, `D.CORRELATE`,
`D.ARBITRATE`, `D.SELECT`, `D.CAPTURE`, `D.EMIT`, `D.CHUNK`, `D.STAMP`, `D.HEADER` (41_sync_detector.md). -/

namespace Sys2Proof.Machine

/-! Phase registers and the sync probe. -/

/-- The contents of a phase register (10_state.md R28). -/
def phaseReg (p : Phase) (d : Demod) : Word64 :=
  match p with
  | .A => d.ra
  | .B => d.rb

/-- A phase register replaced. -/
def setPhase (p : Phase) (v : Word64) (d : Demod) : Demod :=
  match p with
  | .A => { d with ra := v }
  | .B => { d with rb := v }

/-- The bit of a sample in DEMOD: 1 iff strictly positive (41_sync_detector.md R113, 90_conflicts.md C3). -/
def sampleBit (v : Sample) : Bool := 0 < v.toInt

/-- `D.SHIFT` on a register (41_sync_detector.md R113). -/
def shiftReg (r : Word64) (v : Sample) : Word64 := (r <<< 1) ||| (if sampleBit v then 1 else 0)

/-- `D.SHIFT` (41_sync_detector.md R113). -/
def shiftStep (p : Phase) (v : Sample) (d : Demod) : Demod := setPhase p (shiftReg (phaseReg p d) v) d

/-- The number of 1 bits (00_scope.md R12). -/
def popcount {w : Nat} (x : BitVec w) : Nat := ((List.range w).map fun i => (x.getLsbD i).toNat).sum

/-- Hamming distance of the low 36 bits of a register and a sync word (41_sync_detector.md R114). -/
def syncDistance (t : PType) (r : Word64) : Nat := popcount (r.extractLsb' 0 36 ^^^ syncWord t)

/-- Whether a packet type is probed for (10_state.md R21). -/
def typeEnabled (cfg : Cfg) : PType → Bool
  | .F => cfg.enableFisb
  | .A => cfg.enableAdsb

/-- The sample `d` pairs before the newest one, `EW[(EWP − 1 − d) mod 72]`, for `d ≤ 71` (40_demodulator.md R100). -/
def windowSample (dm : Demod) (d : Nat) : Sample := dm.ew[(dm.ewp.val + 71 + 72 - d) % 72]'(Nat.mod_lt _ (by decide))

/-- `D.CORRELATE` (41_sync_detector.md R115). -/
def correlate (t : PType) (d : Demod) : Word64 :=
  BitVec.ofInt 64 (((List.range 36).map fun k =>
    if (syncWord t).getLsbD k then (windowSample d (2 * k)).toInt else -(windowSample d (2 * k)).toInt).sum)

/-! Time base. -/

/-- `D.CHUNK` (41_sync_detector.md R123). -/
def latchTag (sec usec : Nat) (d : Demod) : Demod := { d with csec := sec, cusec := usec, cidx := 0 }

/-- The stamp formula, in microseconds (41_sync_detector.md R124). -/
def stampMicros (csec cusec cidx : Nat) : Int :=
  (csec : Int) * 1000000 + cusec + (((cidx : Int) - 72) * 48) / 100

/-- Whether the formula gives a stamp its value: the chunk's time is one of 20_memory.md R56 and the seconds stay in
0 … 10^10 − 1 (60_exceptions.md R207, 93 U16; log 7). -/
def stampStated (d : Demod) : Bool :=
  timeInRange d.csec d.cusec && decide (0 ≤ stampMicros d.csec d.cusec d.cidx) &&
  decide (stampMicros d.csec d.cusec d.cidx < 10000000000000000)

/-- Seconds and microseconds of a number of microseconds (41_sync_detector.md R124). -/
def splitMicros (total : Int) : Nat × Nat := ((total / 1000000).toNat, (total % 1000000).toNat)

/-- `D.STAMP`: the arrival time of a candidate of the present pair (41_sync_detector.md R124, R127); a free value where
the host has broken its duty so that no rule states it (60_exceptions.md R207; log 7). -/
def stampOf (cfg : Cfg) (d : Demod) : Nat × Nat :=
  if cfg.replayMode then
    ((Config.replayClock d.stamps d.csec d.cusec d.cidx).1.val,
     (Config.replayClock d.stamps d.csec d.cusec d.cidx).2.val)
  else if stampStated d then splitMicros (stampMicros d.csec d.cusec d.cidx)
  else ((Config.freeStamp d.stamps).1.val, (Config.freeStamp d.stamps).2.val)

/-- One more candidate has been stamped (41_sync_detector.md R127). -/
def countStamp (d : Demod) : Demod := { d with stamps := d.stamps + 1 }

/-! Probe. -/

/-- The type a probe of register contents `r` matches: the first enabled type within distance 4, FIS-B first
(41_sync_detector.md R114). -/
def matchType (cfg : Cfg) (r : Word64) : Option PType :=
  [PType.F, PType.A].find? fun t => typeEnabled cfg t && decide (syncDistance t r ≤ 4)

/-- The candidate of a match (41_sync_detector.md R114). -/
def candidateOf (cfg : Cfg) (p : Phase) (t : PType) (d : Demod) : Cand :=
  { type := t, idx := d.n, err := syncDistance t (phaseReg p d), corr := correlate t d, level := d.level,
    sec := (stampOf cfg d).1, usec := (stampOf cfg d).2 }

/-- `D.PROBE`: the candidate, if any, and DEMOD with the stamp counted (41_sync_detector.md R114). -/
def probe (cfg : Cfg) (p : Phase) (d : Demod) : Option Cand × Demod :=
  match matchType cfg (phaseReg p d) with
  | some t => (some (candidateOf cfg p t d), countStamp d)
  | none => (none, d)

/-! Header. -/

/-- `D.HEADER` (41_sync_detector.md R126). -/
def headerBytes (c : Cand) : List Byte :=
  decPad c.sec 10 ++ ascii ['.'] ++ decPad c.usec 6 ++ ascii ['.'] ++ [typeByte c.type] ++ ascii ['.'] ++
  decPad (min c.level.toNat 99999999) 8 ++ ascii ['.'] ++ decPad c.err 1 ++ List.replicate 6 0x20

/-! Selection, capture and emission. -/

/-- `D.SELECT` (41_sync_detector.md R118). -/
def selectStep (c : Cand) (d : Demod) : Demod :=
  { d with ra := 0, rb := 0, ftype := c.type, flen := frameLen c.type, fcnt := 0, frameRev := [],
           fhdr := headerBytes c, ctl := .emitting }

/-- The frame record of DEMOD's header and frame (20_memory.md R59). -/
def frameRecord (d : Demod) : List Byte := d.fhdr ++ samplesBytes d.frameRev.reverse

/-- `D.EMIT` (41_sync_detector.md R121). -/
def emitFrame (s : State) : State :=
  let s' := emitCh (frameRecord s.demod) s
  { s' with demod := { s'.demod with fcnt := 0, frameRev := [] } }

/-- `D.CAPTURE` (41_sync_detector.md R120). -/
def captureStep (v : Sample) (s : State) : State :=
  let s' := { s with demod := { s.demod with frameRev := v :: s.demod.frameRev, fcnt := s.demod.fcnt + 1 } }
  if s'.demod.fcnt = s'.demod.flen then
    let s'' := emitFrame s'
    { s'' with demod := { s''.demod with ctl := .search } }
  else s'

/-- `better(c, p)` (41_sync_detector.md R117). -/
def better (c p : Cand) : Bool := c.err < p.err || (c.err == p.err && p.corr.toInt < c.corr.toInt)

/-- `D.ARBITRATE` with a candidate pending: the better of it and the new one is selected (41_sync_detector.md R117). -/
def arbitratePending (p : Cand) (cand : Option Cand) (v : Sample) (s : State) : State :=
  match cand with
  | some c =>
    if better c p then { s with demod := selectStep c s.demod }
    else captureStep v { s with demod := selectStep p s.demod }
  | none => captureStep v { s with demod := selectStep p s.demod }

/-- `D.ARBITRATE` with no candidate pending (41_sync_detector.md R117). -/
def arbitrateSearch (cand : Option Cand) (s : State) : State :=
  match cand with
  | none => s
  | some c =>
    match s.cfg.phaseSelect with
    | .first => { s with demod := selectStep c s.demod }
    | .best => { s with demod := { s.demod with ctl := .pending c } }

/-- `D.ARBITRATE` (41_sync_detector.md R117). -/
def arbitrateStep (cand : Option Cand) (v : Sample) (s : State) : State :=
  match s.demod.ctl with
  | .pending p => arbitratePending p cand v s
  | _ => arbitrateSearch cand s

/-! Meanings. -/

/-- `D.SHIFT` (41_sync_detector.md R113). -/
def execDShift (p : Phase) (v : Sample) (s : State) : Result :=
  demodRun s fun s => { s with demod := shiftStep p v s.demod }

/-- `D.PROBE` (41_sync_detector.md R114): it returns the candidate or none. -/
def execDProbe (p : Phase) (s : State) : Result :=
  demodRun s fun s => { s with demod := (probe s.cfg p s.demod).2, ret := .cand (probe s.cfg p s.demod).1 }

/-- `D.CORRELATE` (41_sync_detector.md R115): it returns the correlation. -/
def execDCorrelate (t : PType) (s : State) : Result :=
  demodRun s fun s => { s with ret := .corr (correlate t s.demod) }

/-- `D.ARBITRATE` (41_sync_detector.md R117). -/
def execDArbitrate (cand : Option Cand) (v : Sample) (s : State) : Result :=
  demodRun s fun s => arbitrateStep cand v s

/-- `D.SELECT` (41_sync_detector.md R118). -/
def execDSelect (c : Cand) (s : State) : Result :=
  demodRun s fun s => { s with demod := selectStep c s.demod }

/-- `D.CAPTURE` (41_sync_detector.md R120). -/
def execDCapture (v : Sample) (s : State) : Result := demodRun s fun s => captureStep v s

/-- `D.EMIT` (41_sync_detector.md R121). -/
def execDEmit (s : State) : Result := demodRun s fun s => emitFrame s

/-- `D.CHUNK` (41_sync_detector.md R123), for every tag: the core does not check the host's duty (60_exceptions.md R207;
log 20). The length is the host's annotation and fixes nothing here (30_encoding.md R75). -/
def execDChunk (sec usec _len : Nat) (s : State) : Result :=
  demodRun s fun s => { s with demod := latchTag sec usec s.demod }

/-- `D.STAMP` (41_sync_detector.md R124, R127): it returns the arrival time. -/
def execDStamp (s : State) : Result :=
  demodRun s fun s =>
    { s with demod := countStamp s.demod, ret := .stamp (stampOf s.cfg s.demod).1 (stampOf s.cfg s.demod).2 }

/-- `D.HEADER` (41_sync_detector.md R126): it returns the 36 bytes. -/
def execDHeader (c : Cand) (s : State) : Result :=
  demodRun s fun s => { s with ret := .bytes (headerBytes c) }

end Sys2Proof.Machine
end

