-- ==== Sys2Proof/Machine/DemodStep.lean ====
section
/-! DEFINITION. DEMOD's token operations `D.IQ` and `D.EOF` (40_demodulator.md R97, R103, R107). -/

namespace Sys2Proof.Machine

/-- The part of `D.IQ` that runs whatever the control state: discriminator, energy window, gate (40_demodulator.md R98). -/
def senseStep (cfg : Cfg) (i q : Half) (d : Demod) : Demod :=
  gateStep cfg (energyStep (discriminate d i q) (rollPair d i q))

/-- The probe of a pair: none while the gate is closed (40_demodulator.md R101, R103). -/
def probeIfOpen (cfg : Cfg) (p : Phase) (d : Demod) : Option Cand × Demod :=
  match d.gate with
  | true => probe cfg p d
  | false => (none, d)

/-- Shift, probe when the gate is open, and arbitrate, for the sample `v` of the present pair (40_demodulator.md R103). -/
def searchStep (v : Sample) (s : State) : State :=
  let pr := probeIfOpen s.cfg (phaseOf s.demod.n) (shiftStep (phaseOf s.demod.n) v s.demod)
  arbitrateStep pr.1 v { s with demod := pr.2 }

/-- `n` and `CIDX` advance (40_demodulator.md R103). -/
def advancePair (s : State) : State := { s with demod := { s.demod with n := s.demod.n + 1, cidx := s.demod.cidx + 1 } }

/-- The whole per-pair step (40_demodulator.md R97, R103). -/
def iqStep (i q : Half) (s : State) : State :=
  let v := discriminate s.demod i q
  let s' := { s with demod := senseStep s.cfg i q s.demod }
  advancePair (match s.demod.ctl with
    | .emitting => captureStep v s'
    | _ => searchStep v s')

/-- `D.IQ` (40_demodulator.md R103). -/
def execDIq (i q : Half) (s : State) : Result := demodRun s (iqStep i q)

/-- `D.EOF` (40_demodulator.md R107); a pending candidate or partial frame is never written. -/
def execDEof (s : State) : Result := demodRun s endDemod

end Sys2Proof.Machine
end

