-- ==== Sys2Proof/Machine/Intake.lean ====
section
/-! DEFINITION. CORR's token operations: `C.HDR`, `C.SMP`, `C.EOF` (42_slicer_deinterleaver.md R133 to R135). -/

namespace Sys2Proof.Machine

/-- CORR with a header accepted (42_slicer_deinterleaver.md R133, 30_encoding.md R77). -/
def acceptHeader (t : PType) (h : List Byte) (c : Corr) : Corr :=
  { c with hbuf := h, hsec := decimal (field h 0 10), husec := decimal (field h 11 6), htype := t,
           hlevel := decimal (field h 20 8), herr := decimal (field h 29 1), clen := frameLen t, ccnt := 0,
           cbufRev := [], ctl := .samples }

/-- `C.HDR` on the bytes read: the checks in the order of 60_exceptions.md R205, then the fields
(42_slicer_deinterleaver.md R133). -/
def headerStep (h : List Byte) (s : State) : State :=
  if h.length ≠ 36 then raiseFault .corr .hdrLen s
  else
    match typeOfByte (h.getD 18 0) with
    | none => raiseFault .corr .hdrType s
    | some t =>
      if headerWellformed h then { s with corr := acceptHeader t h s.corr } else raiseFault .corr .hdrFormat s

/-- CORR with one more sample of the frame (42_slicer_deinterleaver.md R134). -/
def sampleStep (v : Sample) (c : Corr) : Corr :=
  { c with cbufRev := v :: c.cbufRev, ccnt := c.ccnt + 1, ctl := if c.ccnt + 1 = c.clen then .decode else c.ctl }

/-- `C.HDR` with type byte `F` (42_slicer_deinterleaver.md R133). -/
def execCHdrF (h : List Byte) (s : State) : Result := corrRun s (headerStep h)

/-- `C.HDR` with type byte `A` (42_slicer_deinterleaver.md R133). -/
def execCHdrA (h : List Byte) (s : State) : Result := corrRun s (headerStep h)

/-- `C.SMP` (42_slicer_deinterleaver.md R134). -/
def execCSmp (v : Sample) (s : State) : Result :=
  corrRun s fun s => { s with corr := sampleStep v s.corr }

/-- `C.EOF` (42_slicer_deinterleaver.md R135). -/
def execCEof (pos : EofPos) (s : State) : Result :=
  corrRun s fun s =>
    match pos with
    | .boundary => endCorr s
    | .midframe => raiseFault .corr .eofMidFrame s

end Sys2Proof.Machine
end

