-- ==== Sys2Proof/Machine/Slicer.lean ====
section
/-! DEFINITION. The bit slicer, the mixer and the deinterleaver: `C.SLICE`, `C.MIX`, `C.VARIANT`, `C.PACK`, `C.DEINT`,
`C.ABYTES` (42_slicer_deinterleaver.md R136 to R141). -/

namespace Sys2Proof.Machine

/-- The three samples of one payload bit: `bef_w(k)`, `cur_w(k)`, `aft_w(k)` (42_slicer_deinterleaver.md R136). -/
structure Tap where
  bef : Sample
  cur : Sample
  aft : Sample
  deriving DecidableEq, Repr

/-- The taps of `n` payload bits from a list of samples: bit `k` has elements `2k`, `2k+1`, `2k+2`. -/
def taps : Nat → List Sample → List Tap
  | 0, _ => []
  | n + 1, l => ⟨l.headD 0, (l.drop 1).headD 0, (l.drop 2).headD 0⟩ :: taps n (l.drop 2)

/-- `CBUF` in the order received. -/
def cbufOf (c : Corr) : List Sample := c.cbufRev.reverse

/-- The taps of a window (42_slicer_deinterleaver.md R136). -/
def windowTaps (w : Window) (t : PType) (cb : List Sample) : List Tap :=
  taps (payloadBits t) (cb.drop (windowOffset w))

/-- `bit(v)`: 1 iff `v ≥ 0` (42_slicer_deinterleaver.md R136, 90_conflicts.md C3). -/
def sliceBit (v : Sample) : Bool := 0 ≤ v.toInt

/-- `C.MIX`: the sign of `100·c + P·m`, exactly (42_slicer_deinterleaver.md R137). -/
def mixBit (c m : Sample) (pct : Nat) : Bool := 0 ≤ 100 * c.toInt + pct * m.toInt

/-- The bit of a tap under a schedule entry, or unmixed (42_slicer_deinterleaver.md R138). -/
def tapBit (e : Option ShiftEntry) (t : Tap) : Bool :=
  match e with
  | none => sliceBit t.cur
  | some ⟨.before, pct⟩ => mixBit t.cur t.bef pct
  | some ⟨.after, pct⟩ => mixBit t.cur t.aft pct

/-- The schedule entry of index `j`: none for 0, entry `j − 1` above (43_rs_decoder.md R151). -/
def scheduleEntry (par : Params) (j : Nat) : Option ShiftEntry :=
  match j with
  | 0 => none
  | j + 1 => par.schedule[j]?

/-- `C.VARIANT` (42_slicer_deinterleaver.md R138). -/
def variantBits (par : Params) (w : Window) (j : Nat) (t : PType) (cb : List Sample) : List Bool :=
  (windowTaps w t cb).map (tapBit (scheduleEntry par j))

/-- The packed bytes of a variant (42_slicer_deinterleaver.md R144). -/
def variantBytes (par : Params) (w : Window) (j : Nat) (t : PType) (cb : List Sample) : List Byte :=
  packBits (variantBits par w j t cb)

/-- `C.DEINT` (42_slicer_deinterleaver.md R140). -/
def deinterleave (y : List Byte) : List (List Byte) := (List.finRange 6).map fun i => blockOf i y

/-- `C.ABYTES`: the long and the short codeword candidate (42_slicer_deinterleaver.md R141). -/
def codewords (z : List Byte) : List Byte × List Byte := (z.take 48, z.take 30)

/-- `C.SLICE` (42_slicer_deinterleaver.md R136): it returns the three sequences and the current bits. -/
def execCSlice (w : Window) (t : PType) (s : State) : Result :=
  corrRun s fun s =>
    let l := windowTaps w t (cbufOf s.corr)
    { s with ret := .slices (l.map Tap.bef) (l.map Tap.cur) (l.map Tap.aft) (l.map fun x => sliceBit x.cur) }

/-- `C.MIX` (42_slicer_deinterleaver.md R137): it returns the bit. -/
def execCMix (c m : Sample) (pct : Nat) (s : State) : Result :=
  corrRun s fun s => { s with ret := .bit (mixBit c m pct) }

/-- `C.VARIANT` (42_slicer_deinterleaver.md R138): it returns the bit stream. -/
def execCVariant (w : Window) (j : Nat) (t : PType) (s : State) : Result :=
  if j ≤ s.par.schedule.length then
    corrRun s fun s => { s with ret := .bits (variantBits s.par w j t (cbufOf s.corr)) }
  else .refused .scheduleIndex

/-- `C.PACK` (42_slicer_deinterleaver.md R139): it returns the bytes. -/
def execCPack (bits : List Bool) (s : State) : Result :=
  corrRun s fun s => { s with ret := .bytes (packBits bits) }

/-- `C.DEINT` (42_slicer_deinterleaver.md R140): it returns the six blocks. -/
def execCDeint (y : List Byte) (s : State) : Result :=
  corrRun s fun s => { s with ret := .blocks (deinterleave y) }

/-- `C.ABYTES` (42_slicer_deinterleaver.md R141): it returns the two words. -/
def execCAbytes (z : List Byte) (s : State) : Result :=
  corrRun s fun s => { s with ret := .words (codewords z).1 (codewords z).2 }

end Sys2Proof.Machine
end

