-- ==== Sys2Proof/Machine/Output.lean ====
section
/-! DEFINITION. What CORR writes once a frame is decoded: `C.COMPLETE`, `C.LINE`, `C.FAILLINE`, `C.CAPTURE`
(44_output.md, 30_encoding.md R80 to R83). -/

namespace Sys2Proof.Machine

/-- `RSSI_TEXT(HBUF, CBUF)` (44_output.md R181). -/
def rssiField (par : Params) (c : Corr) : List Byte :=
  match par.rssiText with
  | some r => rssiBytes r
  | none => rssiBytes (Config.rssiText c.hbuf (cbufOf c))

/-- The six block statuses, two digits each, separated by colons (44_output.md R178). -/
def statusesText (st : Vector BStatus 6) : List Byte :=
  decPad (statusNumber st[0]) 2 ++ ascii [':'] ++ decPad (statusNumber st[1]) 2 ++ ascii [':'] ++
  decPad (statusNumber st[2]) 2 ++ ascii [':'] ++ decPad (statusNumber st[3]) 2 ++ ascii [':'] ++
  decPad (statusNumber st[4]) 2 ++ ascii [':'] ++ decPad (statusNumber st[5]) 2

/-- `E/BE;ss=LV/RS;t=SEC.MS`, the fields every line has in common (44_output.md R178, R183). -/
def lineFields (par : Params) (c : Corr) (be : List Byte) : List Byte :=
  dec c.herr ++ ascii ['/'] ++ be ++ ascii [';', 's', 's', '='] ++ levelText c.hlevel ++ ascii ['/'] ++
  rssiField par c ++ ascii [';', 't', '='] ++ timeText c.hsec c.husec

/-- The success line of payload `d` (44_output.md R178, 30_encoding.md R80, R81). -/
def successLine (par : Params) (c : Corr) (d : List Byte) : List Byte :=
  match c.htype with
  | .F => ascii ['+'] ++ hex d ++ ascii [';', 'r', 's', '='] ++ lineFields par c (statusesText c.status) ++ [0x0A]
  | .A => ascii ['-'] ++ hex d ++ ascii [';', 'r', 's', '='] ++ lineFields par c (dec (statusNumber c.astatus)) ++ [0x0A]

/-- The failure line (44_output.md R183, 30_encoding.md R82). -/
def failureLine (par : Params) (c : Corr) : List Byte :=
  match c.htype with
  | .F =>
    ascii ['#', 'F', 'A', 'I', 'L', 'E', 'D', '-', 'F', 'I', 'S', '-', 'B', ' ', 'r', 's', '='] ++
    lineFields par c (statusesText c.status) ++ ascii [' '] ++ c.hbuf ++ [0x0A]
  | .A =>
    ascii ['#', 'F', 'A', 'I', 'L', 'E', 'D', '-', 'A', 'D', 'S', '-', 'B', ' ', 'r', 's', '='] ++
    lineFields par c (ascii ['9', '8']) ++ ascii [' '] ++ c.hbuf ++ [0x0A]

/-- `CAPTURE_NAME(HSEC, HUSEC, HTYPE)` (44_output.md R186). -/
def captureName (par : Params) (c : Corr) : List Byte :=
  match par.captureName with
  | .default =>
    decPad c.hsec 10 ++ ascii ['.'] ++ decPad (c.husec / 1000) 3 ++ ascii ['.'] ++ [typeByte c.htype] ++
    ascii ['.', 'i', '3', '2']
  | .other => Config.captureName c.hsec c.husec c.htype

/-- The capture record of CORR's frame (44_output.md R186). -/
def captureRecord (par : Params) (k : CapKind) (c : Corr) : CapRec :=
  { kind := k, name := captureName par c, bytes := c.hbuf ++ samplesBytes (cbufOf c) }

/-- `C.CAPTURE` when its option is on (44_output.md R177). -/
def captureIf (on : Bool) (k : CapKind) (s : State) : State :=
  if on then emitCap (captureRecord s.par k s.corr) s else s

/-- Whether a failed packet of this type writes its failure line (44_output.md R177). -/
def failLineOn (cfg : Cfg) : PType → Bool
  | .F => cfg.failFisb
  | .A => cfg.failAdsb

/-- `C.COMPLETE` (44_output.md R177, R187). -/
def completeStep (o : Completion) (s : State) : State :=
  let s := captureIf s.cfg.captureRaw .raw s
  match o with
  | .success d => emitOut (successLine s.par s.corr d) s
  | .failure =>
    let s := captureIf s.cfg.captureFail .fail s
    if failLineOn s.cfg s.corr.htype then emitOut (failureLine s.par s.corr) s else s

/-- `C.COMPLETE` (44_output.md R177). -/
def execCComplete (o : Completion) (s : State) : Result := corrRun s (completeStep o)

/-- `C.LINE` (44_output.md R178). -/
def execCLine (d : List Byte) (s : State) : Result :=
  corrRun s fun s => emitOut (successLine s.par s.corr d) s

/-- `C.FAILLINE` (44_output.md R183). -/
def execCFailline (s : State) : Result :=
  corrRun s fun s => emitOut (failureLine s.par s.corr) s

/-- `C.CAPTURE` (44_output.md R186). -/
def execCCapture (k : CapKind) (s : State) : Result :=
  corrRun s fun s => emitCap (captureRecord s.par k s.corr) s

end Sys2Proof.Machine
end

