-- ==== Sys2Proof/Machine/ReedSolomon.lean ====
section
/-! DEFINITION. `RSDecode` (43_rs_decoder.md R147, R148) as a function of the code parameters: syndromes, error locator,
error values, and a last check that the corrected word is a codeword within `t` bytes, so that an answer `OK` is sound
whatever the parameters are (log 8). The field is GF(2^8) of the parameters' polynomial, with `α = x`. -/

namespace Sys2Proof.Machine

/-- `k b`, with `b` first brought to a numeral: it keeps long field computations shallow when the kernel runs them. -/
def withByte {α : Type} (b : Byte) (k : Byte → α) : α :=
  match b.toNat with
  | 0 => k 0
  | m + 1 => k (BitVec.ofNat 8 (m + 1))

/-- `x · a` in the field of polynomial `p`. -/
def gfDouble (p : BitVec 9) (a : Byte) : Byte :=
  if a.msb then (a <<< 1) ^^^ p.setWidth 8 else a <<< 1

/-- The sum of `a · x^k` over the low `f` bits `k` set in `b`. -/
def gfMulAux (p : BitVec 9) (a b : Byte) : Nat → Byte
  | 0 => 0
  | f + 1 => gfMulAux p (gfDouble p a) (b >>> 1) f ^^^ (if b.getLsbD 0 then a else 0)

/-- Product in the field. -/
def gfMul (p : BitVec 9) (a b : Byte) : Byte := withByte a fun a => withByte b fun b => gfMulAux p a b 8

/-- `a^k` for an exponent given as its binary digits, most significant first. -/
def gfPowBits (p : BitVec 9) (a : Byte) (bits : List Bool) : Byte :=
  bits.foldl (fun acc b => if b then gfMul p (gfMul p acc acc) a else gfMul p acc acc) 1

/-- The inverse `a^254`; 0 for 0. -/
def gfInv (p : BitVec 9) (a : Byte) : Byte := gfPowBits p a [true, true, true, true, true, true, true, false]

/-- `α^k`. -/
def gfAlpha (p : BitVec 9) : Nat → Byte
  | 0 => 1
  | k + 1 => gfDouble p (gfAlpha p k)

/-- `α^(k mod 255)`. -/
def gfExp (p : BitVec 9) (k : Nat) : Byte := gfAlpha p (k % 255)

/-- A polynomial, lowest coefficient first, at `x`. -/
def polyEval (p : BitVec 9) (l : List Byte) (x : Byte) : Byte := l.foldr (fun c acc => c ^^^ gfMul p x acc) 0

/-- The formal derivative of a polynomial, lowest coefficient first (characteristic 2: even powers vanish). -/
def polyDeriv : List Byte → List Byte
  | [] => []
  | [_] => []
  | _ :: b :: l => b :: 0 :: polyDeriv l |>.take (l.length + 1)

/-- Sum of two polynomials. -/
def polyAdd : List Byte → List Byte → List Byte
  | [], b => b
  | a, [] => a
  | x :: a, y :: b => (x ^^^ y) :: polyAdd a b

/-- The sum of the products of corresponding elements. -/
def dotProduct (p : BitVec 9) : List Byte → List Byte → Byte
  | x :: a, y :: b => gfMul p x y ^^^ dotProduct p a b
  | _, _ => 0

/-- A received word at the root `x`, its first byte the highest coefficient (43_rs_decoder.md R148). -/
def wordEval (p : BitVec 9) (y : List Byte) (x : Byte) : Byte := y.foldl (fun acc b => gfMul p acc x ^^^ b) 0

/-- Exponent of the `j`-th root of the generator polynomial (43_rs_decoder.md R148; log 8). -/
def rootExp (rs : RsParams) (j : Nat) : Nat := rs.firstRoot + rs.spacing * j

/-- The `n - k` syndromes of a word. -/
def syndromes (rs : RsParams) (code : Code) (y : List Byte) : List Byte :=
  (List.range (codeN code - codeK code)).map fun j => wordEval rs.poly y (gfExp rs.poly (rootExp rs j))

/-- Whether `y` is a codeword of `code`: `n` bytes that vanish at every root of the generator (43_rs_decoder.md R148). -/
def isCodeword (rs : RsParams) (code : Code) (y : List Byte) : Bool :=
  y.length == codeN code && (syndromes rs code y).all (· == 0)

/-- The number of positions at which two words differ (43_rs_decoder.md R147). -/
def byteDistance : List Byte → List Byte → Nat
  | a :: x, b :: y => (if a = b then 0 else 1) + byteDistance x y
  | _, _ => 0

/-- Berlekamp–Massey state: locator, the earlier locator times `x^m`, length, last discrepancy, syndromes read. -/
structure Locator where
  cur  : List Byte
  old  : List Byte
  len  : Nat
  disc : Byte
  read : Nat
  deriving DecidableEq, Repr

/-- One round, given the syndromes read so far, the newest first. -/
def locatorRound (p : BitVec 9) (hist : List Byte) (st : Locator) : Locator :=
  let d := dotProduct p st.cur hist
  if d = 0 then { st with old := 0 :: st.old, read := st.read + 1 }
  else
    let q := gfMul p d (gfInv p st.disc)
    let cur := polyAdd st.cur (st.old.map (gfMul p q))
    if 2 * st.len ≤ st.read then
      { cur := cur, old := 0 :: st.cur, len := st.read + 1 - st.len, disc := d, read := st.read + 1 }
    else { st with cur := cur, old := 0 :: st.old, read := st.read + 1 }

/-- All rounds: the syndromes still to read, and those read, newest first. -/
def locatorRounds (p : BitVec 9) : List Byte → List Byte → Locator → Locator
  | [], _, st => st
  | s :: rest, hist, st => locatorRounds p rest (s :: hist) (locatorRound p (s :: hist) st)

/-- The error locator of a list of syndromes. -/
def errorLocator (p : BitVec 9) (syn : List Byte) : List Byte :=
  (locatorRounds p syn [] { cur := [1], old := [0, 1], len := 0, disc := 1, read := 0 }).cur

/-- The first `m` coefficients of the product of two polynomials. -/
def polyMulTrunc (p : BitVec 9) : Nat → List Byte → List Byte → List Byte
  | 0, _, _ => []
  | _ + 1, [], _ => []
  | m + 1, x :: a, b => polyAdd ((b.take (m + 1)).map (gfMul p x)) (0 :: polyMulTrunc p m a b)

/-- The word with every located error removed: at each position (exponent `pos` counted from the last byte) whose
inverse locator is a root of `loc`, the error value by Forney's formula. -/
def correctWord (rs : RsParams) (loc dloc omega : List Byte) : Nat → List Byte → List Byte
  | 0, _ => []
  | _ + 1, [] => []
  | pos + 1, b :: y =>
    let e := rs.spacing * pos % 255
    let xinv := gfExp rs.poly (255 - e)
    let b' :=
      if polyEval rs.poly loc xinv = 0 then
        let num := gfMul rs.poly (gfExp rs.poly e) (polyEval rs.poly omega xinv)
        let mag := gfMul rs.poly num (gfInv rs.poly (polyEval rs.poly dloc xinv))
        b ^^^ gfMul rs.poly mag (gfExp rs.poly (255 - rs.firstRoot * pos % 255))
      else b
    b' :: correctWord rs loc dloc omega pos y

/-- The parameters of a code (43_rs_decoder.md R148). -/
def codeParams (par : Params) : Code → RsParams
  | .uplink => par.rsUplink
  | .long => par.rsLong
  | .short => par.rsShort

/-- The word the decoder proposes for `y`. -/
def proposedWord (rs : RsParams) (code : Code) (y : List Byte) : List Byte :=
  let syn := syndromes rs code y
  let loc := errorLocator rs.poly syn
  correctWord rs loc (polyDeriv loc) (polyMulTrunc rs.poly syn.length syn loc) (codeN code) y

/-- `RSDecode(code, y)`: the codeword and its distance, or `none` for `FAIL` (43_rs_decoder.md R147). -/
def rsDecode (par : Params) (code : Code) (y : List Byte) : Option (List Byte × Nat) :=
  let rs := codeParams par code
  if isCodeword rs code y then some (y, 0)
  else
    let c := proposedWord rs code y
    if y.length = codeN code ∧ isCodeword rs code c ∧ byteDistance c y ≤ codeT code then some (c, byteDistance c y)
    else none

/-- `C.RS`: one attempt, answering the data bytes and the error count (43_rs_decoder.md R149). -/
def rsAttempt (par : Params) (code : Code) (y : List Byte) : Option (List Byte × Nat) :=
  match rsDecode par code y with
  | some (c, e) => some (c.take (codeK code), e)
  | none => none

end Sys2Proof.Machine
end

