-- ==== Sys2Proof/Machine/RsDecoder.lean ====
section
/-! DEFINITION. The framed decoder: `C.RS`, `C.SEARCH`, `C.BLOCK`, `C.SHORTCUT`, `C.TZ`, `C.FIXED`, `C.FISB`, `C.ADSB`
(43_rs_decoder.md R149 to R174). -/

namespace Sys2Proof.Machine

/-- `order(h)` over `N` schedule entries (43_rs_decoder.md R152). -/
def searchOrder (n h : Nat) : List Nat :=
  0 :: ((if 1 ≤ h then [h] else []) ++ ((List.range n).map (· + 1)).filter (· != h))

/-- Block `i` of a variant (42_slicer_deinterleaver.md R144). -/
def variantBlock (par : Params) (i : Fin 6) (w : Window) (j : Nat) (cb : List Sample) : List Byte :=
  blockOf i (variantBytes par w j .F cb)

/-- One attempt of `C.SEARCH`: index, data and error count (43_rs_decoder.md R153). -/
def searchAttempt (par : Params) (i : Fin 6) (w : Window) (cb : List Sample) (j : Nat) : Option (Nat × List Byte × Nat) :=
  match rsAttempt par .uplink (variantBlock par i w j cb) with
  | some (d, e) => some (j, d, e)
  | none => none

/-- `C.SEARCH` (43_rs_decoder.md R153). -/
def searchBlock (par : Params) (i : Fin 6) (w : Window) (h : Nat) (cb : List Sample) : Option (Nat × List Byte × Nat) :=
  (searchOrder par.schedule.length h).findSome? (searchAttempt par i w cb)

/-! Trailing-zero repair. -/

/-- The window-0 current samples of block `i`, in block order (42_slicer_deinterleaver.md R143). -/
def blockSamples (i : Fin 6) (cb : List Sample) : List Sample :=
  (blockOf i (groups8 4416 ((windowTaps .nominal .F cb).map Tap.cur))).flatten

/-- The set `Z` of negative samples (43_rs_decoder.md R163). -/
def negatives (l : List Sample) : List Sample := l.filter fun c => c.toInt < 0

/-- The block-wide zero average, floor division (43_rs_decoder.md R163). -/
def zeroAverage (l : List Sample) : Int := ((negatives l).map BitVec.toInt).sum / (negatives l).length

/-- Near-zero: `|c| ≤ TZ_THRESHOLD` (43_rs_decoder.md R163). -/
def nearZero (par : Params) (c : Sample) : Bool := c.toInt.natAbs ≤ par.tzThreshold.toNat

/-- The length of the tail run of the 576 data bits (43_rs_decoder.md R163). -/
def tailRun (par : Params) (l : List Sample) : Nat := ((l.take 576).reverse.takeWhile (nearZero par)).length

/-- The repaired bits: the tail run's samples replaced by the average, all others sliced (43_rs_decoder.md R164). -/
def repairedBits (par : Params) (l : List Sample) : List Bool :=
  ((l.take (576 - tailRun par l)).map sliceBit) ++
  List.replicate (tailRun par l) (decide (0 ≤ zeroAverage l)) ++
  ((l.drop 576).map sliceBit)

/-- `C.TZ` (43_rs_decoder.md R164). -/
def tzRepair (par : Params) (i : Fin 6) (cb : List Sample) : Option (List Byte × Nat) :=
  let l := blockSamples i cb
  if (negatives l).isEmpty || tailRun par l == 0 then none
  else rsAttempt par .uplink (packBits (repairedBits par l))

/-! Fixed-bit repair. -/

/-- `force(y)` on the first eight bytes (43_rs_decoder.md R166). -/
def forceFixed (par : Params) (y : List Byte) : List Byte :=
  List.zipWith (fun b (mv : Byte × Byte) => (b &&& ~~~mv.1) ||| (mv.2 &&& mv.1)) (y.take 8)
    (par.fixedMask.toList.zip par.fixedValue.toList) ++ y.drop 8

/-- Bytes 0..5 replaced by a candidate's (43_rs_decoder.md R167). -/
def overlay (c y : List Byte) : List Byte := c ++ y.drop 6

/-- `C.FIXED` (43_rs_decoder.md R167, R168). -/
def fixedRepair (cfg : Cfg) (par : Params) (cb : List Sample) : Option (List Byte × Nat) :=
  let y := forceFixed par (variantBlock par 0 .nominal 0 cb)
  match rsAttempt par .uplink y with
  | some r => some r
  | none =>
    if cfg.acceptCandidates then cfg.candidates.findSome? fun c => rsAttempt par .uplink (overlay c y) else none

/-! Blocks and packets. -/

/-- An answer of a repair step, which leaves the hint as it was (43_rs_decoder.md R155). -/
def keepHint (h : Nat) : Option (List Byte × Nat) → Option (List Byte × Nat × Nat)
  | some (d, e) => some (d, e, h)
  | none => none

/-- Step 6 of `C.BLOCK`: block 0 only, unless disabled (43_rs_decoder.md R155). -/
def blockStep6 (cfg : Cfg) (par : Params) (i : Fin 6) (h : Nat) (cb : List Sample) : Option (List Byte × Nat × Nat) :=
  if i = 0 ∧ cfg.fixedBitsEn then keepHint h (fixedRepair cfg par cb) else none

/-- Step 5 of `C.BLOCK`, unless disabled (43_rs_decoder.md R155). -/
def blockStep5 (cfg : Cfg) (par : Params) (i : Fin 6) (h : Nat) (cb : List Sample) : Option (List Byte × Nat × Nat) :=
  if cfg.tzRepairEn then keepHint h (tzRepair par i cb) else none

/-- `C.BLOCK`: data, error count and new hint (43_rs_decoder.md R155). -/
def blockDecode (cfg : Cfg) (par : Params) (i : Fin 6) (h : Nat) (cb : List Sample) : Option (List Byte × Nat × Nat) :=
  match searchBlock par i .nominal h cb with
  | some (j, d, e) => some (d, e, j)
  | none =>
    match searchBlock par i .later h cb with
    | some (_, d, e) => some (d, e, h)
    | none =>
      match blockStep5 cfg par i h cb with
      | some r => some r
      | none => blockStep6 cfg par i h cb

/-- `BLOCK0_END` (43_rs_decoder.md R160). -/
def block0End (par : Params) (d : List Byte) : Block0End :=
  match par.block0End with
  | some e => e
  | none => Config.block0End d

/-- Blocks 1..5 marked not attempted, their data zero (43_rs_decoder.md R161). -/
def skipBlocks (c : Corr) : Corr :=
  { c with status := #v[c.status[0], .notAttempted, .notAttempted, .notAttempted, .notAttempted, .notAttempted],
           data := #v[c.data[0], List.replicate 72 0, List.replicate 72 0, List.replicate 72 0, List.replicate 72 0,
                      List.replicate 72 0] }

/-- Whether the shortcut is taken (43_rs_decoder.md R161). -/
def shortcutTaken (par : Params) (c : Corr) : Bool := block0End par c.data[0] == .ends

/-- A decoded block: status, data and hint (43_rs_decoder.md R156, R170). -/
def storeBlock (i : Fin 6) (d : List Byte) (e nh : Nat) (c : Corr) : Corr :=
  { c with status := c.status.set i (.decoded e), data := c.data.set i d, hint := nh }

/-- A block that could not be decoded: its status; hint and data stay (43_rs_decoder.md R156, R170). -/
def failBlock (i : Fin 6) (c : Corr) : Corr := { c with status := c.status.set i .uncorrectable }

/-- The loop of `C.FISB` over the blocks still to decode (43_rs_decoder.md R159, R169, R170). -/
def fisbBlocks (cfg : Cfg) (par : Params) : List (Fin 6) → Corr → Corr
  | [], c => c
  | i :: rest, c =>
    match blockDecode cfg par i c.hint (cbufOf c) with
    | some (d, e, nh) =>
      let c' := storeBlock i d e nh c
      if i = 0 ∧ shortcutTaken par c' then skipBlocks c' else fisbBlocks cfg par rest c'
    | none => fisbBlocks cfg par rest (failBlock i c)

/-- CORR at the start of a packet's decode, of either type (10_state.md R35; D21 of 92_eei_decisions.md). -/
def packetStart (c : Corr) : Corr := { c with hint := 0, status := Vector.replicate 6 .unset }

/-- The statuses, data and hint after all blocks (43_rs_decoder.md R170). -/
def fisbDecode (cfg : Cfg) (par : Params) (c : Corr) : Corr := fisbBlocks cfg par (List.finRange 6) (packetStart c)

/-- Success iff no status is 98, with the six blocks' data in order (43_rs_decoder.md R170, R171). -/
def fisbOutcome (c : Corr) : Completion :=
  if c.status.toList.contains .uncorrectable then .failure else .success c.data.toList.flatten

/-- `C.FISB` (43_rs_decoder.md R170). -/
def fisbStep (s : State) : State :=
  let s' := { s with corr := fisbDecode s.cfg s.par s.corr }
  let s'' := completeStep (fisbOutcome s'.corr) s'
  { s'' with corr := { s''.corr with ctl := .hdr } }

/-- The type code `d[0][7:3]` of decoded ADS-B data (43_rs_decoder.md R172). -/
def typeCode (d : List Byte) : BitVec 5 := (d.headD 0).extractLsb' 3 5

/-- The attempts on one ADS-B variant: long first, then short, each accepted only with its type code
(43_rs_decoder.md R172, R173). -/
def adsbAttempt (par : Params) (cb : List Sample) (wj : Window × Nat) : Option (List Byte × Nat) :=
  let ws := codewords (variantBytes par wj.1 wj.2 .A cb)
  match (rsAttempt par .long ws.1).filter fun r => typeCode r.1 != 0 with
  | some r => some r
  | none => (rsAttempt par .short ws.2).filter fun r => typeCode r.1 == 0

/-- The variants of `C.ADSB` in order: window 0, then window 1, each over `order(0)` (43_rs_decoder.md R173). -/
def adsbVariants (par : Params) : List (Window × Nat) :=
  [Window.nominal, Window.later].flatMap fun w => (searchOrder par.schedule.length 0).map fun j => (w, j)

/-- The search of `C.ADSB` (43_rs_decoder.md R173). -/
def adsbSearch (par : Params) (cb : List Sample) : Option (List Byte × Nat) :=
  (adsbVariants par).findSome? (adsbAttempt par cb)

/-- `C.ADSB` (43_rs_decoder.md R173, 10_state.md R35). -/
def adsbStep (s : State) : State :=
  let c := packetStart s.corr
  let s' := match adsbSearch s.par (cbufOf s.corr) with
    | some (d, e) =>
      completeStep (.success d) { s with corr := { c with astatus := .decoded e, adata := d } }
    | none => completeStep .failure { s with corr := { c with astatus := .uncorrectable } }
  { s' with corr := { s'.corr with ctl := .hdr } }

/-! Meanings. -/

/-- `C.RS` (43_rs_decoder.md R149): it returns the data and error count, or FAIL. -/
def execCRs (code : Code) (y : List Byte) (s : State) : Result :=
  corrRun s fun s => { s with ret := .rs (rsAttempt s.par code y) }

/-- `C.SEARCH` (43_rs_decoder.md R153): it returns FOUND or NOTFOUND. -/
def execCSearch (i : Fin 6) (w : Window) (h : Nat) (s : State) : Result :=
  if h ≤ s.par.schedule.length then
    corrRun s fun s => { s with ret := .found (searchBlock s.par i w h (cbufOf s.corr)) }
  else .refused .scheduleIndex

/-- `C.BLOCK` (43_rs_decoder.md R155): it returns data, error count and new hint, or FAIL. -/
def execCBlock (i : Fin 6) (h : Nat) (s : State) : Result :=
  if h ≤ s.par.schedule.length then
    corrRun s fun s => { s with ret := .block (blockDecode s.cfg s.par i h (cbufOf s.corr)) }
  else .refused .scheduleIndex

/-- `C.SHORTCUT` (43_rs_decoder.md R161): it returns whether it was taken. -/
def execCShortcut (s : State) : Result :=
  corrRun s fun s =>
    if shortcutTaken s.par s.corr then { s with corr := skipBlocks s.corr, ret := .taken true }
    else { s with ret := .taken false }

/-- `C.TZ` (43_rs_decoder.md R164): it returns data and error count, or FAIL. -/
def execCTz (i : Fin 6) (s : State) : Result :=
  corrRun s fun s => { s with ret := .rs (tzRepair s.par i (cbufOf s.corr)) }

/-- `C.FIXED` (43_rs_decoder.md R167): it returns data and error count, or FAIL. -/
def execCFixed (s : State) : Result :=
  corrRun s fun s => { s with ret := .rs (fixedRepair s.cfg s.par (cbufOf s.corr)) }

/-- `C.FISB` (43_rs_decoder.md R170). -/
def execCFisb (s : State) : Result := corrRun s fisbStep

/-- `C.ADSB` (43_rs_decoder.md R173). -/
def execCAdsb (s : State) : Result := corrRun s adsbStep

end Sys2Proof.Machine
end

