-- ==== Sys2Proof/Machine/Dispatch.lean ====
section
/-! DEFINITION. The meaning of each operation: one arm per constructor of `Instr`, in the order of
spec/opcode_table.json. -/

namespace Sys2Proof.Machine

def exec (i : Instr) (s : State) : Host.Outcome State Fault Refusal :=
  match i with
  | .dChunk sec usec len => Sys2Proof.Machine.execDChunk sec usec len s
  | .dIq i16 q16 => Sys2Proof.Machine.execDIq i16 q16 s
  | .dEof => Sys2Proof.Machine.execDEof s
  | .dDisc i16 q16 => Sys2Proof.Machine.execDDisc i16 q16 s
  | .dEnergy v => Sys2Proof.Machine.execDEnergy v s
  | .dGate => Sys2Proof.Machine.execDGate s
  | .dShift p v => Sys2Proof.Machine.execDShift p v s
  | .dProbe p => Sys2Proof.Machine.execDProbe p s
  | .dCorrelate t => Sys2Proof.Machine.execDCorrelate t s
  | .dArbitrate cand v => Sys2Proof.Machine.execDArbitrate cand v s
  | .dSelect c => Sys2Proof.Machine.execDSelect c s
  | .dCapture v => Sys2Proof.Machine.execDCapture v s
  | .dEmit => Sys2Proof.Machine.execDEmit s
  | .dStamp => Sys2Proof.Machine.execDStamp s
  | .dHeader c => Sys2Proof.Machine.execDHeader c s
  | .cHdrF h => Sys2Proof.Machine.execCHdrF h s
  | .cHdrA h => Sys2Proof.Machine.execCHdrA h s
  | .cSmp v => Sys2Proof.Machine.execCSmp v s
  | .cEof pos => Sys2Proof.Machine.execCEof pos s
  | .cSlice w t => Sys2Proof.Machine.execCSlice w t s
  | .cMix c m pct => Sys2Proof.Machine.execCMix c m pct s
  | .cVariant w j t => Sys2Proof.Machine.execCVariant w j t s
  | .cPack bits => Sys2Proof.Machine.execCPack bits s
  | .cDeint y => Sys2Proof.Machine.execCDeint y s
  | .cAbytes z => Sys2Proof.Machine.execCAbytes z s
  | .cRs code y => Sys2Proof.Machine.execCRs code y s
  | .cSearch k w h => Sys2Proof.Machine.execCSearch k w h s
  | .cBlock k h => Sys2Proof.Machine.execCBlock k h s
  | .cShortcut => Sys2Proof.Machine.execCShortcut s
  | .cTz k => Sys2Proof.Machine.execCTz k s
  | .cFixed => Sys2Proof.Machine.execCFixed s
  | .cFisb => Sys2Proof.Machine.execCFisb s
  | .cAdsb => Sys2Proof.Machine.execCAdsb s
  | .cComplete o => Sys2Proof.Machine.execCComplete o s
  | .cLine d => Sys2Proof.Machine.execCLine d s
  | .cFailline => Sys2Proof.Machine.execCFailline s
  | .cCapture k => Sys2Proof.Machine.execCCapture k s

end Sys2Proof.Machine
end

