-- ==== Sys2Proof/WellFormed.lean ====
section
/-! DEFINITION. Which operands an operation can have (the operand ranges of its rule). Nothing here says what an
operation does. -/

namespace Sys2Proof

/-- The percents of 43_rs_decoder.md R151. -/
def pctOk (p : Nat) : Bool := p % 10 == 0 && 10 ≤ p && p ≤ 90

/-- A chunk tag within the host's duty (30_encoding.md R75); the core does not check it (log 20). -/
def tagOk (bufPairs sec usec len : Nat) : Bool :=
  Machine.timeInRange sec usec && 1 ≤ len && len ≤ 4 * bufPairs

/-- The value ranges of a candidate (10_state.md R30; the time fields of a header, 30_encoding.md R76). -/
def Cand.ok (c : Cand) : Bool := c.err ≤ 4 && Machine.timeInRange c.sec c.usec

/-- 36 bytes whose type byte is that of `t` (30_encoding.md R76). -/
def headerOf (t : PType) (h : List Byte) : Bool := h.length == 36 && h[18]? == some (Machine.typeByte t)

/-- The payload lengths of 44_output.md R179. -/
def payloadOk (d : List Byte) : Bool := d.length == 432 || d.length == 34 || d.length == 18

/-- Well-formedness of an operation's operands, given the parameters that bound them. -/
def Instr.wellFormed (par : Params) : Instr → Bool
  | .dChunk sec usec len => tagOk par.bufPairs sec usec len
  | .dIq _ _ => true
  | .dEof => true
  | .dDisc _ _ => true
  | .dEnergy _ => true
  | .dGate => true
  | .dShift _ _ => true
  | .dProbe _ => true
  | .dCorrelate _ => true
  | .dArbitrate cand _ => cand.all Cand.ok
  | .dSelect c => c.ok
  | .dCapture _ => true
  | .dEmit => true
  | .dStamp => true
  | .dHeader c => c.ok
  | .cHdrF h => headerOf .F h
  | .cHdrA h => headerOf .A h
  | .cSmp _ => true
  | .cEof _ => true
  | .cSlice _ _ => true
  | .cMix _ _ pct => pctOk pct
  | .cVariant _ j _ => j ≤ par.schedule.length
  | .cPack bits => bits.length % 8 == 0
  | .cDeint y => y.length == 552
  | .cAbytes z => z.length == 48
  | .cRs code y => y.length == Machine.codeN code
  | .cSearch _ _ h => h ≤ par.schedule.length
  | .cBlock _ h => h ≤ par.schedule.length
  | .cShortcut => true
  | .cTz _ => true
  | .cFixed => true
  | .cFisb => true
  | .cAdsb => true
  | .cComplete (.success d) => payloadOk d
  | .cComplete .failure => true
  | .cLine d => payloadOk d
  | .cFailline => true
  | .cCapture _ => true

end Sys2Proof
end

