-- ==== Sys2Proof/Decode.lean ====
section
/-! DEFINITION. The decoder and the encoder of the token operations (30_encoding.md R73 to R79). An internal operation
has no encoding of its own (R73), so `encode` gives it none. -/

namespace Sys2Proof

/-- One token of an agent's input, as the agent's control state delimits it: a chunk tag, an IQ pair or an EOF on `IN`;
36 header bytes, a sample word or an EOF on CORR's input (30_encoding.md R73 to R79). -/
inductive Token where
  | tag (sec usec len : Nat)
  | pair (bytes : List Byte)
  | inEof
  | header (bytes : List Byte)
  | sample (bytes : List Byte)
  | corrEof (pos : EofPos)
  deriving DecidableEq, Repr

/-- Why a token is no operation. -/
inductive Reject where
  /-- not the 4 bytes of an IQ pair (40_demodulator.md R108) -/
  | shortPair
  /-- not 36 bytes (60_exceptions.md R194) -/
  | headerLength
  /-- type byte neither `F` nor `A` (60_exceptions.md R194) -/
  | headerType
  /-- not the 4 bytes of a sample word (42_slicer_deinterleaver.md R135) -/
  | shortSample
  deriving DecidableEq, Repr

/-- The operation of a token (30_encoding.md R73, R74, R75, R76, R78); total. A chunk tag is `D.CHUNK` whatever its
values: the core does not check the host's duty (60_exceptions.md R207; log 20). -/
def decode : Token → Except Reject Instr
  | .tag sec usec len => .ok (.dChunk sec usec len)
  | .pair [b0, b1, b2, b3] => .ok (.dIq (Machine.le16 b0 b1) (Machine.le16 b2 b3))
  | .pair _ => .error .shortPair
  | .inEof => .ok .dEof
  | .header h =>
    if h.length = 36 then
      match Machine.typeOfByte (h.getD 18 0) with
      | some .F => .ok (.cHdrF h)
      | some .A => .ok (.cHdrA h)
      | none => .error .headerType
    else .error .headerLength
  | .sample [b0, b1, b2, b3] => .ok (.cSmp (Machine.le32 b0 b1 b2 b3))
  | .sample _ => .error .shortSample
  | .corrEof pos => .ok (.cEof pos)

/-- The token of a token operation; `none` for an internal operation (30_encoding.md R73). -/
def encode : Instr → Option Token
  | .dChunk sec usec len => some (.tag sec usec len)
  | .dIq i q => some (.pair (Machine.halfBytes i ++ Machine.halfBytes q))
  | .dEof => some .inEof
  | .cHdrF h => some (.header h)
  | .cHdrA h => some (.header h)
  | .cSmp v => some (.sample (Machine.sampleBytes v))
  | .cEof pos => some (.corrEof pos)
  | .dDisc _ _ => none
  | .dEnergy _ => none
  | .dGate => none
  | .dShift _ _ => none
  | .dProbe _ => none
  | .dCorrelate _ => none
  | .dArbitrate _ _ => none
  | .dSelect _ => none
  | .dCapture _ => none
  | .dEmit => none
  | .dStamp => none
  | .dHeader _ => none
  | .cSlice _ _ => none
  | .cMix _ _ _ => none
  | .cVariant _ _ _ => none
  | .cPack _ => none
  | .cDeint _ => none
  | .cAbytes _ => none
  | .cRs _ _ => none
  | .cSearch _ _ _ => none
  | .cBlock _ _ => none
  | .cShortcut => none
  | .cTz _ => none
  | .cFixed => none
  | .cFisb => none
  | .cAdsb => none
  | .cComplete _ => none
  | .cLine _ => none
  | .cFailline => none
  | .cCapture _ => none

/-- 36 header bytes of which only the type byte, byte 18, is given: what the 8 bits that the rows `C.HDR.F` and
`C.HDR.A` of spec/opcode_table.json number stand for ("match and mask apply to byte 18"). Every other bit is 0. -/
def typeByteHeader (w : Nat) : List Byte :=
  List.replicate 18 0 ++ Machine.leBytes 1 w ++ List.replicate 17 0

/-- The token that a word numbered as spec/opcode_table.json numbers it stands for: 32 bits are an IQ pair (the core is
at reset, where no sample word can come; log 18), 8 bits a header's type byte, 288 bits a whole header. -/
def tableToken (nbits w : Nat) : Option Token :=
  if nbits = 32 then some (.pair (Machine.leBytes 4 w))
  else if nbits = 8 then some (.header (typeByteHeader w))
  else if nbits = 288 then some (.header (Machine.leBytes 36 w))
  else none

/-- The instruction the decoder reads from an instruction whose bits are `w`, as spec/opcode_table.json numbers them. -/
def decodeTableWord (nbits w : Nat) : Option Instr :=
  match tableToken nbits w with
  | some tk => (decode tk).toOption
  | none => none

end Sys2Proof
end

