-- ==== Sys2Proof/Machine/Fetch.lean ====
section
/-! DEFINITION. How an agent comes to its next operation (30_encoding.md R73): the map from (agent, control state, next
token) to operation, the reads that block (00_scope.md R14), the faults a token raises before it is an operation
(60_exceptions.md R193, R194, R198), and the transfers of a write in progress (20_memory.md R62). -/

namespace Sys2Proof.Machine

/-- What an agent does next. -/
inductive Move where
  /-- run an operation in the state that has consumed its token -/
  | run (i : Instr) (s : State)
  /-- the move is complete: a transfer, a partial read or a fault taken -/
  | done (s : State)
  /-- blocked at a read or a write (70_reset_and_hazards.md R230) -/
  | blocked
  /-- halted (60_exceptions.md R190), or not part of this run -/
  | halted
  deriving DecidableEq, Repr

/-- A transfer, or blocked. -/
def ofTransfer (o : Option State) : Move :=
  match o with
  | some s => .done s
  | none => .blocked

/-- What becomes of a token that decodes to no operation: each rejection's fault, taken by the agent that read it
(60_exceptions.md R193, R194, R197). -/
def takeReject (r : Reject) (s : State) : Move :=
  match r with
  | .shortPair => .done (raiseFault .demod .shortRead s)
  | .headerLength => .done (raiseFault .corr .hdrLen s)
  | .headerType => .done (raiseFault .corr .hdrType s)
  | .shortSample => .done (raiseFault .corr .eofMidFrame s)

/-- Decodes a token and runs its operation in `s`, which has consumed it. -/
def runToken (tk : Token) (s : State) : Move :=
  match decode tk with
  | .ok i => .run i s
  | .error r => takeReject r s

/-- DEMOD waiting for `IN`: the next pair of the current chunk, else the host's next event
(40_demodulator.md R103, R107, R108; 41_sync_detector.md R123; 60_exceptions.md R198). -/
def demodRead (s : State) : Move :=
  match s.demod.ibuf with
  | [] =>
    match s.io.inq with
    | [] => .blocked
    | .chunk sec usec bytes :: rest =>
      runToken (.tag sec usec bytes.length)
        { s with demod := { s.demod with ibuf := bytes }, io := { s.io with inq := rest } }
    | .eof :: rest => runToken .inEof { s with io := { s.io with inq := rest } }
    | .error :: rest => .done (raiseFault .demod .read { s with io := { s.io with inq := rest } })
  | b :: bs =>
    runToken (.pair ((b :: bs).take 4)) { s with demod := { s.demod with ibuf := (b :: bs).drop 4 } }

/-- DEMOD's next move; `limit` bounds a transfer. A DEMOD that is not part of the run never moves
(70_reset_and_hazards.md R214). -/
def demodMove (limit : Option Nat) (s : State) : Move :=
  if s.io.alone || !s.demod.ctl.live then .halted
  else if s.io.chWr.isEmpty then demodRead s
  else ofTransfer (pumpCh limit s)

/-- The unread bytes of CORR's input (10_state.md R37). -/
def corrInput (s : State) : List Byte := if s.io.alone then s.io.cin else s.io.ch

/-- CORR's input with `k` bytes consumed. -/
def dropInput (k : Nat) (s : State) : State :=
  if s.io.alone then { s with io := { s.io with cin := s.io.cin.drop k } }
  else { s with io := { s.io with ch := s.io.ch.drop k } }

/-- What follows the unread bytes: a closed `CH` ends in EOF, an open one blocks (20_memory.md R63); `CH` itself never
signals an error (60_exceptions.md R198). -/
def corrInputEnd (s : State) : StreamEnd :=
  if s.io.alone then s.io.cinEnd else if s.io.chClosed then .eof else .more

/-- CORR's `ReadIn(k)` for one token: `mk` makes the token of `k` bytes; `onEof` is what an EOF after the bytes already
taken does. A read that cannot be completed yet takes what is there and blocks (00_scope.md R14; log 24). -/
def corrRead (k : Nat) (mk : List Byte → Token) (onEof : State → Move) (s : State) : Move :=
  let need := k - s.corr.rbuf.length
  let inp := corrInput s
  if need ≤ inp.length then
    let s' := dropInput need s
    runToken (mk (s.corr.rbuf ++ inp.take need)) { s' with corr := { s'.corr with rbuf := [] } }
  else if inp.isEmpty then
    match corrInputEnd s with
    | .more => .blocked
    | .eof => onEof s
    | .error => .done (raiseFault .corr .read s)
  else
    let s' := dropInput inp.length s
    .done { s' with corr := { s'.corr with rbuf := s.corr.rbuf ++ inp } }

/-- EOF while a header is awaited: at a record boundary a clean end, inside a header `F_HDR_LEN`
(42_slicer_deinterleaver.md R133). -/
def headerEof (s : State) : Move :=
  if s.corr.rbuf.isEmpty then runToken (.corrEof .boundary) s else runToken (.header s.corr.rbuf) s

/-- EOF inside a frame's samples (42_slicer_deinterleaver.md R134). -/
def sampleEof (s : State) : Move := runToken (.corrEof .midframe) s

/-- CORR's next move by `CSTATE` (30_encoding.md R73); `limit` bounds a transfer. -/
def corrMove (limit : Option Nat) (s : State) : Move :=
  if !s.corr.ctl.live then .halted
  else if s.io.capWr.isEmpty && s.io.outWr.isEmpty then
    match s.corr.ctl with
    | .hdr => corrRead 36 .header headerEof s
    | .samples => corrRead 4 .sample sampleEof s
    | .decode =>
      match s.corr.htype with
      | .F => .run .cFisb s
      | .A => .run .cAdsb s
    | _ => .halted
  else ofTransfer (pumpCorr limit s)

/-- An agent's next move. -/
def agentMove (a : Agent) (limit : Option Nat) (s : State) : Move :=
  match a with
  | .demod => demodMove limit s
  | .corr => corrMove limit s

/-- An action of the host on a port (60_exceptions.md R196, 20_memory.md R63). -/
def hostPort (p : Port) (refuse stall : Option Bool) (io : Io) : Io :=
  match p with
  | .out => { io with outRefused := refuse.getD io.outRefused, outStall := stall.getD io.outStall }
  | .cap => { io with capRefused := refuse.getD io.capRefused, capStall := stall.getD io.capStall }

/-- The state in which the next move reads the token `tk` as the first bytes of its input: the host has delivered it,
and lets the agent that reads it move next (log 19). -/
def placeToken (tk : Token) (s : State) : State :=
  match tk with
  | .pair bytes =>
    { s with demod := { s.demod with ibuf := bytes ++ s.demod.ibuf.drop bytes.length }, script := [.run .demod] }
  | .header bytes =>
    let s' := if s.io.alone then { s with io := { s.io with cin := bytes ++ s.io.cin.drop bytes.length } }
      else { s with io := { s.io with ch := bytes ++ s.io.ch.drop bytes.length } }
    { s' with script := [.run .corr] }
  | _ => s

end Sys2Proof.Machine
end

