-- ==== Sys2Proof/Machine/Step.lean ====
section
/-! DEFINITION. One step of the core: the host's next action, or, when the host has none, the next move of DEMOD, else
of CORR (20_memory.md R67; log 1). -/

namespace Sys2Proof.Machine

/-- The outcome of a move; `idle` is the state of an agent that does nothing. -/
def settle (idle : State) (m : Move) : Host.Outcome State Fault Refusal :=
  match m with
  | .run i s => exec i s
  | .done s => .next s
  | .blocked => .next idle
  | .halted => .next idle

/-- A step without an action of the host: DEMOD moves if it can, else CORR; a core whose agents are all blocked or
halted waits (log 23), and one whose agents have all halted takes no further step. -/
def freeStep (s : State) : Host.Outcome State Fault Refusal :=
  match demodMove none s with
  | .blocked => settle s (corrMove none s)
  | .halted =>
    match corrMove none s with
    | .halted => .fault .coreHalted
    | m => settle s m
  | m => settle s m

/-- One step of the core. -/
def step (s : State) : Host.Outcome State Fault Refusal :=
  match s.script with
  | [] => freeStep s
  | .run a :: rest => settle { s with script := rest } (agentMove a none { s with script := rest })
  | .push a k :: rest => settle { s with script := rest } (agentMove a (some k) { s with script := rest })
  | .abort a :: rest => .next (abortAgent a { s with script := rest })
  | .refuse p :: rest => .next { s with script := rest, io := hostPort p (some true) none s.io }
  | .stall p on :: rest => .next { s with script := rest, io := hostPort p none (some on) s.io }

/-- `s` with the instruction of these bits (numbered as spec/opcode_table.json numbers them) delivered as the next token
of the agent that reads it, and that agent moving next. -/
def State.withFetchWord (s : State) (nbits w : Nat) : State :=
  match tableToken nbits w with
  | some tk => placeToken tk s
  | none => s

end Sys2Proof.Machine
end

