-- ==== Sys2Proof/Safety.lean ====
section
/-! DEFINITION. The terms the statements use: live agents, the invariants of DEMOD and CORR, the record structure of the
byte stream between them. -/

namespace Sys2Proof.Machine

/-- DEMOD has not halted (10_state.md R29). -/
def DemodLive (s : State) : Prop := s.demod.ctl.live = true

/-- CORR has not halted (10_state.md R33). -/
def CorrLive (s : State) : Prop := s.corr.ctl.live = true

/-- The largest magnitude of a slice sample (40_demodulator.md R99). -/
def maxMagnitude : Nat := 2147450880

/-- The sum of the magnitudes of the window's samples (10_state.md R26). -/
def windowTotal (d : Demod) : Nat := (d.ew.toList.map fun v => v.toInt.natAbs).sum

/-- The energy window: every sample within the discriminator's range, and `SUM` the sum of the magnitudes
(10_state.md R26, 40_demodulator.md R99). -/
def WindowInv (d : Demod) : Prop :=
  (∀ v ∈ d.ew.toList, v.toInt.natAbs ≤ maxMagnitude) ∧ d.sum.toNat = windowTotal d

/-- `LEVEL` and `GATE` are those of `SUM` (10_state.md R27). -/
def GateInv (cfg : Cfg) (d : Demod) : Prop :=
  d.level.toNat = d.sum.toNat / 72 ∧ (d.gate = true ↔ cfg.levelThreshold.toNat < d.level.toNat)

/-- The frame capture by control state: no sample held while searching; a pending candidate is the match of the pair
before, within its ranges; while a frame is captured both phase registers are clear and the frame is not full
(10_state.md R30, R31; 40_demodulator.md R102, R105). -/
def FrameInv (d : Demod) : Prop :=
  d.frameRev.length = d.fcnt ∧
  match d.ctl with
  | .search => d.fcnt = 0
  | .pending p => d.fcnt = 0 ∧ p.ok = true ∧ p.idx + 1 = d.n
  | .emitting => d.flen = frameLen d.ftype ∧ d.fcnt < d.flen ∧ d.ra = 0 ∧ d.rb = 0 ∧ d.fhdr.length = 36
  | _ => True

/-- DEMOD's invariant. -/
def DemodInv (s : State) : Prop := WindowInv s.demod ∧ GateInv s.cfg s.demod ∧ FrameInv s.demod

/-- CORR's intake by control state: as many samples held as counted; a read in progress holds less than its token; the
frame's length is that of the header's type (10_state.md R34, 20_memory.md R60). -/
def IntakeInv (c : Corr) : Prop :=
  c.cbufRev.length = c.ccnt ∧
  match c.ctl with
  | .hdr => c.rbuf.length < 36
  | .samples => c.rbuf.length < 4 ∧ c.ccnt < c.clen ∧ c.clen = frameLen c.htype ∧ c.hbuf.length = 36
  | .decode => c.rbuf = [] ∧ c.ccnt = c.clen ∧ c.clen = frameLen c.htype ∧ c.hbuf.length = 36
  | _ => True

/-- `EXIT` says how an agent ended: `NONE` while it runs, 0 after a clean end, `NONZERO` after a fault or an abort
(60_exceptions.md R201). -/
def ExitInv (s : State) : Prop :=
  (match s.demod.ctl with
   | .ended => s.demod.exit = .zero
   | .faulted _ => s.demod.exit = .nonzero
   | .aborted => s.demod.exit = .nonzero
   | _ => s.demod.exit = .none) ∧
  (match s.corr.ctl with
   | .ended => s.corr.exit = .zero
   | .faulted _ => s.corr.exit = .nonzero
   | .aborted => s.corr.exit = .nonzero
   | _ => s.corr.exit = .none)

/-- A header that `C.HDR` accepts, of type `t` (30_encoding.md R76, R84). -/
def GoodHeader (t : PType) (h : List Byte) : Prop :=
  h.length = 36 ∧ h[18]? = some (typeByte t) ∧ headerWellformed h = true

/-- Whole frame records, back to back (20_memory.md R59, R60). -/
inductive WholeRecords : List Byte → Prop where
  | nil : WholeRecords []
  | cons (t : PType) (h body rest : List Byte) (hh : GoodHeader t h) (hb : body.length = 4 * frameLen t)
      (hr : WholeRecords rest) : WholeRecords (h ++ body ++ rest)

/-- What CORR has still to read, from where it stands, is whole records: at a record boundary, or after the rest of the
present record's samples (20_memory.md R60, R62). Nothing is said of a CORR that has halted. -/
def StreamInv (s : State) : Prop :=
  match s.corr.ctl with
  | .hdr => WholeRecords (s.corr.rbuf ++ s.io.ch ++ s.io.chWr)
  | .samples => s.corr.ccnt < s.corr.clen ∧ ∃ body rest,
      s.corr.rbuf ++ s.io.ch ++ s.io.chWr = body ++ rest ∧ body.length = 4 * (s.corr.clen - s.corr.ccnt) ∧
      WholeRecords rest
  | .decode => s.corr.rbuf = [] ∧ WholeRecords (s.io.ch ++ s.io.chWr)
  | _ => True

/-- DEMOD's header, while a frame is captured, is one that `C.HDR` accepts for the frame's type (41_sync_detector.md
R126). -/
def HeaderInv (d : Demod) : Prop := d.ctl = .emitting → GoodHeader d.ftype d.fhdr

/-- A framing fault of CORR: of the header, or of a frame cut short (60_exceptions.md R194, R197). -/
def framingFault : FCode → Bool
  | .hdrLen => true
  | .hdrType => true
  | .hdrFormat => true
  | .eofMidFrame => true
  | _ => false

/-- CORR is fed by DEMOD and stands in a stream of whole records; a closed or broken `CH` belongs to an agent that has
halted, and an agent that has halted writes nothing more; CORR has taken no framing fault (60_exceptions.md R197, R202). -/
def FramingInv (s : State) : Prop :=
  s.io.alone = false ∧ StreamInv s ∧ HeaderInv s.demod ∧ (DemodLive s ∨ s.io.chWr = []) ∧
  (s.io.chClosed = true → ¬DemodLive s) ∧ (s.io.chBroken = true → ¬CorrLive s) ∧
  ∀ f, s.corr.ctl = .faulted f → framingFault f = false

/-- CORR's state once a token of `k` bytes has been read and the host's script is `sc` (00_scope.md R14). -/
def afterRead (k : Nat) (sc : List HostAct) (s : State) : State :=
  let rest := (corrInput s).drop (k - s.corr.rbuf.length)
  { s with script := sc, corr := { s.corr with rbuf := [] },
           io := if s.io.alone then { s.io with cin := rest } else { s.io with ch := rest } }

/-- CORR reads: it has not halted and writes nothing (20_memory.md R62). -/
def CorrReads (c : CState) (s : State) : Prop := s.corr.ctl = c ∧ s.io.capWr = [] ∧ s.io.outWr = []

/-- DEMOD moves next, by the host's script or by default; `sc` is the script after it (20_memory.md R67; log 1). -/
def DemodMoves (sc : List HostAct) (s : State) : Prop :=
  s.script = .run .demod :: sc ∨ (s.script = [] ∧ sc = [])

/-- DEMOD reads: it has not halted, is part of the run and writes nothing (20_memory.md R62). -/
def DemodReads (s : State) : Prop := s.demod.ctl.live = true ∧ s.io.alone = false ∧ s.io.chWr = []

/-- CORR moves next, by the host's script or because DEMOD cannot; `sc` is the script after it (20_memory.md R67; log 1). -/
def CorrMoves (sc : List HostAct) (s : State) : Prop :=
  s.script = .run .corr :: sc ∨
  (s.script = [] ∧ sc = [] ∧ (demodMove none s = .blocked ∨ demodMove none s = .halted))

/-- The host lets an agent move next; when that move is a transfer it hands over at most `limit` bytes, if there is a
limit. `sc` is the script after it (20_memory.md R63; log 1). -/
def HostRuns (a : Agent) (limit : Option Nat) (sc : List HostAct) (s : State) : Prop :=
  match limit with
  | none => s.script = .run a :: sc
  | some k => s.script = .push a k :: sc

/-- The per-pair step of a pair taken outside a frame, up to arbitration: the sample `v` is demodulated, entered into the
energy window and gated, its bit is shifted into the register of the parity of `n`, and that register is probed iff the
gate is then open; `cand` is the pair's own candidate and `u` the state reached (40_demodulator.md R103, R104). -/
def PairProbed (i q : Half) (s u : State) (v : Sample) (cand : Option Cand) : Prop :=
  ∃ s1 s2 s3 s4 ph, ph = (if s.demod.n % 2 = 0 then Phase.A else Phase.B) ∧
    exec (.dDisc i q) s = .next s1 ∧ s1.ret = .sample v ∧ exec (.dEnergy v) s1 = .next s2 ∧
    exec .dGate s2 = .next s3 ∧ exec (.dShift ph v) s3 = .next s4 ∧
    (s4.demod.gate = true → exec (.dProbe ph) s4 = .next u ∧ u.ret = .cand cand) ∧
    (s4.demod.gate = false → u = s4 ∧ cand = none)

/-- An attempt of `C.ADSB` that is accepted: the long word of variant `j` of window `w` with a type code other than 0, or
the short word with type code 0 (43_rs_decoder.md R172, R173). -/
def AdsbAccepted (par : Params) (cb : List Sample) (w : Window) (j : Nat) (code : Code) (d : List Byte) (e : Nat) : Prop :=
  match code with
  | .long => rsAttempt par .long ((packBits (variantBits par w j .A cb)).take 48) = some (d, e) ∧ typeCode d ≠ 0
  | .short => rsAttempt par .short ((packBits (variantBits par w j .A cb)).take 30) = some (d, e) ∧ typeCode d = 0
  | .uplink => False

/-- The order of the attempts of `C.ADSB`: window 0 before window 1, then by index, then the long word before the short
(43_rs_decoder.md R173). -/
def AdsbBefore (w' : Window) (j' : Nat) (code' : Code) (w : Window) (j : Nat) (code : Code) : Prop :=
  windowOffset w' < windowOffset w ∨ (w' = w ∧ (j' < j ∨ (j' = j ∧ code' = .long ∧ code = .short)))

/-- The operation `C.HDR` for a packet type (spec/opcode_table.json splits it by type byte). -/
def hdrOp (t : PType) (h : List Byte) : Instr :=
  match t with
  | .F => .cHdrF h
  | .A => .cHdrA h

/-- The number of positions at which two words of `n` bytes differ (43_rs_decoder.md R147). -/
def wrongBytes (n : Nat) (c y : List Byte) : Nat := ((List.range n).filter fun p => c.getD p 0 != y.getD p 0).length

/-- The current sample (window 0) of data or parity bit `p` of block `i`, from a received frame
(42_slicer_deinterleaver.md R143). -/
def blockSample (i : Fin 6) (cb : List Sample) (p : Nat) : Sample :=
  cb.getD (2 * (8 * (6 * (p / 8) + i.val) + p % 8) + 1) 0

/-- A control state without the time of a pending candidate. -/
def eraseTime : DState → DState
  | .pending p => .pending { p with sec := 0, usec := 0 }
  | d => d

/-- Two DEMODs that agree in all but the chunk tag and the times taken from it: the tag, a pending candidate's time, and
the time field (bytes 0..16) of the header (70_reset_and_hazards.md R227). -/
def SameButTime (d d' : Demod) : Prop :=
  ({ d with csec := 0, cusec := 0, cidx := 0, fhdr := d.fhdr.drop 17, ctl := eraseTime d.ctl } : Demod) =
    { d' with csec := 0, cusec := 0, cidx := 0, fhdr := d'.fhdr.drop 17, ctl := eraseTime d'.ctl }

/-- A register that has had at most `k` bits shifted in since its last clear: every bit from `k` up is 0
(70_reset_and_hazards.md R223). -/
def BitsSinceClear (k : Nat) (r : Word64) : Prop := ∀ i, k ≤ i → r.getLsbD i = false

end Sys2Proof.Machine

namespace Sys2Proof

/-- The agent an operation belongs to (00_scope.md R6, 30_encoding.md R73). -/
def Instr.agent : Instr → Agent
  | .dChunk _ _ _ => .demod
  | .dIq _ _ => .demod
  | .dEof => .demod
  | .dDisc _ _ => .demod
  | .dEnergy _ => .demod
  | .dGate => .demod
  | .dShift _ _ => .demod
  | .dProbe _ => .demod
  | .dCorrelate _ => .demod
  | .dArbitrate _ _ => .demod
  | .dSelect _ => .demod
  | .dCapture _ => .demod
  | .dEmit => .demod
  | .dStamp => .demod
  | .dHeader _ => .demod
  | .cHdrF _ => .corr
  | .cHdrA _ => .corr
  | .cSmp _ => .corr
  | .cEof _ => .corr
  | .cSlice _ _ => .corr
  | .cMix _ _ _ => .corr
  | .cVariant _ _ _ => .corr
  | .cPack _ => .corr
  | .cDeint _ => .corr
  | .cAbytes _ => .corr
  | .cRs _ _ => .corr
  | .cSearch _ _ _ => .corr
  | .cBlock _ _ => .corr
  | .cShortcut => .corr
  | .cTz _ => .corr
  | .cFixed => .corr
  | .cFisb => .corr
  | .cAdsb => .corr
  | .cComplete _ => .corr
  | .cLine _ => .corr
  | .cFailline => .corr
  | .cCapture _ => .corr

/-- The schedule index of an operation that has one is at most `N` (43_rs_decoder.md R152). -/
def Instr.indexOk (par : Params) : Instr → Bool
  | .cVariant _ j _ => j ≤ par.schedule.length
  | .cSearch _ _ h => h ≤ par.schedule.length
  | .cBlock _ h => h ≤ par.schedule.length
  | _ => true

end Sys2Proof
end

