-- ==== Sys2Proof/Certificates/Slice0/Obligations.lean ====
section
/-! DEFINITION. The statements about the model, each citing its rules of spec/ (OBLIGATIONS.json says the same in words). -/

open Sys2Proof Sys2Proof.Machine

/-! ## Fetch, decoding, encoding -/

/-- R103, R73: four bytes of the current chunk that decode to an operation are run by DEMOD's next move, and nothing else
happens in that step. -/
def Obligations.StepRunsDecodedPair : Prop :=
  ∀ (s : State) (sc : List HostAct) (bytes rest : List Byte) (i : Instr), DemodMoves sc s → DemodReads s →
    s.demod.ibuf = bytes ++ rest → bytes.length = 4 → decode (.pair bytes) = .ok i →
    step s = exec i { s with script := sc, demod := { s.demod with ibuf := rest } }

/-- R73, R123, R107, R193, R198: with the current chunk used up, DEMOD takes the host's next event: a chunk runs `D.CHUNK`
with the chunk's bytes in the input buffer, whatever its tag and length (one outside R56 by the model's choice, log 20), EOF
runs `D.EOF`, an error is `F_READ`; left-over bytes of a chunk are `F_SHORT_READ`. R14, R230: with no event on `IN` DEMOD
waits: its state survives every step; the step the host's script gives it changes nothing (log 23), and without a script
the step is CORR's move. -/
def Obligations.StepRunsDemodEvents : Prop :=
  ∀ (s : State) (sc : List HostAct), DemodMoves sc s → DemodReads s →
    (s.demod.ibuf = [] →
      (∀ sec usec bytes rest, s.io.inq = .chunk sec usec bytes :: rest →
        step s = exec (.dChunk sec usec bytes.length)
          { s with script := sc, demod := { s.demod with ibuf := bytes }, io := { s.io with inq := rest } }) ∧
      (∀ rest, s.io.inq = .eof :: rest →
        step s = exec .dEof { s with script := sc, io := { s.io with inq := rest } }) ∧
      (∀ rest, s.io.inq = .error :: rest →
        step s = .next (raiseFault .demod .read { s with script := sc, io := { s.io with inq := rest } })) ∧
      (s.io.inq = [] →
        (∀ t, step s = .next t → t.demod = s.demod) ∧
        (s.script ≠ [] → step s = .next { s with script := sc }) ∧
        (s.script = [] → step s = settle s (corrMove none s)))) ∧
    (1 ≤ s.demod.ibuf.length → s.demod.ibuf.length ≤ 3 →
      step s = .next (raiseFault .demod .shortRead { s with script := sc, demod := { s.demod with ibuf := [] } }))

/-- R73, R133, R134: when CORR moves and its input holds a whole token that decodes to an operation, the step runs that
operation in the state that has consumed the token. -/
def Obligations.StepRunsDecodedCorrToken : Prop :=
  ∀ (s : State) (sc : List HostAct) (i : Instr), CorrMoves sc s →
    (CorrReads .hdr s → s.corr.rbuf.length ≤ 36 → 36 ≤ (s.corr.rbuf ++ corrInput s).length →
      decode (.header ((s.corr.rbuf ++ corrInput s).take 36)) = .ok i →
      step s = exec i (afterRead 36 sc s)) ∧
    (CorrReads .samples s → s.corr.rbuf.length ≤ 4 → 4 ≤ (s.corr.rbuf ++ corrInput s).length →
      decode (.sample ((s.corr.rbuf ++ corrInput s).take 4)) = .ok i →
      step s = exec i (afterRead 4 sc s))

/-- R73, R135, R194, R197, R198: with nothing left of an ended input, CORR's step is `C.EOF` at a record boundary or inside
the samples, and `F_HDR_LEN` inside a header; of a CORR that runs alone, an input that signals an error where a header or a
sample is read is `F_READ`; in `DECODE` the step is the decode of the header's type. R14, R63, R230: a read that cannot be
completed waits: with an empty input still open the step changes nothing (log 23), and with fewer bytes than the token
needs it takes them into `rbuf` and waits on (log 24). -/
def Obligations.StepRunsCorrEvents : Prop :=
  ∀ (s : State) (sc : List HostAct), CorrMoves sc s →
    (corrInput s = [] → corrInputEnd s = .eof →
      (CorrReads .hdr s → s.corr.rbuf = [] → step s = exec (.cEof .boundary) { s with script := sc }) ∧
      (CorrReads .hdr s → 1 ≤ s.corr.rbuf.length → s.corr.rbuf.length < 36 →
        step s = .next (raiseFault .corr .hdrLen { s with script := sc })) ∧
      (CorrReads .samples s → s.corr.rbuf.length < 4 → step s = exec (.cEof .midframe) { s with script := sc })) ∧
    (s.io.alone = true → s.io.cin = [] → s.io.cinEnd = .error →
      (CorrReads .hdr s ∧ s.corr.rbuf.length < 36 ∨ CorrReads .samples s ∧ s.corr.rbuf.length < 4) →
      step s = .next (raiseFault .corr .read { s with script := sc })) ∧
    (corrInput s = [] → corrInputEnd s = .more →
      (CorrReads .hdr s ∧ s.corr.rbuf.length < 36 ∨ CorrReads .samples s ∧ s.corr.rbuf.length < 4) →
      step s = .next { s with script := sc }) ∧
    (corrInput s ≠ [] →
      (CorrReads .hdr s ∧ (s.corr.rbuf ++ corrInput s).length < 36 ∨
        CorrReads .samples s ∧ (s.corr.rbuf ++ corrInput s).length < 4) →
      step s = .next { s with
        script := sc, corr := { s.corr with rbuf := s.corr.rbuf ++ corrInput s },
        io := if s.io.alone then { s.io with cin := [] } else { s.io with ch := [] } }) ∧
    (CorrReads .decode s → s.corr.htype = .F → step s = exec .cFisb { s with script := sc }) ∧
    (CorrReads .decode s → s.corr.htype = .A → step s = exec .cAdsb { s with script := sc })

/-- R73 to R79: decoding the encoding of a well-formed token operation gives it back, for every operand. -/
def Obligations.DecodeInvertsEncode : Prop :=
  ∀ (par : Params) (i : Instr) (tk : Token), i.wellFormed par = true → encode i = some tk →
    decode tk = .ok i

/-- R74, R75, R76, R78, R85: every token that decodes is the encoding of the operation it decodes to, which is well formed
(a chunk tag's iff the tag is in the ranges of R75: others run too, log 20), and every 4-byte IQ pair and sample word
decodes. -/
def Obligations.EncodeInvertsDecode : Prop :=
  (∀ (par : Params) (tk : Token) (i : Instr), decode tk = .ok i →
    encode i = some tk ∧
    ((∀ sec usec len, tk ≠ .tag sec usec len) → i.wellFormed par = true) ∧
    ∀ sec usec len, tk = .tag sec usec len →
      (i.wellFormed par = true ↔ sec < 10000000000 ∧ usec ≤ 999999 ∧ 1 ≤ len ∧ len ≤ 4 * par.bufPairs)) ∧
  (∀ b : List Byte, b.length = 4 →
    (∃ i q, decode (.pair b) = .ok (.dIq i q)) ∧ ∃ v, decode (.sample b) = .ok (.cSmp v))

/-- 95_test_vectors.md Part 3, E4 and E6, V30: words written out from the spec's encodings decode to their operations (two IQ
pairs, two sample words, a chunk tag, the ADS-B header of E4 and the FIS-B header of E6); and one header whose byte 18,
0x58, is neither `F` nor `A` decodes to none. -/
def Obligations.WrittenWordsDecode : Prop :=
  decode (.pair [0xE8, 0x03, 0x00, 0x00]) = .ok (.dIq 1000 0) ∧
  decode (.pair [0x00, 0x00, 0x18, 0xFC]) = .ok (.dIq 0 (-1000)) ∧
  decode (.sample [0xC0, 0xBD, 0xF0, 0xFF]) = .ok (.cSmp (-1000000)) ∧
  decode (.sample [0x00, 0x00, 0x00, 0x80]) = .ok (.cSmp (BitVec.ofInt 32 (-2147483648))) ∧
  decode (.tag 1700000000 500000 400) = .ok (.dChunk 1700000000 500000 400) ∧
  (∀ h : List Byte, h = [0x31, 0x37, 0x30, 0x30, 0x30, 0x30, 0x30, 0x30, 0x30, 0x30, 0x2e, 0x35, 0x30, 0x30, 0x30, 0x33, 0x37, 0x2e,
      0x41, 0x2e, 0x30, 0x31, 0x30, 0x30, 0x30, 0x30, 0x30, 0x30, 0x2e, 0x30, 0x20, 0x20, 0x20, 0x20, 0x20, 0x20] →
    decode (.header h) = .ok (.cHdrA h)) ∧
  (∀ h : List Byte, h = [0x31, 0x37, 0x30, 0x30, 0x30, 0x30, 0x30, 0x30, 0x30, 0x30, 0x2e, 0x35, 0x30, 0x30, 0x30, 0x33, 0x37, 0x2e,
      0x46, 0x2e, 0x30, 0x33, 0x37, 0x36, 0x30, 0x30, 0x30, 0x30, 0x2e, 0x32, 0x20, 0x20, 0x20, 0x20, 0x20, 0x20] →
    decode (.header h) = .ok (.cHdrF h)) ∧
  decode (.header (List.replicate 18 0x30 ++ [0x58] ++ List.replicate 17 0x20)) = .error .headerType

/-! ## DEMOD -/

/-- R123, R107: `D.CHUNK` latches the refill time and restarts the index within the chunk; `D.EOF` closes `CH` and ends
DEMOD with exit status 0, nothing pending or partial being written. -/
def Obligations.ChunkLatchesAndEofEnds : Prop :=
  ∀ (s : State) (sec usec len : Nat), DemodLive s →
    exec (.dChunk sec usec len) s =
      .next { s with demod := { s.demod with csec := sec, cusec := usec, cidx := 0 } } ∧
    exec .dEof s =
      .next { s with demod := { s.demod with ctl := .ended, exit := .zero }, io := { s.io with chClosed := true } }

/-- R97, R98, R103, R104: in every live control state `D.IQ` completes; it rolls the sample registers, takes the sample into
the energy window, sets `LEVEL` and `GATE` from the new sum, advances `n` and `CIDX`, and touches neither CORR nor any
port but `CH`. Outside a frame it is `D.DISC`, `D.ENERGY`, `D.GATE`, `D.SHIFT` into the register of the parity of `n`,
`D.PROBE` of that register iff the gate is open, and `D.ARBITRATE`, in that order, each as its own operation does it. -/
def Obligations.IqSensesAndAdvances : Prop :=
  ∀ (s : State) (i q : Half), DemodLive s → ∃ t v, exec (.dIq i q) s = .next t ∧
    exec (.dDisc i q) s = .next { s with demod := rollPair s.demod i q, ret := .sample v } ∧
    t.demod.i1 = i ∧ t.demod.q1 = q ∧ t.demod.i2 = s.demod.i1 ∧ t.demod.q2 = s.demod.q1 ∧
    t.demod.n = s.demod.n + 1 ∧ t.demod.cidx = s.demod.cidx + 1 ∧
    t.demod.csec = s.demod.csec ∧ t.demod.cusec = s.demod.cusec ∧ t.demod.ibuf = s.demod.ibuf ∧
    t.demod.exit = s.demod.exit ∧
    t.demod.ew = s.demod.ew.set s.demod.ewp v ∧ t.demod.ewp = s.demod.ewp + 1 ∧
    t.demod.sum = s.demod.sum - magnitude s.demod.ew[s.demod.ewp] + magnitude v ∧
    t.demod.level = t.demod.sum / 72 ∧
    (t.demod.gate = true ↔ s.cfg.levelThreshold.toNat < t.demod.level.toNat) ∧
    t.corr = s.corr ∧ t.cfg = s.cfg ∧ t.par = s.par ∧ t.ret = s.ret ∧ t.script = s.script ∧
    (∃ rec, t.io = { s.io with chWr := s.io.chWr ++ rec }) ∧
    (s.demod.ctl ≠ .emitting → ∃ u cand w, PairProbed i q s u v cand ∧ exec (.dArbitrate cand v) u = .next w ∧
      t = { w with ret := s.ret, demod := { w.demod with n := w.demod.n + 1, cidx := w.demod.cidx + 1 } })

/-- R105, R119, R120: a pair taken while a frame is captured is neither shifted nor probed; it is appended to the frame,
and the pair that fills it writes the record and returns to `SEARCH`. -/
def Obligations.IqInFrameOnlyCaptures : Prop :=
  ∀ (s : State) (i q : Half), s.demod.ctl = .emitting → ∃ t v, exec (.dIq i q) s = .next t ∧
    exec (.dDisc i q) s = .next { s with demod := rollPair s.demod i q, ret := .sample v } ∧
    t.demod.ra = s.demod.ra ∧ t.demod.rb = s.demod.rb ∧ t.demod.stamps = s.demod.stamps ∧
    t.demod.ftype = s.demod.ftype ∧ t.demod.flen = s.demod.flen ∧ t.demod.fhdr = s.demod.fhdr ∧
    (s.demod.fcnt + 1 ≠ s.demod.flen → t.demod.ctl = .emitting ∧ t.demod.fcnt = s.demod.fcnt + 1 ∧
      t.demod.frameRev = v :: s.demod.frameRev ∧ t.io = s.io) ∧
    (s.demod.fcnt + 1 = s.demod.flen → t.demod.ctl = .search ∧ t.demod.fcnt = 0 ∧
      t.io = { s.io with chWr := s.io.chWr ++ (s.demod.fhdr ++ samplesBytes (s.demod.frameRev.reverse ++ [v])) })

/-- R101, R104, R109, R113, R117: at a pair whose level does not exceed the threshold no candidate is formed: a search goes
on with that pair's bit (1 iff the sample `D.DISC` returns is strictly positive) shifted into its own phase register only,
and a pending candidate wins. -/
def Obligations.IqGateClosedNoCandidate : Prop :=
  ∀ (s t : State) (i q : Half), DemodLive s → exec (.dIq i q) s = .next t →
    t.demod.level.toNat ≤ s.cfg.levelThreshold.toNat → ∃ v : Sample,
    exec (.dDisc i q) s = .next { s with demod := rollPair s.demod i q, ret := .sample v } ∧
    t.demod.stamps = s.demod.stamps ∧
    (s.demod.ctl = .search → t.demod.ctl = .search ∧ t.io = s.io ∧
      (s.demod.n % 2 = 0 → t.demod.rb = s.demod.rb ∧ (t.demod.ra.getLsbD 0 = true ↔ 0 < v.toInt) ∧
        ∀ k, k < 63 → t.demod.ra.getLsbD (k + 1) = s.demod.ra.getLsbD k) ∧
      (s.demod.n % 2 = 1 → t.demod.ra = s.demod.ra ∧ (t.demod.rb.getLsbD 0 = true ↔ 0 < v.toInt) ∧
        ∀ k, k < 63 → t.demod.rb.getLsbD (k + 1) = s.demod.rb.getLsbD k)) ∧
    (∀ p, s.demod.ctl = .pending p → t.demod.fhdr = headerBytes p ∧ t.demod.ftype = p.type)

/-- R102, R117, R118: with the candidate `p` pending, the next pair always selects a winner: the pair's own candidate if it
has fewer errors than `p`, or as many and a larger correlation, else `p`. DEMOD captures a frame of the winner's type and
length under the winner's header, which begins with this pair's sample if `p` won and with the next pair's otherwise; the
registers are clear, and nothing is written yet. -/
def Obligations.IqPendingSelectsWinner : Prop :=
  ∀ (s : State) (p : Cand) (i q : Half), s.demod.ctl = .pending p → ∃ t u v cand, exec (.dIq i q) s = .next t ∧
    PairProbed i q s u v cand ∧ t.demod.ctl = .emitting ∧ t.demod.ra = 0 ∧ t.demod.rb = 0 ∧
    t.demod.flen = (match t.demod.ftype with | .F => 8835 | .A => 771) ∧ t.io = s.io ∧
    (∀ c, cand = some c → (c.err < p.err ∨ (c.err = p.err ∧ p.corr.toInt < c.corr.toInt)) →
      t.demod.ftype = c.type ∧ t.demod.fhdr = headerBytes c ∧ t.demod.fcnt = 0 ∧ t.demod.frameRev = []) ∧
    ((∀ c, cand = some c → ¬(c.err < p.err ∨ (c.err = p.err ∧ p.corr.toInt < c.corr.toInt))) →
      t.demod.ftype = p.type ∧ t.demod.fhdr = headerBytes p ∧ t.demod.fcnt = 1 ∧ t.demod.frameRev = [v])

/-- R99: the discriminator's sample is the exact integer, within ±2,147,450,880, and the registers roll. -/
def Obligations.DiscriminatorExact : Prop :=
  ∀ (s : State) (i q : Half), DemodLive s → ∃ v : Sample,
    exec (.dDisc i q) s = .next { s with
      demod := { s.demod with i2 := s.demod.i1, q2 := s.demod.q1, i1 := i, q1 := q }, ret := .sample v } ∧
    v.toInt = s.demod.i2.toInt * q.toInt - i.toInt * s.demod.q2.toInt ∧
    -2147450880 ≤ v.toInt ∧ v.toInt ≤ 2147450880

/-- R100, R26: from a window whose sum is right, `D.ENERGY` leaves one whose sum is right; the new sample is the newest,
every other sample is one older, the oldest is gone; only the window is written. -/
def Obligations.EnergyWindowSlides : Prop :=
  ∀ (s : State) (v : Sample), DemodLive s → WindowInv s.demod → v.toInt.natAbs ≤ maxMagnitude →
    ∃ t, exec (.dEnergy v) s = .next t ∧
      t = { s with demod := { s.demod with ew := t.demod.ew, ewp := t.demod.ewp, sum := t.demod.sum } } ∧
      WindowInv t.demod ∧
      t.demod.sum.toNat + (windowSample s.demod 71).toInt.natAbs = s.demod.sum.toNat + v.toInt.natAbs ∧
      windowSample t.demod 0 = v ∧ ∀ d, d < 71 → windowSample t.demod (d + 1) = windowSample s.demod d

/-- R101: `D.GATE` sets the level to the sum divided by 72, the remainder discarded, and opens the gate iff the sum is at
least 72 times the threshold plus one; it writes nothing else. -/
def Obligations.GateOpensAboveThreshold : Prop :=
  ∀ (s : State), DemodLive s → ∃ l g,
    exec .dGate s = .next { s with demod := { s.demod with level := l, gate := g } } ∧
    72 * l.toNat ≤ s.demod.sum.toNat ∧ s.demod.sum.toNat < 72 * l.toNat + 72 ∧
    (g = true ↔ 72 * (s.cfg.levelThreshold.toNat + 1) ≤ s.demod.sum.toNat)

/-- R113, R11: `D.SHIFT` moves bit k of its register to bit k+1, discards bit 63, and sets bit 0 iff the sample is
strictly positive; the other register and all else stay. -/
def Obligations.ShiftMovesBits : Prop :=
  ∀ (s : State) (p : Phase) (v : Sample), DemodLive s → ∃ r : Word64,
    exec (.dShift p v) s = .next (match p with
      | .A => { s with demod := { s.demod with ra := r } }
      | .B => { s with demod := { s.demod with rb := r } }) ∧
    (r.getLsbD 0 = true ↔ 0 < v.toInt) ∧ ∀ k, k < 63 → r.getLsbD (k + 1) = (phaseReg p s.demod).getLsbD k

/-- R114: `D.PROBE` returns the candidate of an enabled type within distance 4, with the match's values, and none if
there is no such type; besides the returned value only the count of stamps changes. -/
def Obligations.ProbeFindsMatch : Prop :=
  ∀ (s : State) (p : Phase), DemodLive s →
    (∀ ty, typeEnabled s.cfg ty = true → syncDistance ty (phaseReg p s.demod) ≤ 4 →
      exec (.dProbe p) s = .next { s with
        demod := { s.demod with stamps := s.demod.stamps + 1 },
        ret := .cand (some { type := ty, idx := s.demod.n, err := syncDistance ty (phaseReg p s.demod),
                             corr := correlate ty s.demod, level := s.demod.level,
                             sec := (stampOf s.cfg s.demod).1, usec := (stampOf s.cfg s.demod).2 }) }) ∧
    ((∀ ty, typeEnabled s.cfg ty = true → 4 < syncDistance ty (phaseReg p s.demod)) →
      exec (.dProbe p) s = .next { s with ret := .cand none })

/-- R111, R112, R223: the two sync words are those of R111 and complements, the distance counts the differing bits of the
low 36, and the two distances of a register add up to 36, so it matches at most one type; a register that has had at most
24 bits since its last clear does not match FIS-B, one with at most 29 does not match ADS-B. -/
def Obligations.SyncDistances : Prop :=
  syncWord .F = 0x153225B1D ∧ syncWord .A = 0xEACDDA4E2 ∧ syncWord .A = syncWord .F ^^^ 0xFFFFFFFFF ∧
  ∀ r : Word64, syncDistance .F r + syncDistance .A r = 36 ∧
    (∀ ty, syncDistance ty r = ((List.range 36).filter fun k => r.getLsbD k != (syncWord ty).getLsbD k).length) ∧
    (BitsSinceClear 24 r → 4 < syncDistance .F r) ∧ (BitsSinceClear 29 r → 4 < syncDistance .A r)

/-- R115: `D.CORRELATE` returns the exact signed sum over the 36 samples of the phase, which fits int64. -/
def Obligations.CorrelationExact : Prop :=
  ∀ (s : State) (ty : PType), DemodLive s → WindowInv s.demod → ∃ v : Word64,
    exec (.dCorrelate ty) s = .next { s with ret := .corr v } ∧
    v.toInt = ((List.range 36).map fun k =>
      if (syncWord ty).getLsbD k = true then (windowSample s.demod (2 * k)).toInt
      else -(windowSample s.demod (2 * k)).toInt).sum

/-- R117: the arbitration. Searching: no candidate leaves the state; a candidate is selected at once under `FIRST` and
held under `BEST`. Pending: a better candidate is selected, else the pending one, whose frame then begins with the
present sample. -/
def Obligations.ArbitrationChoosesWinner : Prop :=
  ∀ (s : State) (v : Sample),
    (s.demod.ctl = .search →
      exec (.dArbitrate none v) s = .next s ∧
      ∀ c, (s.cfg.phaseSelect = .first → exec (.dArbitrate (some c) v) s = exec (.dSelect c) s) ∧
        (s.cfg.phaseSelect = .best →
          exec (.dArbitrate (some c) v) s = .next { s with demod := { s.demod with ctl := .pending c } })) ∧
    (∀ p, s.demod.ctl = .pending p → ∃ t u, exec (.dSelect p) s = .next t ∧ exec (.dCapture v) t = .next u ∧
      exec (.dArbitrate none v) s = .next u ∧
      ∀ c, ((c.err < p.err ∨ (c.err = p.err ∧ p.corr.toInt < c.corr.toInt)) →
          exec (.dArbitrate (some c) v) s = exec (.dSelect c) s) ∧
        (¬(c.err < p.err ∨ (c.err = p.err ∧ p.corr.toInt < c.corr.toInt)) →
          exec (.dArbitrate (some c) v) s = .next u))

/-- R118, R126: `D.SELECT` clears both registers, sets type, length 8835 or 771, an empty frame and the header that
`D.HEADER` returns, and enters `EMITTING`; all else stays. -/
def Obligations.SelectStartsFrame : Prop :=
  ∀ (s : State) (c : Cand), DemodLive s → ∃ h,
    exec (.dHeader c) s = .next { s with ret := .bytes h } ∧
    exec (.dSelect c) s = .next { s with demod := { s.demod with
      ra := 0, rb := 0, ftype := c.type, flen := if c.type = .F then 8835 else 771, fcnt := 0, frameRev := [],
      fhdr := h, ctl := .emitting } }

/-- R120, R121: `D.CAPTURE` appends the sample; the sample that fills the frame writes header and samples to `CH`, empties
the frame and returns to `SEARCH`. The samples written are those held: in a state, reached by no run, whose held samples
are fewer than `FCNT`, that is the model's choice (log 14). -/
def Obligations.CaptureAppendsOrEmits : Prop :=
  ∀ (s : State) (v : Sample), DemodLive s →
    (s.demod.fcnt + 1 ≠ s.demod.flen → exec (.dCapture v) s = .next { s with
      demod := { s.demod with frameRev := v :: s.demod.frameRev, fcnt := s.demod.fcnt + 1 } }) ∧
    (s.demod.fcnt + 1 = s.demod.flen → exec (.dCapture v) s = .next { s with
      demod := { s.demod with frameRev := [], fcnt := 0, ctl := .search },
      io := { s.io with chWr := s.io.chWr ++ (s.demod.fhdr ++ samplesBytes (s.demod.frameRev.reverse ++ [v])) } })

/-- R121, R59: `D.EMIT` writes the header bytes and then the 4 little-endian bytes of each sample in order, and sets
`FCNT` to 0; with a 36-byte header and a full frame that is 36 + 4·8835 or 36 + 4·771 bytes. -/
def Obligations.EmitWritesRecord : Prop :=
  ∀ (s : State), DemodLive s → ∃ rec : List Byte,
    exec .dEmit s = .next { s with
      demod := { s.demod with fcnt := 0, frameRev := [] }, io := { s.io with chWr := s.io.chWr ++ rec } } ∧
    rec.length = s.demod.fhdr.length + 4 * s.demod.frameRev.length ∧
    (s.demod.fhdr.length = 36 → s.demod.frameRev.length = frameLen s.demod.ftype →
      rec.length = (match s.demod.ftype with | .F => 35376 | .A => 3120)) ∧
    rec.take s.demod.fhdr.length = s.demod.fhdr ∧
    ∀ j b, j < s.demod.frameRev.length → b < 4 →
      rec.getD (s.demod.fhdr.length + 4 * j + b) 0 = (s.demod.frameRev.reverse.getD j 0).extractLsb' (8 * b) 8

/-- R124: outside replay mode, for a chunk time in the ranges of R56, the stamp is the refill time plus the floor of
(CIDX − 72)·0.48 µs, split into seconds and microseconds, whenever that is neither negative nor beyond ten digits of seconds.
That the count of stamps advances, outside replay mode too, is the model's reading of the `k` of R127 (log 6, DEDUCED). -/
def Obligations.StampIsRefillPlusOffset : Prop :=
  ∀ (s : State) (off : Int), DemodLive s → s.cfg.replayMode = false →
    s.demod.csec < 10000000000 → s.demod.cusec ≤ 999999 →
    100 * off ≤ ((s.demod.cidx : Int) - 72) * 48 → ((s.demod.cidx : Int) - 72) * 48 < 100 * off + 100 →
    0 ≤ (s.demod.csec : Int) * 1000000 + s.demod.cusec + off →
    (s.demod.csec : Int) * 1000000 + s.demod.cusec + off < 10000000000000000 →
    ∃ sec usec : Nat, exec .dStamp s = .next { s with
        demod := { s.demod with stamps := s.demod.stamps + 1 }, ret := .stamp sec usec } ∧
      (sec : Int) * 1000000 + usec = (s.demod.csec : Int) * 1000000 + s.demod.cusec + off ∧ usec < 1000000

/-- R124, R127, R207: in every case, replay mode and a broken host duty included, `D.STAMP` completes with a time whose
seconds have at most ten digits and whose microseconds are below 1,000,000 (outside the duty and in replay mode the time
itself is free, and its form in the first case and the count of stamps are the model's: log 7 and log 6). -/
def Obligations.StampStaysInRange : Prop :=
  ∀ (s : State), DemodLive s → ∃ sec usec : Nat, exec .dStamp s = .next { s with
      demod := { s.demod with stamps := s.demod.stamps + 1 }, ret := .stamp sec usec } ∧
    sec < 10000000000 ∧ usec < 1000000

/-! ## CORR: intake -/

/-- R126, R76, R133 (corner cases): for a candidate in its ranges `D.HEADER` returns 36 bytes of the picture of R76 with
the candidate's type, and `C.HDR` accepts them and reads back the seconds, microseconds, clamped level and error count. -/
def Obligations.CorrAcceptsDemodHeader : Prop :=
  ∀ (d s : State) (c : Cand), DemodLive d → CorrLive s → c.ok = true → ∃ h,
    exec (.dHeader c) d = .next { d with ret := .bytes h } ∧ GoodHeader c.type h ∧
    exec (hdrOp c.type h) s = .next { s with corr := { s.corr with
      hbuf := h, hsec := c.sec, husec := c.usec, htype := c.type, hlevel := min c.level.toNat 99999999, herr := c.err,
      clen := frameLen c.type, ccnt := 0, cbufRev := [], ctl := .samples } }

/-- R133, R77: `C.HDR` on a well-formed header stores the header, its decimal fields, type and frame length, empties the
frame and waits for samples; all else stays. -/
def Obligations.HeaderIsStored : Prop :=
  ∀ (s : State) (ty : PType) (h : List Byte), CorrLive s → GoodHeader ty h →
    exec (hdrOp ty h) s = .next { s with corr := { s.corr with
      hbuf := h, hsec := decimal (field h 0 10), husec := decimal (field h 11 6), htype := ty,
      hlevel := decimal (field h 20 8), herr := decimal (field h 29 1),
      clen := (match ty with | .F => 8835 | .A => 771), ccnt := 0, cbufRev := [], ctl := .samples } }

/-- R194, R205, R84: the header faults in their order: 1 to 35 bytes are `F_HDR_LEN`, else an unknown type byte is
`F_HDR_TYPE` whatever the other bytes are, else any failed check is `F_HDR_FORMAT`; and a step that reads 36 bytes with
an unknown type byte takes `F_HDR_TYPE`. -/
def Obligations.HeaderFaultsInOrder : Prop :=
  (∀ (s : State) (ty : PType) (h : List Byte), CorrLive s →
    (1 ≤ h.length → h.length < 36 → exec (hdrOp ty h) s = .next (raiseFault .corr .hdrLen s)) ∧
    (∀ b : Byte, h.length = 36 → h[18]? = some b → b ≠ 0x46 → b ≠ 0x41 →
      exec (hdrOp ty h) s = .next (raiseFault .corr .hdrType s)) ∧
    (∀ b : Byte, h.length = 36 → h[18]? = some b → (b = 0x46 ∨ b = 0x41) → headerWellformed h = false →
      exec (hdrOp ty h) s = .next (raiseFault .corr .hdrFormat s))) ∧
  (∀ (s : State) (sc : List HostAct) (b : Byte), s.script = .run .corr :: sc → CorrReads .hdr s →
    s.corr.rbuf.length ≤ 36 → 36 ≤ (s.corr.rbuf ++ corrInput s).length →
    (s.corr.rbuf ++ corrInput s)[18]? = some b → b ≠ 0x46 → b ≠ 0x41 →
    step s = .next (raiseFault .corr .hdrType (afterRead 36 sc s)))

/-- R134, R135, R202: `C.SMP` stores the sample as the next of the frame, and the sample that fills it starts the decode; EOF
at a record boundary ends CORR with exit status 0 and closes its ports, its read end of `CH` with them (log 31, DEDUCED); inside
the samples it is `F_EOF_MID_FRAME`. -/
def Obligations.SampleStoredAndEofEnds : Prop :=
  ∀ (s : State), CorrLive s →
    (∀ v, exec (.cSmp v) s = .next { s with corr := { s.corr with
      cbufRev := v :: s.corr.cbufRev, ccnt := s.corr.ccnt + 1,
      ctl := if s.corr.ccnt + 1 = s.corr.clen then .decode else s.corr.ctl } }) ∧
    exec (.cEof .boundary) s = .next { s with
      corr := { s.corr with ctl := .ended, exit := .zero },
      io := { s.io with outClosed := true, capClosed := true, chBroken := true } } ∧
    exec (.cEof .midframe) s = .next (raiseFault .corr .eofMidFrame s)

/-! ## CORR: slicing and packing -/

/-- R136: the three sequences of a window are the frame's samples at 2k+w, 2k+1+w and 2k+2+w, and the current bit is 1
iff its sample is not negative. -/
def Obligations.SliceSequences : Prop :=
  ∀ (s : State) (w : Window) (ty : PType), CorrLive s → s.corr.cbufRev.length = frameLen ty →
    ∃ bef cur aft bits, exec (.cSlice w ty) s = .next { s with ret := .slices bef cur aft bits } ∧
      bef.length = payloadBits ty ∧ cur.length = payloadBits ty ∧ aft.length = payloadBits ty ∧
      bits.length = payloadBits ty ∧
      ∀ k, k < payloadBits ty →
        bef[k]? = s.corr.cbufRev.reverse[2 * k + windowOffset w]? ∧
        cur[k]? = s.corr.cbufRev.reverse[2 * k + 1 + windowOffset w]? ∧
        aft[k]? = s.corr.cbufRev.reverse[2 * k + 2 + windowOffset w]? ∧
        ∀ v, s.corr.cbufRev.reverse[2 * k + 1 + windowOffset w]? = some v → bits[k]? = some (decide (0 ≤ v.toInt))

/-- R137: `C.MIX` returns 1 iff the exact integer 100·c + P·m is not negative. -/
def Obligations.MixIsExactSign : Prop :=
  ∀ (s : State) (c m : Sample) (pct : Nat), CorrLive s →
    exec (.cMix c m pct) s = .next { s with ret := .bit (decide (0 ≤ 100 * c.toInt + (pct : Int) * m.toInt)) }

/-- R138: the variant of index 0 is the current slice; that of index j+1 mixes every current sample with the neighbour
entry j of the schedule names, at its percent; an index above N has no meaning and is refused (log 21). -/
def Obligations.VariantMixesEveryBit : Prop :=
  ∀ (s : State) (w : Window) (j : Nat) (ty : PType),
    (CorrLive s → s.corr.cbufRev.length = frameLen ty → j ≤ s.par.schedule.length →
      ∃ bits, exec (.cVariant w j ty) s = .next { s with ret := .bits bits } ∧ bits.length = payloadBits ty ∧
        ∀ k c b a, k < payloadBits ty →
          s.corr.cbufRev.reverse[2 * k + 1 + windowOffset w]? = some c →
          s.corr.cbufRev.reverse[2 * k + windowOffset w]? = some b →
          s.corr.cbufRev.reverse[2 * k + 2 + windowOffset w]? = some a →
          (j = 0 → bits[k]? = some (decide (0 ≤ c.toInt))) ∧
          (∀ e, 1 ≤ j → s.par.schedule[j - 1]? = some e →
            bits[k]? = some (decide (0 ≤ 100 * c.toInt + (e.pct : Int) * (match e.dir with | .before => b | .after => a).toInt)))) ∧
    (s.par.schedule.length < j → exec (.cVariant w j ty) s = .refused .scheduleIndex)

/-- R139, R11: `C.PACK` makes one byte of each eight bits, the first bit the most significant. -/
def Obligations.PackFirstBitHighest : Prop :=
  ∀ (s : State) (bits : List Bool) (k : Nat), CorrLive s → bits.length = 8 * k →
    ∃ bytes : List Byte, exec (.cPack bits) s = .next { s with ret := .bytes bytes } ∧ bytes.length = k ∧
      ∀ j b, j < k → b < 8 → (bytes.getD j 0).getLsbD (7 - b) = bits.getD (8 * j + b) false

/-- R140, R141: byte k of the payload goes to block k mod 6 at index k div 6 (block i, index t is byte 6t + i); the long
ADS-B codeword is all 48 bytes, the short one bytes 0..29. -/
def Obligations.DeinterleaveAndCodewords : Prop :=
  ∀ (s : State) (y : List Byte), CorrLive s →
    (y.length = 552 →
      ∃ blks : List (List Byte), exec (.cDeint y) s = .next { s with ret := .blocks blks } ∧ blks.length = 6 ∧
        ∀ i, i < 6 → (blks.getD i []).length = 92 ∧
          ∀ t, t < 92 → (blks.getD i []).getD t 0 = y.getD (6 * t + i) 0) ∧
    (y.length = 48 → exec (.cAbytes y) s = .next { s with ret := .words y (y.take 30) })

/-! ## CORR: Reed–Solomon and the strategies -/

/-- R147 (L2, L4), R149: an attempt that answers does so with the data part of a codeword that differs from the word in
exactly the reported number of bytes, at most `t`; whatever the code's parameters. -/
def Obligations.AttemptIsSound : Prop :=
  ∀ (s : State) (code : Code) (y : List Byte), CorrLive s → ∃ r,
    exec (.cRs code y) s = .next { s with ret := .rs r } ∧
    ∀ d e, r = some (d, e) → ∃ c : List Byte, isCodeword (codeParams s.par code) code c = true ∧
      c.length = codeN code ∧ y.length = codeN code ∧ d = c.take (codeK code) ∧
      e = wrongBytes (codeN code) c y ∧ e ≤ codeT code

/-- R147 (L3 at distance 0), R149: a codeword decodes to its own data with no error; the all-zero word is a codeword of
every code under all parameters. -/
def Obligations.CodewordDecodesToItself : Prop :=
  (∀ (s : State) (code : Code) (y : List Byte), CorrLive s → isCodeword (codeParams s.par code) code y = true →
    exec (.cRs code y) s = .next { s with ret := .rs (some (y.take (codeK code), 0)) }) ∧
  (∀ (s : State) (code : Code), CorrLive s →
    exec (.cRs code (List.replicate (codeN code) 0)) s =
      .next { s with ret := .rs (some (List.replicate (codeK code) 0, 0)) })

/-- R152, R153: the search order begins with 0, then the hint if there is one, then the other indices ascending, and holds
every index 0..N exactly once; `C.SEARCH` returns the first variant in that order whose block decodes, and NOTFOUND iff none does; an index above N has
no meaning and is refused (log 21). -/
def Obligations.SearchTakesFirstSuccess : Prop :=
  (∀ n h, h ≤ n → (searchOrder n h).Perm (List.range (n + 1)) ∧ (searchOrder n h)[0]? = some 0 ∧
    (1 ≤ h → (searchOrder n h)[1]? = some h ∧ ((searchOrder n h).drop 2).Pairwise (· < ·)) ∧ (h = 0 → searchOrder n h = List.range (n + 1))) ∧
  ∀ (s : State) (i : Fin 6) (w : Window) (h : Nat),
    (CorrLive s → h ≤ s.par.schedule.length → ∃ r,
      exec (.cSearch i w h) s = .next { s with ret := .found r } ∧
      (∀ j d e, r = some (j, d, e) ↔ ∃ pre post, searchOrder s.par.schedule.length h = pre ++ j :: post ∧
        rsAttempt s.par .uplink (blockOf i (packBits (variantBits s.par w j .F s.corr.cbufRev.reverse))) = some (d, e) ∧
        ∀ j', j' ∈ pre →
          rsAttempt s.par .uplink (blockOf i (packBits (variantBits s.par w j' .F s.corr.cbufRev.reverse))) = none) ∧
      (r = none ↔ ∀ j, j ≤ s.par.schedule.length →
        rsAttempt s.par .uplink (blockOf i (packBits (variantBits s.par w j .F s.corr.cbufRev.reverse))) = none)) ∧
    (s.par.schedule.length < h → exec (.cSearch i w h) s = .refused .scheduleIndex)

/-- R155: `C.BLOCK` answers with window 0 (and its index as the new hint), else window 1, else trailing-zero repair, else,
for block 0, fixed-bit repair, the last three leaving the hint; the repairs only if enabled. The answers of the steps are
those their own operations return; an index above N has no meaning and is refused (log 21). -/
def Obligations.BlockStrategy : Prop :=
  ∀ (s : State) (i : Fin 6) (h : Nat),
    (s.par.schedule.length < h → exec (.cBlock i h) s = .refused .scheduleIndex) ∧
    (CorrLive s → h ≤ s.par.schedule.length → ∃ r0 r1 r5 r6,
    exec (.cSearch i .nominal h) s = .next { s with ret := .found r0 } ∧
    exec (.cSearch i .later h) s = .next { s with ret := .found r1 } ∧
    exec (.cTz i) s = .next { s with ret := .rs r5 } ∧
    exec .cFixed s = .next { s with ret := .rs r6 } ∧
    (∀ j d e, r0 = some (j, d, e) → exec (.cBlock i h) s = .next { s with ret := .block (some (d, e, j)) }) ∧
    (∀ j d e, r0 = none → r1 = some (j, d, e) →
      exec (.cBlock i h) s = .next { s with ret := .block (some (d, e, h)) }) ∧
    (∀ d e, r0 = none → r1 = none → s.cfg.tzRepairEn = true → r5 = some (d, e) →
      exec (.cBlock i h) s = .next { s with ret := .block (some (d, e, h)) }) ∧
    (r0 = none → r1 = none → (s.cfg.tzRepairEn = false ∨ r5 = none) →
      (∀ d e, i = 0 → s.cfg.fixedBitsEn = true → r6 = some (d, e) →
        exec (.cBlock i h) s = .next { s with ret := .block (some (d, e, h)) }) ∧
      ((i ≠ 0 ∨ s.cfg.fixedBitsEn = false ∨ r6 = none) →
        exec (.cBlock i h) s = .next { s with ret := .block none })))

/-- R161: the shortcut, taken only when `BLOCK0_END` of block 0's data is `ENDS`, marks blocks 1..5 not attempted with 72
zero bytes each and keeps block 0; otherwise nothing but the returned value changes. -/
def Obligations.ShortcutMarksBlocks : Prop :=
  ∀ (s : State), CorrLive s →
    (block0End s.par s.corr.data[0] = .ends → ∃ t, exec .cShortcut s = .next t ∧
      t = { s with corr := { s.corr with status := t.corr.status, data := t.corr.data }, ret := .taken true } ∧
      t.corr.status[0] = s.corr.status[0] ∧ t.corr.data[0] = s.corr.data[0] ∧
      ∀ j : Fin 6, j ≠ 0 → t.corr.status[j] = .notAttempted ∧ t.corr.data[j] = List.replicate 72 0) ∧
    (block0End s.par s.corr.data[0] ≠ .ends → exec .cShortcut s = .next { s with ret := .taken false })

/-- R163, R164: the tail run is the longest run of near-zero current samples ending at the last data bit; with no negative
sample in the block or no tail run there is no attempt; else the word attempted has 0 in every bit of the run and the
plain slice in every other, parity included. -/
def Obligations.TrailingZeroForcesTail : Prop :=
  ∀ (s : State) (i : Fin 6), CorrLive s → s.corr.cbufRev.length = 8835 → ∃ r run,
    exec (.cTz i) s = .next { s with ret := .rs r } ∧ run ≤ 576 ∧
    (∀ p, 576 - run ≤ p → p < 576 →
      (blockSample i s.corr.cbufRev.reverse p).toInt.natAbs ≤ s.par.tzThreshold.toNat) ∧
    (run < 576 → s.par.tzThreshold.toNat < (blockSample i s.corr.cbufRev.reverse (575 - run)).toInt.natAbs) ∧
    ((run = 0 ∨ ∀ p, p < 736 → 0 ≤ (blockSample i s.corr.cbufRev.reverse p).toInt) → r = none) ∧
    (run ≠ 0 → (∃ p, p < 736 ∧ (blockSample i s.corr.cbufRev.reverse p).toInt < 0) →
      ∃ y : List Byte, y.length = 92 ∧ r = rsAttempt s.par .uplink y ∧
        ∀ t b, t < 92 → b < 8 → (y.getD t 0).getLsbD (7 - b) =
          if 576 - run ≤ 8 * t + b ∧ 8 * t + b < 576 then false
          else decide (0 ≤ (blockSample i s.corr.cbufRev.reverse (8 * t + b)).toInt))

/-- R166, R167, R168: fixed-bit repair attempts the current slice of block 0 with the masked bits of its first eight bytes
forced; if that fails, each candidate over bytes 0..5 of the forced word in list order, accepted only by policy. -/
def Obligations.FixedRepairAttempts : Prop :=
  ∀ (s : State), CorrLive s → s.corr.cbufRev.length = 8835 → ∃ r y base,
    exec .cFixed s = .next { s with ret := .rs r } ∧
    base = blockOf 0 (packBits (variantBits s.par .nominal 0 .F s.corr.cbufRev.reverse)) ∧
    y.length = 92 ∧ base.length = 92 ∧
    (∀ t : Fin 8, y.getD t.val 0 =
      ((base.getD t.val 0 &&& ~~~s.par.fixedMask[t]) ||| (s.par.fixedValue[t] &&& s.par.fixedMask[t]))) ∧
    (∀ t, 8 ≤ t → t < 92 → y.getD t 0 = base.getD t 0) ∧
    (∀ a, rsAttempt s.par .uplink y = some a → r = some a) ∧
    (rsAttempt s.par .uplink y = none →
      (s.cfg.acceptCandidates = false → r = none) ∧
      (s.cfg.acceptCandidates = true →
        (∀ pre c post a, s.cfg.candidates = pre ++ c :: post →
          (∀ c', c' ∈ pre → rsAttempt s.par .uplink (c' ++ y.drop 6) = none) →
          rsAttempt s.par .uplink (c ++ y.drop 6) = some a → r = some a) ∧
        ((∀ c, c ∈ s.cfg.candidates → rsAttempt s.par .uplink (c ++ y.drop 6) = none) → r = none)))

/-- R35, R150, R156, R159, R161, R169, R170, R171: `C.FISB` completes and returns to `HDR`. From hint 0, block by block with
the hint the blocks before it left, each status, data and hint is what `C.BLOCK` of that block and hint answers: an error
count with the block's data, or 98 with data and hint as they were; but if block 0 decodes to data that `BLOCK0_END` says
ends the message, blocks 1..5 are 99 with zero data. Every status is an error count 0..10, 98 or 99. If none is 98 the packet
succeeded: block 0 decoded, the payload is the six blocks' data, 432 bytes, and the success line is written. If one is 98 it
failed: none is 99, and the failure line is written iff enabled. R177: `CAP` is given the RAW record iff enabled, and after it,
for a failure, the FAIL record iff enabled. Nothing else changes. -/
def Obligations.FisbOutcome : Prop :=
  ∀ (s : State), CorrLive s → s.corr.htype = .F → ∃ t, exec .cFisb s = .next t ∧
    t = { s with corr := { s.corr with ctl := .hdr, hint := t.corr.hint, status := t.corr.status, data := t.corr.data },
                 io := { s.io with capWr := t.io.capWr, outWr := t.io.outWr } } ∧
    (∃ (hint : Nat → Nat) (r : Fin 6 → Option (List Byte × Nat × Nat)), hint 0 = 0 ∧
      (∀ i : Fin 6, exec (.cBlock i (hint i)) s = .next { s with ret := .block (r i) } ∧
        hint (i + 1) = (match r i with | some (_, _, nh) => nh | none => hint i)) ∧
      ((∀ d e nh, r 0 = some (d, e, nh) → block0End s.par d ≠ .ends) → t.corr.hint = hint 6 ∧
        ∀ i : Fin 6, (∀ d e nh, r i = some (d, e, nh) → t.corr.status[i] = .decoded e ∧ t.corr.data[i] = d) ∧
          (r i = none → t.corr.status[i] = .uncorrectable ∧ t.corr.data[i] = s.corr.data[i])) ∧
      ∀ d e nh, r 0 = some (d, e, nh) → block0End s.par d = .ends → t.corr.hint = nh ∧
        t.corr.status[0] = .decoded e ∧ t.corr.data[0] = d ∧
        ∀ j : Fin 6, j ≠ 0 → t.corr.status[j] = .notAttempted ∧ t.corr.data[j] = List.replicate 72 0) ∧
    (∀ i : Fin 6, t.corr.status[i] = .uncorrectable ∨ t.corr.status[i] = .notAttempted ∨
      ∃ e, e ≤ 10 ∧ t.corr.status[i] = .decoded e) ∧
    ((∀ i : Fin 6, t.corr.status[i] ≠ .uncorrectable) →
      (∃ e, t.corr.status[0] = .decoded e) ∧ t.corr.data.toList.flatten.length = 432 ∧
      t.io.capWr = s.io.capWr ++ (if s.cfg.captureRaw then [captureRecord s.par .raw s.corr] else []) ∧
      t.io.outWr = s.io.outWr ++ successLine s.par t.corr t.corr.data.toList.flatten) ∧
    ((∃ i : Fin 6, t.corr.status[i] = .uncorrectable) →
      (∀ i : Fin 6, t.corr.status[i] ≠ .notAttempted) ∧
      t.io.capWr = s.io.capWr ++ (if s.cfg.captureRaw then [captureRecord s.par .raw s.corr] else []) ++
        (if s.cfg.captureFail then [captureRecord s.par .fail s.corr] else []) ∧
      t.io.outWr = s.io.outWr ++ (if s.cfg.failFisb then failureLine s.par t.corr else []))

/-- R35, R189: a decode reads nothing an earlier packet left: with other hint, statuses and data before it, `C.FISB` of a
FIS-B frame and `C.ADSB` of an ADS-B frame write the same bytes to every port and leave the same outcome. -/
def Obligations.DecodeIgnoresEarlierPacket : Prop :=
  ∀ (s : State) (h : Nat) (st : Vector BStatus 6) (da : Vector (List Byte) 6) (ast : BStatus) (ad : List Byte),
    CorrLive s → ∀ u, u = { s with corr := { s.corr with hint := h, status := st, data := da, astatus := ast, adata := ad } } →
    (s.corr.htype = .F → ∃ t t', exec .cFisb s = .next t ∧ exec .cFisb u = .next t' ∧ t.io = t'.io ∧
      t.corr.status = t'.corr.status ∧ t.corr.hint = t'.corr.hint) ∧
    (s.corr.htype = .A → ∃ t t', exec .cAdsb s = .next t ∧ exec .cAdsb u = .next t' ∧ t.io = t'.io ∧
      t.corr.astatus = t'.corr.astatus ∧ t.corr.status = t'.corr.status ∧ t.corr.hint = t'.corr.hint)

/-- R35, R172, R173: `C.ADSB` completes and returns to `HDR`, with `HINT` 0 and every FIS-B status `UNSET`. It succeeds iff
some attempt is accepted (long data, 34 bytes, type code not 0, at most 7 errors; or short data, 18 bytes, type code 0, at
most 6 errors), with the data and error count of the first accepted one (window 0 before window 1, indices ascending, long
before short), and writes the success line; else it fails, status 98, and writes the failure line iff enabled. R177: `CAP` is
given the RAW record iff enabled, and after it, for a failure, the FAIL record iff enabled. Nothing else changes. -/
def Obligations.AdsbOutcome : Prop :=
  ∀ (s : State), CorrLive s → s.corr.htype = .A → ∃ t, exec .cAdsb s = .next t ∧
    t = { s with corr := { s.corr with ctl := .hdr, hint := 0, status := Vector.replicate 6 .unset,
                                       astatus := t.corr.astatus, adata := t.corr.adata },
                 io := { s.io with capWr := t.io.capWr, outWr := t.io.outWr } } ∧
    ((∃ w j code d e, j ≤ s.par.schedule.length ∧ AdsbAccepted s.par s.corr.cbufRev.reverse w j code d e ∧
        (∀ w' j' code' d' e', j' ≤ s.par.schedule.length → AdsbBefore w' j' code' w j code →
          ¬AdsbAccepted s.par s.corr.cbufRev.reverse w' j' code' d' e') ∧
        t.corr.astatus = .decoded e ∧ t.corr.adata = d ∧
        ((d.length = 34 ∧ typeCode d ≠ 0 ∧ e ≤ 7) ∨ (d.length = 18 ∧ typeCode d = 0 ∧ e ≤ 6)) ∧
        t.io.capWr = s.io.capWr ++ (if s.cfg.captureRaw then [captureRecord s.par .raw s.corr] else []) ∧
        t.io.outWr = s.io.outWr ++ successLine s.par t.corr d) ∨
     ((∀ w j code d e, j ≤ s.par.schedule.length → ¬AdsbAccepted s.par s.corr.cbufRev.reverse w j code d e) ∧
        t.corr.astatus = .uncorrectable ∧ t.corr.adata = s.corr.adata ∧
        t.io.capWr = s.io.capWr ++ (if s.cfg.captureRaw then [captureRecord s.par .raw s.corr] else []) ++
          (if s.cfg.captureFail then [captureRecord s.par .fail s.corr] else []) ∧
        t.io.outWr = s.io.outWr ++ (if s.cfg.failAdsb then failureLine s.par t.corr else [])))

/-! ## CORR: output -/

/-- R177: `C.COMPLETE` gives `CAP` the RAW record if enabled and then, for a failure, the FAIL record if enabled, and gives
`OUT` the success line, or for a failure the failure line if enabled for the type; nothing else changes. (That the records are
handed over before the line is stated by `RecordWriteBlocksAndFaults`.) -/
def Obligations.CompleteWritesInOrder : Prop :=
  ∀ (s : State) (o : Completion), CorrLive s →
    exec (.cComplete o) s = .next { s with io := { s.io with
      capWr := s.io.capWr ++ (if s.cfg.captureRaw then [captureRecord s.par .raw s.corr] else []) ++
        (if s.cfg.captureFail ∧ o = .failure then [captureRecord s.par .fail s.corr] else []),
      outWr := s.io.outWr ++ (match o with
        | .success d => successLine s.par s.corr d
        | .failure => if (s.corr.htype = .F ∧ s.cfg.failFisb) ∨ (s.corr.htype = .A ∧ s.cfg.failAdsb) then
            failureLine s.par s.corr else []) } }

/-- R188: turning capture on or off changes no byte on `OUT` and no decode result of a packet. -/
def Obligations.CaptureIsSideChannel : Prop :=
  ∀ (s : State) (raw fail : Bool) (i : Instr), CorrLive s → (i = .cFisb ∨ i = .cAdsb) → ∃ t t',
    exec i s = .next t ∧
    exec i { s with cfg := { s.cfg with captureRaw := raw, captureFail := fail } } = .next t' ∧
    t.io.outWr = t'.io.outWr ∧ t.corr = t'.corr ∧ t.demod = t'.demod

/-- R178, R180, R181, R182, R183: the texts of the success and failure lines, field by field; `C.LINE` and `C.FAILLINE` append
them to `OUT` and change nothing else. The model's own: the number written for a status that is `UNSET` is a free value
(log 12), and `RSSI_TEXT` is the parameter's chosen value or else an uninterpreted function of header and samples (log 10). -/
def Obligations.LineTexts : Prop :=
  ∀ (s : State) (d : List Byte), CorrLive s → ∃ rs line fail,
    exec (.cLine d) s = .next { s with io := { s.io with outWr := s.io.outWr ++ line } } ∧
    exec .cFailline s = .next { s with io := { s.io with outWr := s.io.outWr ++ fail } } ∧
    rs = (match s.par.rssiText with
      | some r => rssiBytes r
      | none => rssiBytes (Config.rssiText s.corr.hbuf s.corr.cbufRev.reverse)) ∧
    ∀ lv tm six : List Byte,
      lv = dec (((s.corr.hlevel + 5000) / 10000) / 100) ++ ascii ['.'] ++ decPad (((s.corr.hlevel + 5000) / 10000) % 100) 2 →
      tm = decPad s.corr.hsec 10 ++ ascii ['.'] ++ decPad (s.corr.husec / 1000) 3 →
      six = (ascii [':']).intercalate (s.corr.status.toList.map fun b => decPad (statusNumber b) 2) →
      (s.corr.htype = .F →
        line = ascii "+".toList ++ hex d ++ ascii ";rs=".toList ++ dec s.corr.herr ++ ascii "/".toList ++ six ++
          ascii ";ss=".toList ++ lv ++ ascii "/".toList ++ rs ++ ascii ";t=".toList ++ tm ++ ascii "\n".toList ∧
        fail = ascii "#FAILED-FIS-B rs=".toList ++ dec s.corr.herr ++ ascii "/".toList ++ six ++ ascii ";ss=".toList ++ lv ++
          ascii "/".toList ++ rs ++ ascii ";t=".toList ++ tm ++ ascii " ".toList ++ s.corr.hbuf ++ ascii "\n".toList) ∧
      (s.corr.htype = .A →
        line = ascii "-".toList ++ hex d ++ ascii ";rs=".toList ++ dec s.corr.herr ++ ascii "/".toList ++
          dec (statusNumber s.corr.astatus) ++ ascii ";ss=".toList ++ lv ++ ascii "/".toList ++ rs ++ ascii ";t=".toList ++
          tm ++ ascii "\n".toList ∧
        fail = ascii "#FAILED-ADS-B rs=".toList ++ dec s.corr.herr ++ ascii "/98;ss=".toList ++ lv ++ ascii "/".toList ++
          rs ++ ascii ";t=".toList ++ tm ++ ascii " ".toList ++ s.corr.hbuf ++ ascii "\n".toList)

/-- R61, R184: a line ends with one newline byte and holds no other, the failure line given a header of R76. -/
def Obligations.LinesHoldOneNewline : Prop :=
  ∀ (s t : State) (d : List Byte) (ty : PType), CorrLive s → GoodHeader ty s.corr.hbuf → s.io.outWr = [] →
    (exec (.cLine d) s = .next t ∨ exec .cFailline s = .next t) →
    ∃ text : List Byte, t.io.outWr = text ++ [0x0A] ∧ (0x0A : Byte) ∉ text

/-- R186, R83: a capture record is the header bytes followed by every sample's four little-endian bytes in order, under
the default name `SSSSSSSSSS.MMM.T.i32`; `C.CAPTURE` appends it to `CAP` and changes nothing else. -/
def Obligations.CaptureRecordBytes : Prop :=
  ∀ (s : State) (k : CapKind), CorrLive s → ∃ r : CapRec,
    exec (.cCapture k) s = .next { s with io := { s.io with capWr := s.io.capWr ++ [r] } } ∧ r.kind = k ∧
    (s.par.captureName = .default →
      r.name = decPad s.corr.hsec 10 ++ ascii ".".toList ++ decPad (s.corr.husec / 1000) 3 ++ ascii ".".toList ++
        [typeByte s.corr.htype] ++ ascii ".i32".toList) ∧
    ∃ b : List Byte, r.bytes = s.corr.hbuf ++ b ∧ b.length = 4 * s.corr.cbufRev.length ∧
      ∀ j x, j < s.corr.cbufRev.length → x < 4 →
        b.getD (4 * j + x) 0 = (s.corr.cbufRev.reverse.getD j 0).extractLsb' (8 * x) 8

/-! ## Reset, faults, abort, the whole machine -/

/-- R41, R213: the values reset gives, as the spec's table states them, with the default configuration of R21. -/
def Obligations.ResetValues : Prop :=
  let s := State.reset
  s.demod.i1 = 0 ∧ s.demod.q1 = 0 ∧ s.demod.i2 = 0 ∧ s.demod.q2 = 0 ∧ s.demod.n = 0 ∧
  (∀ j : Fin 72, s.demod.ew[j] = 0) ∧ s.demod.ewp = 0 ∧ s.demod.sum = 0 ∧ s.demod.level = 0 ∧ s.demod.gate = false ∧
  s.demod.ra = 0 ∧ s.demod.rb = 0 ∧ s.demod.ctl = .search ∧ s.demod.fcnt = 0 ∧ s.demod.exit = .none ∧
  s.corr.ctl = .hdr ∧ s.corr.ccnt = 0 ∧ s.corr.hint = 0 ∧ (∀ j : Fin 6, s.corr.status[j] = .unset) ∧
  s.corr.exit = .none ∧ s.io.ch = [] ∧ s.io.chClosed = false ∧
  s.cfg.enableFisb = true ∧ s.cfg.enableAdsb = true ∧ s.cfg.levelThreshold = 900000 ∧ s.cfg.phaseSelect = .best ∧
  s.cfg.fixedBitsEn = true ∧ s.cfg.tzRepairEn = true ∧ s.cfg.candidates = [] ∧ s.cfg.acceptCandidates = true ∧
  s.cfg.failFisb = false ∧ s.cfg.failAdsb = false ∧ s.cfg.captureRaw = false ∧ s.cfg.captureFail = false ∧
  s.cfg.replayMode = false ∧ s.cfg.compat = .none

/-- R22, R191, R192: a reset with no packet type enabled, a candidate not of 6 bytes, a compat mode, or a schedule entry
outside 10, 20, …, 90 halts both agents with `F_ARG` and closed ports, nothing written; any other reset leaves both
running. That a reset of CORR alone (R214) with an illegal configuration faults DEMOD too is the model's choice (log 35),
as is that a `PIPE_CAP` of 0 is not refused (log 34). -/
def Obligations.IllegalConfigHaltsBoth : Prop :=
  ∀ (cfg : Cfg) (par : Params) (alone : Bool),
    ((cfg.enableFisb = true ∨ cfg.enableAdsb = true) ∧ (∀ c, c ∈ cfg.candidates → c.length = 6) ∧ cfg.compat = .none ∧
        (∀ e, e ∈ par.schedule → e.pct ∈ [10, 20, 30, 40, 50, 60, 70, 80, 90]) →
      boot cfg par alone = { State.reset with cfg := cfg, par := par, io := { Io.reset with alone := alone } }) ∧
    (¬((cfg.enableFisb = true ∨ cfg.enableAdsb = true) ∧ (∀ c, c ∈ cfg.candidates → c.length = 6) ∧ cfg.compat = .none ∧
        (∀ e, e ∈ par.schedule → e.pct ∈ [10, 20, 30, 40, 50, 60, 70, 80, 90])) →
      (boot cfg par alone).demod.ctl = .faulted .arg ∧ (boot cfg par alone).corr.ctl = .faulted .arg ∧
      (boot cfg par alone).demod.exit = .nonzero ∧ (boot cfg par alone).corr.exit = .nonzero ∧
      (boot cfg par alone).io.chClosed = true ∧ (boot cfg par alone).io.outClosed = true ∧
      (boot cfg par alone).io.capClosed = true ∧ (boot cfg par alone).io.ch = [] ∧ (boot cfg par alone).io.out = [] ∧
      (boot cfg par alone).io.cap = [])

/-- R195, R199, R202, R205: a fault sets `FAULTED(code)` and `NONZERO`, closes the agent's output ports (and, of CORR, its
read end of `CH`), keeps what was written, drops what was not, and logs one diagnostic; an abort does the same with `ABORTED`
and no diagnostic, and does nothing to an agent that has halted. The other agent's registers stay. That an abort of DEMOD
does so in a run of CORR alone too is the model's choice (log 36). -/
def Obligations.FaultAndAbortHaltAgent : Prop :=
  ∀ (s : State) (code : FCode),
    (let t := raiseFault .demod code s
     t.demod.ctl = .faulted code ∧ t.demod.exit = .nonzero ∧ t.io.chClosed = true ∧ t.io.chWr = [] ∧ t.io.ch = s.io.ch ∧
     t.io.out = s.io.out ∧ t.io.log = s.io.log ++ [.demod] ∧ t.corr = s.corr) ∧
    (let t := raiseFault .corr code s
     t.corr.ctl = .faulted code ∧ t.corr.exit = .nonzero ∧ t.io.outClosed = true ∧ t.io.capClosed = true ∧
     t.io.chBroken = true ∧ t.io.outWr = [] ∧ t.io.capWr = [] ∧ t.io.out = s.io.out ∧ s.io.cap <+: t.io.cap ∧
     t.io.log = s.io.log ++ [.corr] ∧ t.demod = s.demod) ∧
    (∀ sc a, s.script = .abort a :: sc → ∃ t, step s = .next t ∧ t.io.log = s.io.log ∧
      (a = .demod → t.corr = s.corr ∧ (DemodLive s → t.demod.ctl = .aborted ∧ t.demod.exit = .nonzero ∧
        t.io.chClosed = true ∧ t.io.ch = s.io.ch ∧ t.io.chWr = []) ∧ (¬DemodLive s → t = { s with script := sc })) ∧
      (a = .corr → t.demod = s.demod ∧ (CorrLive s → t.corr.ctl = .aborted ∧ t.corr.exit = .nonzero ∧
        t.io.outClosed = true ∧ t.io.out = s.io.out ∧ t.io.outWr = [] ∧ t.io.capClosed = true ∧ t.io.capWr = [] ∧
        s.io.cap <+: t.io.cap ∧ t.io.chBroken = true) ∧ (¬CorrLive s → t = { s with script := sc })))

/-- R62, R63, R187, R196, R202: while a record is being written DEMOD does nothing else: its move, by the host's script or
without one, hands bytes over in order, as many as `CH` has room for and the host lets it; when that is none DEMOD waits, its
state kept, and without a script CORR moves instead; and it raises `F_WRITE` when CORR has closed its end. CORR likewise,
its capture records first, one after the other, and the line once there is none left: a step hands over the record or the
line, or as much of it as the host lets it, waits while the host does not accept bytes, and raises `F_WRITE` when the host
has closed the port. No step of the core puts more unread bytes into `CH` than its capacity. -/
def Obligations.RecordWriteBlocksAndFaults : Prop :=
  (∀ (s : State) (sc : List HostAct) (limit : Option Nat),
    (HostRuns .demod limit sc s ∨ limit = none ∧ DemodMoves sc s) →
    DemodLive s → s.io.alone = false → s.io.chWr ≠ [] →
    (s.io.chBroken = true → step s = .next (raiseFault .demod .write { s with script := sc })) ∧
    (s.io.chBroken = false → ∃ k, k ≤ s.io.chWr.length ∧ (∀ l, limit = some l → k ≤ l) ∧
      (∀ cap, s.par.pipeCap = some cap → k ≤ cap - s.io.ch.length) ∧
      (k = s.io.chWr.length ∨ limit = some k ∨ ∃ cap, s.par.pipeCap = some cap ∧ k = cap - s.io.ch.length) ∧
      (0 < k → step s = .next { s with script := sc, io := { s.io with
        ch := s.io.ch ++ s.io.chWr.take k, chWr := s.io.chWr.drop k } }) ∧
      (k = 0 → (∀ t, step s = .next t → t.demod = s.demod ∧ t.io.chWr = s.io.chWr) ∧
        (s.script ≠ [] → step s = .next { s with script := sc }) ∧
        (s.script = [] → step s = settle s (corrMove none s))))) ∧
  (∀ (s : State) (sc : List HostAct) (limit : Option Nat),
    (HostRuns .corr limit sc s ∨ limit = none ∧ CorrMoves sc s) → CorrLive s →
    (∀ r rest, s.io.capWr = r :: rest →
      (s.io.capRefused = true → step s = .next (raiseFault .corr .write { s with script := sc })) ∧
      (s.io.capRefused = false → s.io.capStall = true → step s = .next { s with script := sc }) ∧
      (s.io.capRefused = false → s.io.capStall = false →
        ((∀ k, limit = some k → r.bytes.length ≤ s.io.capSent + k) →
          step s = .next { s with script := sc, io := { s.io with
            cap := s.io.cap ++ [r], capWr := rest, capSent := 0 } }) ∧
        (∀ k, limit = some k → s.io.capSent + k < r.bytes.length →
          step s = .next { s with script := sc, io := { s.io with capSent := s.io.capSent + k } }))) ∧
    (s.io.capWr = [] → s.io.outWr ≠ [] →
      (s.io.outRefused = true → step s = .next (raiseFault .corr .write { s with script := sc })) ∧
      (s.io.outRefused = false → s.io.outStall = true → step s = .next { s with script := sc }) ∧
      (s.io.outRefused = false → s.io.outStall = false → ∀ k, k = limit.getD s.io.outWr.length →
        step s = .next { s with script := sc, io := { s.io with
          out := s.io.out ++ s.io.outWr.take k, outWr := s.io.outWr.drop k } }))) ∧
  ∀ (s t : State) (cap : Nat), s.par.pipeCap = some cap → s.io.ch.length ≤ cap → step s = .next t → t.io.ch.length ≤ cap

/-- R190, R23: no step of the core changes the record of an agent that has halted, nor the configuration, the parameters
or whether CORR runs alone; and once every agent of the run has halted and the host does nothing more, there is no
further step. -/
def Obligations.HaltedAgentIsFrozen : Prop :=
  (∀ (s t : State), step s = .next t → (¬DemodLive s → t.demod = s.demod) ∧ (¬CorrLive s → t.corr = s.corr) ∧
    t.cfg = s.cfg ∧ t.par = s.par ∧ t.io.alone = s.io.alone) ∧
  ∀ (s : State), s.script = [] → (¬DemodLive s ∨ s.io.alone = true) → ¬CorrLive s → step s = .fault .coreHalted

/-- R190, R73: an operation completes exactly when its agent has not halted (a schedule index it has must be one of the
schedule); an operation of a halted agent is a fault of the model's own (log 22), an index above N is refused (log 21).
An operation of one agent never changes the other's registers, and none changes configuration, parameters, the host's
script or what the host has received. -/
def Obligations.OperationCompletesWhenLive : Prop :=
  ∀ (i : Instr) (s : State),
    (i.indexOk s.par = true →
      (DemodLive s → i.agent = .demod → ∃ t, exec i s = .next t ∧ t.corr = s.corr) ∧
      (CorrLive s → i.agent = .corr → ∃ t, exec i s = .next t ∧ t.demod = s.demod) ∧
      (¬DemodLive s → i.agent = .demod → exec i s = .fault .demodHalted) ∧
      (¬CorrLive s → i.agent = .corr → exec i s = .fault .corrHalted)) ∧
    (i.indexOk s.par = false → exec i s = .refused .scheduleIndex) ∧
    ∀ t, exec i s = .next t → t.cfg = s.cfg ∧ t.par = s.par ∧ t.script = s.script ∧ t.io.out = s.io.out ∧
      t.io.ch = s.io.ch ∧ t.io.inq = s.io.inq ∧ t.io.cin = s.io.cin

/-- R26, R27, R30, R31, R102, R105: every step keeps DEMOD's invariant. -/
def Obligations.StepKeepsDemodInvariant : Prop :=
  ∀ (s t : State), DemodInv s → step s = .next t → DemodInv t

/-- R34, R60, R201: every step keeps CORR's intake invariant and the meaning of the exit statuses. -/
def Obligations.StepKeepsCorrInvariant : Prop :=
  ∀ (s t : State), IntakeInv s.corr → ExitInv s → step s = .next t → IntakeInv t.corr ∧ ExitInv t

/-- R41: the reset state meets every invariant stated here. -/
def Obligations.ResetMeetsInvariants : Prop :=
  DemodInv State.reset ∧ IntakeInv State.reset.corr ∧ ExitInv State.reset ∧ FramingInv State.reset

/-- R197, R202, R60, R62: a CORR fed by DEMOD, DEMOD not being aborted while a record is being written, always stands in
a stream of whole frame records and never takes a framing fault. In runs in which the host breaks its duty of R207 that the
header is well formed, and so that `F_HDR_FORMAT` is never taken, is the model's choice (log 7). -/
def Obligations.DemodNeverBreaksFraming : Prop :=
  ∀ (s t : State), DemodInv s → IntakeInv s.corr → FramingInv s →
    (∀ sc, s.script = .abort .demod :: sc → s.io.chWr = []) → step s = .next t →
    FramingInv t

/-- R227, R226: through a pair the chunk tag reaches nothing but times: two DEMODs that differ only in tags and in the times
already taken from them still do after the same pair (`D.IQ`; `D.CHUNK` and `D.EOF` are not spoken of), the record written by
it differing at most in the header's time field. -/
def Obligations.ChunkTagReachesOnlyTimes : Prop :=
  ∀ (s u : State) (i q : Half), DemodLive s → FrameInv s.demod → FrameInv u.demod → u.cfg = s.cfg → u.par = s.par →
    SameButTime s.demod u.demod → ∃ t v, exec (.dIq i q) s = .next t ∧ exec (.dIq i q) u = .next v ∧
      SameButTime t.demod v.demod ∧ ∃ a b : List Byte, t.io.chWr = s.io.chWr ++ a ∧ v.io.chWr = u.io.chWr ++ b ∧
        a.length = b.length ∧ a.drop 17 = b.drop 17
end

