-- ==== Sys2Proof/Laws/Bytes.lean ====
section
/-! SUPPORT. Little-endian bytes and back (20_memory.md R57, R58). -/

namespace Sys2Proof.Machine

theorem le16_getLsbD (a b : Byte) {i : Nat} :
    (le16 a b).getLsbD i = if i < 8 then a.getLsbD i else b.getLsbD (i - 8) := by
  show (b ++ a : BitVec (8 + 8)).getLsbD i = _
  rw [BitVec.getLsbD_append]

theorem le32_getLsbD (a b c d : Byte) {i : Nat} : (le32 a b c d).getLsbD i =
    if i < 8 then a.getLsbD i else if i < 16 then b.getLsbD (i - 8) else
      if i < 24 then c.getLsbD (i - 16) else d.getLsbD (i - 24) := by
  show (((d ++ c : BitVec (8 + 8)) ++ b : BitVec (8 + 8 + 8)) ++ a : BitVec (8 + 8 + 8 + 8)).getLsbD i = _
  simp only [BitVec.getLsbD_append]
  have e1 : i - 8 - 8 = i - 16 := by omega
  have e2 : i - 8 - 8 - 8 = i - 24 := by omega
  rw [e2, e1]
  by_cases h1 : i < 8
  · simp [h1]
  · by_cases h2 : i < 16
    · simp [h1, h2, show i - 8 < 8 by omega]
    · by_cases h3 : i < 24
      · simp [h1, h2, h3, show ¬ i - 8 < 8 by omega, show i - 16 < 8 by omega]
      · simp [h1, h2, h3, show ¬ i - 8 < 8 by omega, show ¬ i - 16 < 8 by omega]

/-- The bytes of the int16 read from two bytes are those bytes. -/
theorem halfBytes_le16 (a b : Byte) : halfBytes (le16 a b) = [a, b] := by
  unfold halfBytes
  congr 1
  · apply BitVec.eq_of_getLsbD_eq
    intro i hi
    simp [le16_getLsbD, hi]
  · congr 1
    apply BitVec.eq_of_getLsbD_eq
    intro i hi
    simp [le16_getLsbD, hi]

/-- An int16 is read from its bytes. -/
theorem le16_halfBytes (v : Half) : le16 (v.extractLsb' 0 8) (v.extractLsb' 8 8) = v := by
  apply BitVec.eq_of_getLsbD_eq
  intro i hi
  rw [le16_getLsbD]
  split
  · simp [*]
  · simp only [BitVec.getLsbD_extractLsb']
    rw [show 8 + (i - 8) = i by omega]
    simp; omega

/-- The bytes of the int32 read from four bytes are those bytes. -/
theorem sampleBytes_le32 (a b c d : Byte) : sampleBytes (le32 a b c d) = [a, b, c, d] := by
  unfold sampleBytes
  congr 1
  · apply BitVec.eq_of_getLsbD_eq; intro i hi
    simp [le32_getLsbD, hi]
  · congr 1
    · apply BitVec.eq_of_getLsbD_eq; intro i hi
      simp only [BitVec.getLsbD_extractLsb', le32_getLsbD]
      rw [if_neg (by omega), if_pos (by omega), show 8 + i - 8 = i by omega]; simp [hi]
    · congr 1
      · apply BitVec.eq_of_getLsbD_eq; intro i hi
        simp only [BitVec.getLsbD_extractLsb', le32_getLsbD]
        rw [if_neg (by omega), if_neg (by omega), if_pos (by omega), show 16 + i - 16 = i by omega]; simp [hi]
      · congr 1
        apply BitVec.eq_of_getLsbD_eq; intro i hi
        simp only [BitVec.getLsbD_extractLsb', le32_getLsbD]
        rw [if_neg (by omega), if_neg (by omega), if_neg (by omega), show 24 + i - 24 = i by omega]; simp [hi]

/-- An int32 is read from its bytes. -/
theorem le32_sampleBytes (v : Sample) :
    le32 (v.extractLsb' 0 8) (v.extractLsb' 8 8) (v.extractLsb' 16 8) (v.extractLsb' 24 8) = v := by
  apply BitVec.eq_of_getLsbD_eq
  intro i hi
  rw [le32_getLsbD]
  simp only [BitVec.getLsbD_extractLsb']
  split
  · simp [*]
  · split
    · rw [show 8 + (i - 8) = i by omega]; simp; omega
    · split
      · rw [show 16 + (i - 16) = i by omega]; simp; omega
      · rw [show 24 + (i - 24) = i by omega]; simp; omega

end Sys2Proof.Machine
end

