-- ==== Sys2Proof/Laws/Lists.lean ====
section
/-! SUPPORT. Positions: where a byte, a bit or a sample of an input ends up in what the list operations build from it
(samples to bytes, taps, groups of eight, packing, deinterleaving). -/

namespace Sys2Proof.Machine

/-! Samples to bytes. -/

@[simp] theorem sampleBytes_length (v : Sample) : (sampleBytes v).length = 4 := rfl

theorem sampleBytes_getD (v : Sample) {b : Nat} (hb : b < 4) : (sampleBytes v).getD b 0 = v.extractLsb' (8 * b) 8 := by
  have : b = 0 ∨ b = 1 ∨ b = 2 ∨ b = 3 := by omega
  rcases this with rfl | rfl | rfl | rfl <;> rfl

@[simp] theorem samplesBytes_nil : samplesBytes [] = [] := rfl

@[simp] theorem samplesBytes_cons (v : Sample) (l : List Sample) :
    samplesBytes (v :: l) = sampleBytes v ++ samplesBytes l := rfl

@[simp] theorem samplesBytes_length (l : List Sample) : (samplesBytes l).length = 4 * l.length := by
  induction l with
  | nil => rfl
  | cons v l ih => simp [ih]; omega

/-- Byte `4j + b` is byte `b` of sample `j`. -/
theorem samplesBytes_getD (l : List Sample) {j b : Nat} (hj : j < l.length) (hb : b < 4) :
    (samplesBytes l).getD (4 * j + b) 0 = (l.getD j 0).extractLsb' (8 * b) 8 := by
  induction l generalizing j with
  | nil => simp at hj
  | cons v l ih =>
    rw [samplesBytes_cons]
    cases j with
    | zero =>
      rw [List.getD_append _ _ _ _ (by simp; omega)]
      simpa using sampleBytes_getD v hb
    | succ j =>
      rw [List.getD_append_right _ _ _ _ (by simp; omega)]
      have : 4 * (j + 1) + b - (sampleBytes v).length = 4 * j + b := by simp; omega
      rw [this, ih (by simpa using hj)]
      rfl

/-! Taps. -/

@[simp] theorem taps_length (n : Nat) (l : List Sample) : (taps n l).length = n := by
  induction n generalizing l with
  | zero => rfl
  | succ n ih => simp [taps, ih]

/-- Tap `k` has elements `2k`, `2k+1`, `2k+2`. -/
theorem taps_getElem? (n : Nat) (l : List Sample) {k : Nat} (hk : k < n) :
    (taps n l)[k]? = some ⟨l.getD (2 * k) 0, l.getD (2 * k + 1) 0, l.getD (2 * k + 2) 0⟩ := by
  induction n generalizing l k with
  | zero => omega
  | succ n ih =>
    cases k with
    | zero => simp [taps, List.headD_eq_head?_getD, List.getD_eq_getElem?_getD, List.head?_eq_getElem?]
    | succ k =>
      rw [taps, List.getElem?_cons_succ, ih _ (by omega)]
      simp only [List.getD_eq_getElem?_getD, List.getElem?_drop]
      have e1 : 2 + 2 * k = 2 * (k + 1) := by omega
      have e2 : 2 + (2 * k + 1) = 2 * (k + 1) + 1 := by omega
      have e3 : 2 + (2 * k + 2) = 2 * (k + 1) + 2 := by omega
      rw [e1, e2, e3]

@[simp] theorem windowTaps_length (w : Window) (t : PType) (cb : List Sample) :
    (windowTaps w t cb).length = payloadBits t := taps_length _ _

/-- Tap `k` of window `w` has elements `2k + w`, `2k + 1 + w`, `2k + 2 + w` (42_slicer_deinterleaver.md R136). -/
theorem windowTaps_getElem? (w : Window) (t : PType) (cb : List Sample) {k : Nat} (hk : k < payloadBits t) :
    (windowTaps w t cb)[k]? = some ⟨cb.getD (2 * k + windowOffset w) 0, cb.getD (2 * k + 1 + windowOffset w) 0,
      cb.getD (2 * k + 2 + windowOffset w) 0⟩ := by
  rw [windowTaps, taps_getElem? _ _ hk]
  simp only [List.getD_eq_getElem?_getD, List.getElem?_drop]
  rw [Nat.add_comm (windowOffset w), Nat.add_comm (windowOffset w), Nat.add_comm (windowOffset w)]

@[simp] theorem variantBits_length (par : Params) (w : Window) (j : Nat) (t : PType) (cb : List Sample) :
    (variantBits par w j t cb).length = payloadBits t := by
  simp [variantBits]

/-! Groups of eight and packing. -/

theorem groups8_append {α : Type} (f : Nat) (a l : List α) (ha : a.length = 8) :
    groups8 (f + 1) (a ++ l) = a :: groups8 f l := by
  cases h : a ++ l with
  | nil => simp_all
  | cons x r =>
    rw [groups8, ← h]
    · simp [← ha]
    · simp

/-- With `8k` elements there are `k` groups. -/
theorem groups8_length {α : Type} (f : Nat) (l : List α) (k : Nat) (h : l.length = 8 * k) (hf : k ≤ f) :
    (groups8 f l).length = k := by
  induction k generalizing f l with
  | zero => cases f <;> simp_all [groups8]
  | succ k ih =>
    obtain ⟨f, rfl⟩ : ∃ g, f = g + 1 := ⟨f - 1, by omega⟩
    rw [← List.take_append_drop 8 l, groups8_append _ _ _ (by simp; omega), List.length_cons,
      ih f _ (by simp; omega) (by omega)]

/-- Group `j` is elements `8j .. 8j+7`. -/
theorem groups8_getElem? {α : Type} (f : Nat) (l : List α) (k : Nat) (h : l.length = 8 * k) (hf : k ≤ f) {j : Nat}
    (hj : j < k) : (groups8 f l)[j]? = some ((l.drop (8 * j)).take 8) := by
  induction k generalizing f l j with
  | zero => omega
  | succ k ih =>
    obtain ⟨f, rfl⟩ : ∃ g, f = g + 1 := ⟨f - 1, by omega⟩
    rw [← List.take_append_drop 8 l, groups8_append _ _ _ (by simp; omega)]
    cases j with
    | zero => simp
    | succ j =>
      rw [List.getElem?_cons_succ, ih f _ (by simp; omega) (by omega) (by omega)]
      simp only [List.take_append_drop, List.drop_drop]
      rw [show 8 + 8 * j = 8 * (j + 1) by omega]

theorem packByte_getLsbD (b : List Bool) (hb : b.length = 8) {i : Nat} (hi : i < 8) :
    (packByte b).getLsbD (7 - i) = b.getD i false := by
  match b, hb with
  | [b0, b1, b2, b3, b4, b5, b6, b7], _ =>
    have : ∀ i : Fin 8, ∀ b0 b1 b2 b3 b4 b5 b6 b7, (packByte [b0, b1, b2, b3, b4, b5, b6, b7]).getLsbD (7 - i.val) =
        [b0, b1, b2, b3, b4, b5, b6, b7].getD i.val false := by decide +kernel
    exact this ⟨i, hi⟩ b0 b1 b2 b3 b4 b5 b6 b7

@[simp] theorem packBits_length {b : List Bool} {k : Nat} (h : b.length = 8 * k) : (packBits b).length = k := by
  rw [packBits, List.length_map, groups8_length _ _ k h (by omega)]

/-- Bit `7 - i` of byte `j` is bit `8j + i` of the stream (42_slicer_deinterleaver.md R139). -/
theorem packBits_getLsbD {b : List Bool} {k : Nat} (h : b.length = 8 * k) {j i : Nat} (hj : j < k) (hi : i < 8) :
    ((packBits b).getD j 0).getLsbD (7 - i) = b.getD (8 * j + i) false := by
  rw [List.getD_eq_getElem?_getD, packBits, List.getElem?_map, groups8_getElem? _ _ k h (by omega) hj]
  simp only [Option.map_some, Option.getD_some]
  rw [packByte_getLsbD _ (by simp; omega) hi]
  simp [List.getD_eq_getElem?_getD, hi]

/-! Deinterleaving. -/

theorem sixths_getElem? {α : Type} (f : Nat) (l : List α) (t : Nat) (hf : l.length ≤ 6 * f) :
    (sixths f l)[t]? = l[6 * t]? := by
  induction f generalizing l t with
  | zero => have : l = [] := List.length_eq_zero_iff.mp (by omega); simp [this, sixths]
  | succ f ih =>
    cases l with
    | nil => simp [sixths]
    | cons a l =>
      rw [sixths]
      cases t with
      | zero => simp
      | succ t =>
        rw [List.getElem?_cons_succ, ih _ _ (by simp at *; omega), List.getElem?_drop]
        have : 6 * (t + 1) = (5 + 6 * t) + 1 := by omega
        rw [this, List.getElem?_cons_succ]

/-- Element `t` of block `i` is element `6t + i` (42_slicer_deinterleaver.md R140). -/
theorem blockOf_getElem? {α : Type} (i : Fin 6) (y : List α) (t : Nat) : (blockOf i y)[t]? = y[6 * t + i.val]? := by
  rw [blockOf, sixths_getElem? _ _ _ (by simp; omega), List.getElem?_drop, Nat.add_comm]

theorem blockOf_length {α : Type} (i : Fin 6) (y : List α) (k : Nat) (h : y.length = 6 * k) :
    (blockOf i y).length = k := by
  apply Nat.le_antisymm
  · have := (List.getElem?_eq_none_iff (l := blockOf i y) (i := k)).mp (by
      rw [blockOf_getElem?]; exact List.getElem?_eq_none_iff.mpr (by omega))
    exact this
  · rcases k with _ | k
    · omega
    · have : (blockOf i y)[k]? ≠ none := by
        rw [blockOf_getElem?]
        intro hn
        have := List.getElem?_eq_none_iff.mp hn
        have := i.isLt
        omega
      have := mt List.getElem?_eq_none_iff.mpr this
      omega

theorem blockOf_getD {α : Type} (i : Fin 6) (y : List α) (t : Nat) (d : α) :
    (blockOf i y).getD t d = y.getD (6 * t + i.val) d := by
  rw [List.getD_eq_getElem?_getD, List.getD_eq_getElem?_getD, blockOf_getElem?]

theorem variantBytes_length_F (par : Params) (w : Window) (j : Nat) (cb : List Sample) :
    (variantBytes par w j .F cb).length = 552 :=
  packBits_length (by rw [variantBits_length]; rfl)

theorem variantBytes_length_A (par : Params) (w : Window) (j : Nat) (cb : List Sample) :
    (variantBytes par w j .A cb).length = 48 :=
  packBits_length (by rw [variantBits_length]; rfl)

@[simp] theorem variantBlock_length (par : Params) (i : Fin 6) (w : Window) (j : Nat) (cb : List Sample) :
    (variantBlock par i w j cb).length = 92 :=
  blockOf_length i _ 92 (variantBytes_length_F par w j cb)

end Sys2Proof.Machine
end

