-- ==== Sys2Proof/Laws/State.lean ====
section
/-! SUPPORT. Fields under updates: for each operation of the model that writes some fields of a record, one lemma per
field, true by `rfl`, so that no later proof unfolds the operation for a field. -/

namespace Sys2Proof.Machine

/-! `rollPair` -/

@[simp] theorem rollPair_i1 (d : Demod) (i q : Half) : (rollPair d i q).i1 = i := rfl
@[simp] theorem rollPair_q1 (d : Demod) (i q : Half) : (rollPair d i q).q1 = q := rfl
@[simp] theorem rollPair_i2 (d : Demod) (i q : Half) : (rollPair d i q).i2 = d.i1 := rfl
@[simp] theorem rollPair_q2 (d : Demod) (i q : Half) : (rollPair d i q).q2 = d.q1 := rfl
@[simp] theorem rollPair_n (d : Demod) (i q : Half) : (rollPair d i q).n = d.n := rfl
@[simp] theorem rollPair_ew (d : Demod) (i q : Half) : (rollPair d i q).ew = d.ew := rfl
@[simp] theorem rollPair_ewp (d : Demod) (i q : Half) : (rollPair d i q).ewp = d.ewp := rfl
@[simp] theorem rollPair_sum (d : Demod) (i q : Half) : (rollPair d i q).sum = d.sum := rfl
@[simp] theorem rollPair_level (d : Demod) (i q : Half) : (rollPair d i q).level = d.level := rfl
@[simp] theorem rollPair_gate (d : Demod) (i q : Half) : (rollPair d i q).gate = d.gate := rfl
@[simp] theorem rollPair_ra (d : Demod) (i q : Half) : (rollPair d i q).ra = d.ra := rfl
@[simp] theorem rollPair_rb (d : Demod) (i q : Half) : (rollPair d i q).rb = d.rb := rfl
@[simp] theorem rollPair_ctl (d : Demod) (i q : Half) : (rollPair d i q).ctl = d.ctl := rfl
@[simp] theorem rollPair_ftype (d : Demod) (i q : Half) : (rollPair d i q).ftype = d.ftype := rfl
@[simp] theorem rollPair_flen (d : Demod) (i q : Half) : (rollPair d i q).flen = d.flen := rfl
@[simp] theorem rollPair_fcnt (d : Demod) (i q : Half) : (rollPair d i q).fcnt = d.fcnt := rfl
@[simp] theorem rollPair_frameRev (d : Demod) (i q : Half) : (rollPair d i q).frameRev = d.frameRev := rfl
@[simp] theorem rollPair_fhdr (d : Demod) (i q : Half) : (rollPair d i q).fhdr = d.fhdr := rfl
@[simp] theorem rollPair_csec (d : Demod) (i q : Half) : (rollPair d i q).csec = d.csec := rfl
@[simp] theorem rollPair_cusec (d : Demod) (i q : Half) : (rollPair d i q).cusec = d.cusec := rfl
@[simp] theorem rollPair_cidx (d : Demod) (i q : Half) : (rollPair d i q).cidx = d.cidx := rfl
@[simp] theorem rollPair_stamps (d : Demod) (i q : Half) : (rollPair d i q).stamps = d.stamps := rfl
@[simp] theorem rollPair_ibuf (d : Demod) (i q : Half) : (rollPair d i q).ibuf = d.ibuf := rfl
@[simp] theorem rollPair_exit (d : Demod) (i q : Half) : (rollPair d i q).exit = d.exit := rfl

/-! `energyStep` -/

@[simp] theorem energyStep_i1 (v : Sample) (d : Demod) : (energyStep v d).i1 = d.i1 := rfl
@[simp] theorem energyStep_q1 (v : Sample) (d : Demod) : (energyStep v d).q1 = d.q1 := rfl
@[simp] theorem energyStep_i2 (v : Sample) (d : Demod) : (energyStep v d).i2 = d.i2 := rfl
@[simp] theorem energyStep_q2 (v : Sample) (d : Demod) : (energyStep v d).q2 = d.q2 := rfl
@[simp] theorem energyStep_n (v : Sample) (d : Demod) : (energyStep v d).n = d.n := rfl
@[simp] theorem energyStep_ew (v : Sample) (d : Demod) : (energyStep v d).ew = d.ew.set d.ewp v := rfl
@[simp] theorem energyStep_ewp (v : Sample) (d : Demod) : (energyStep v d).ewp = d.ewp + 1 := rfl
@[simp] theorem energyStep_sum (v : Sample) (d : Demod) : (energyStep v d).sum = d.sum - magnitude d.ew[d.ewp] + magnitude v := rfl
@[simp] theorem energyStep_level (v : Sample) (d : Demod) : (energyStep v d).level = d.level := rfl
@[simp] theorem energyStep_gate (v : Sample) (d : Demod) : (energyStep v d).gate = d.gate := rfl
@[simp] theorem energyStep_ra (v : Sample) (d : Demod) : (energyStep v d).ra = d.ra := rfl
@[simp] theorem energyStep_rb (v : Sample) (d : Demod) : (energyStep v d).rb = d.rb := rfl
@[simp] theorem energyStep_ctl (v : Sample) (d : Demod) : (energyStep v d).ctl = d.ctl := rfl
@[simp] theorem energyStep_ftype (v : Sample) (d : Demod) : (energyStep v d).ftype = d.ftype := rfl
@[simp] theorem energyStep_flen (v : Sample) (d : Demod) : (energyStep v d).flen = d.flen := rfl
@[simp] theorem energyStep_fcnt (v : Sample) (d : Demod) : (energyStep v d).fcnt = d.fcnt := rfl
@[simp] theorem energyStep_frameRev (v : Sample) (d : Demod) : (energyStep v d).frameRev = d.frameRev := rfl
@[simp] theorem energyStep_fhdr (v : Sample) (d : Demod) : (energyStep v d).fhdr = d.fhdr := rfl
@[simp] theorem energyStep_csec (v : Sample) (d : Demod) : (energyStep v d).csec = d.csec := rfl
@[simp] theorem energyStep_cusec (v : Sample) (d : Demod) : (energyStep v d).cusec = d.cusec := rfl
@[simp] theorem energyStep_cidx (v : Sample) (d : Demod) : (energyStep v d).cidx = d.cidx := rfl
@[simp] theorem energyStep_stamps (v : Sample) (d : Demod) : (energyStep v d).stamps = d.stamps := rfl
@[simp] theorem energyStep_ibuf (v : Sample) (d : Demod) : (energyStep v d).ibuf = d.ibuf := rfl
@[simp] theorem energyStep_exit (v : Sample) (d : Demod) : (energyStep v d).exit = d.exit := rfl

/-! `gateStep` -/

@[simp] theorem gateStep_i1 (cfg : Cfg) (d : Demod) : (gateStep cfg d).i1 = d.i1 := rfl
@[simp] theorem gateStep_q1 (cfg : Cfg) (d : Demod) : (gateStep cfg d).q1 = d.q1 := rfl
@[simp] theorem gateStep_i2 (cfg : Cfg) (d : Demod) : (gateStep cfg d).i2 = d.i2 := rfl
@[simp] theorem gateStep_q2 (cfg : Cfg) (d : Demod) : (gateStep cfg d).q2 = d.q2 := rfl
@[simp] theorem gateStep_n (cfg : Cfg) (d : Demod) : (gateStep cfg d).n = d.n := rfl
@[simp] theorem gateStep_ew (cfg : Cfg) (d : Demod) : (gateStep cfg d).ew = d.ew := rfl
@[simp] theorem gateStep_ewp (cfg : Cfg) (d : Demod) : (gateStep cfg d).ewp = d.ewp := rfl
@[simp] theorem gateStep_sum (cfg : Cfg) (d : Demod) : (gateStep cfg d).sum = d.sum := rfl
@[simp] theorem gateStep_level (cfg : Cfg) (d : Demod) : (gateStep cfg d).level = levelOf d.sum := rfl
@[simp] theorem gateStep_gate (cfg : Cfg) (d : Demod) : (gateStep cfg d).gate = gateOf (levelOf d.sum) cfg.levelThreshold := rfl
@[simp] theorem gateStep_ra (cfg : Cfg) (d : Demod) : (gateStep cfg d).ra = d.ra := rfl
@[simp] theorem gateStep_rb (cfg : Cfg) (d : Demod) : (gateStep cfg d).rb = d.rb := rfl
@[simp] theorem gateStep_ctl (cfg : Cfg) (d : Demod) : (gateStep cfg d).ctl = d.ctl := rfl
@[simp] theorem gateStep_ftype (cfg : Cfg) (d : Demod) : (gateStep cfg d).ftype = d.ftype := rfl
@[simp] theorem gateStep_flen (cfg : Cfg) (d : Demod) : (gateStep cfg d).flen = d.flen := rfl
@[simp] theorem gateStep_fcnt (cfg : Cfg) (d : Demod) : (gateStep cfg d).fcnt = d.fcnt := rfl
@[simp] theorem gateStep_frameRev (cfg : Cfg) (d : Demod) : (gateStep cfg d).frameRev = d.frameRev := rfl
@[simp] theorem gateStep_fhdr (cfg : Cfg) (d : Demod) : (gateStep cfg d).fhdr = d.fhdr := rfl
@[simp] theorem gateStep_csec (cfg : Cfg) (d : Demod) : (gateStep cfg d).csec = d.csec := rfl
@[simp] theorem gateStep_cusec (cfg : Cfg) (d : Demod) : (gateStep cfg d).cusec = d.cusec := rfl
@[simp] theorem gateStep_cidx (cfg : Cfg) (d : Demod) : (gateStep cfg d).cidx = d.cidx := rfl
@[simp] theorem gateStep_stamps (cfg : Cfg) (d : Demod) : (gateStep cfg d).stamps = d.stamps := rfl
@[simp] theorem gateStep_ibuf (cfg : Cfg) (d : Demod) : (gateStep cfg d).ibuf = d.ibuf := rfl
@[simp] theorem gateStep_exit (cfg : Cfg) (d : Demod) : (gateStep cfg d).exit = d.exit := rfl

/-! `latchTag` -/

@[simp] theorem latchTag_i1 (sec usec : Nat) (d : Demod) : (latchTag sec usec d).i1 = d.i1 := rfl
@[simp] theorem latchTag_q1 (sec usec : Nat) (d : Demod) : (latchTag sec usec d).q1 = d.q1 := rfl
@[simp] theorem latchTag_i2 (sec usec : Nat) (d : Demod) : (latchTag sec usec d).i2 = d.i2 := rfl
@[simp] theorem latchTag_q2 (sec usec : Nat) (d : Demod) : (latchTag sec usec d).q2 = d.q2 := rfl
@[simp] theorem latchTag_n (sec usec : Nat) (d : Demod) : (latchTag sec usec d).n = d.n := rfl
@[simp] theorem latchTag_ew (sec usec : Nat) (d : Demod) : (latchTag sec usec d).ew = d.ew := rfl
@[simp] theorem latchTag_ewp (sec usec : Nat) (d : Demod) : (latchTag sec usec d).ewp = d.ewp := rfl
@[simp] theorem latchTag_sum (sec usec : Nat) (d : Demod) : (latchTag sec usec d).sum = d.sum := rfl
@[simp] theorem latchTag_level (sec usec : Nat) (d : Demod) : (latchTag sec usec d).level = d.level := rfl
@[simp] theorem latchTag_gate (sec usec : Nat) (d : Demod) : (latchTag sec usec d).gate = d.gate := rfl
@[simp] theorem latchTag_ra (sec usec : Nat) (d : Demod) : (latchTag sec usec d).ra = d.ra := rfl
@[simp] theorem latchTag_rb (sec usec : Nat) (d : Demod) : (latchTag sec usec d).rb = d.rb := rfl
@[simp] theorem latchTag_ctl (sec usec : Nat) (d : Demod) : (latchTag sec usec d).ctl = d.ctl := rfl
@[simp] theorem latchTag_ftype (sec usec : Nat) (d : Demod) : (latchTag sec usec d).ftype = d.ftype := rfl
@[simp] theorem latchTag_flen (sec usec : Nat) (d : Demod) : (latchTag sec usec d).flen = d.flen := rfl
@[simp] theorem latchTag_fcnt (sec usec : Nat) (d : Demod) : (latchTag sec usec d).fcnt = d.fcnt := rfl
@[simp] theorem latchTag_frameRev (sec usec : Nat) (d : Demod) : (latchTag sec usec d).frameRev = d.frameRev := rfl
@[simp] theorem latchTag_fhdr (sec usec : Nat) (d : Demod) : (latchTag sec usec d).fhdr = d.fhdr := rfl
@[simp] theorem latchTag_csec (sec usec : Nat) (d : Demod) : (latchTag sec usec d).csec = sec := rfl
@[simp] theorem latchTag_cusec (sec usec : Nat) (d : Demod) : (latchTag sec usec d).cusec = usec := rfl
@[simp] theorem latchTag_cidx (sec usec : Nat) (d : Demod) : (latchTag sec usec d).cidx = 0 := rfl
@[simp] theorem latchTag_stamps (sec usec : Nat) (d : Demod) : (latchTag sec usec d).stamps = d.stamps := rfl
@[simp] theorem latchTag_ibuf (sec usec : Nat) (d : Demod) : (latchTag sec usec d).ibuf = d.ibuf := rfl
@[simp] theorem latchTag_exit (sec usec : Nat) (d : Demod) : (latchTag sec usec d).exit = d.exit := rfl

/-! `countStamp` -/

@[simp] theorem countStamp_i1 (d : Demod) : (countStamp d).i1 = d.i1 := rfl
@[simp] theorem countStamp_q1 (d : Demod) : (countStamp d).q1 = d.q1 := rfl
@[simp] theorem countStamp_i2 (d : Demod) : (countStamp d).i2 = d.i2 := rfl
@[simp] theorem countStamp_q2 (d : Demod) : (countStamp d).q2 = d.q2 := rfl
@[simp] theorem countStamp_n (d : Demod) : (countStamp d).n = d.n := rfl
@[simp] theorem countStamp_ew (d : Demod) : (countStamp d).ew = d.ew := rfl
@[simp] theorem countStamp_ewp (d : Demod) : (countStamp d).ewp = d.ewp := rfl
@[simp] theorem countStamp_sum (d : Demod) : (countStamp d).sum = d.sum := rfl
@[simp] theorem countStamp_level (d : Demod) : (countStamp d).level = d.level := rfl
@[simp] theorem countStamp_gate (d : Demod) : (countStamp d).gate = d.gate := rfl
@[simp] theorem countStamp_ra (d : Demod) : (countStamp d).ra = d.ra := rfl
@[simp] theorem countStamp_rb (d : Demod) : (countStamp d).rb = d.rb := rfl
@[simp] theorem countStamp_ctl (d : Demod) : (countStamp d).ctl = d.ctl := rfl
@[simp] theorem countStamp_ftype (d : Demod) : (countStamp d).ftype = d.ftype := rfl
@[simp] theorem countStamp_flen (d : Demod) : (countStamp d).flen = d.flen := rfl
@[simp] theorem countStamp_fcnt (d : Demod) : (countStamp d).fcnt = d.fcnt := rfl
@[simp] theorem countStamp_frameRev (d : Demod) : (countStamp d).frameRev = d.frameRev := rfl
@[simp] theorem countStamp_fhdr (d : Demod) : (countStamp d).fhdr = d.fhdr := rfl
@[simp] theorem countStamp_csec (d : Demod) : (countStamp d).csec = d.csec := rfl
@[simp] theorem countStamp_cusec (d : Demod) : (countStamp d).cusec = d.cusec := rfl
@[simp] theorem countStamp_cidx (d : Demod) : (countStamp d).cidx = d.cidx := rfl
@[simp] theorem countStamp_stamps (d : Demod) : (countStamp d).stamps = d.stamps + 1 := rfl
@[simp] theorem countStamp_ibuf (d : Demod) : (countStamp d).ibuf = d.ibuf := rfl
@[simp] theorem countStamp_exit (d : Demod) : (countStamp d).exit = d.exit := rfl

/-! `selectStep` -/

@[simp] theorem selectStep_i1 (c : Cand) (d : Demod) : (selectStep c d).i1 = d.i1 := rfl
@[simp] theorem selectStep_q1 (c : Cand) (d : Demod) : (selectStep c d).q1 = d.q1 := rfl
@[simp] theorem selectStep_i2 (c : Cand) (d : Demod) : (selectStep c d).i2 = d.i2 := rfl
@[simp] theorem selectStep_q2 (c : Cand) (d : Demod) : (selectStep c d).q2 = d.q2 := rfl
@[simp] theorem selectStep_n (c : Cand) (d : Demod) : (selectStep c d).n = d.n := rfl
@[simp] theorem selectStep_ew (c : Cand) (d : Demod) : (selectStep c d).ew = d.ew := rfl
@[simp] theorem selectStep_ewp (c : Cand) (d : Demod) : (selectStep c d).ewp = d.ewp := rfl
@[simp] theorem selectStep_sum (c : Cand) (d : Demod) : (selectStep c d).sum = d.sum := rfl
@[simp] theorem selectStep_level (c : Cand) (d : Demod) : (selectStep c d).level = d.level := rfl
@[simp] theorem selectStep_gate (c : Cand) (d : Demod) : (selectStep c d).gate = d.gate := rfl
@[simp] theorem selectStep_ra (c : Cand) (d : Demod) : (selectStep c d).ra = 0 := rfl
@[simp] theorem selectStep_rb (c : Cand) (d : Demod) : (selectStep c d).rb = 0 := rfl
@[simp] theorem selectStep_ctl (c : Cand) (d : Demod) : (selectStep c d).ctl = .emitting := rfl
@[simp] theorem selectStep_ftype (c : Cand) (d : Demod) : (selectStep c d).ftype = c.type := rfl
@[simp] theorem selectStep_flen (c : Cand) (d : Demod) : (selectStep c d).flen = frameLen c.type := rfl
@[simp] theorem selectStep_fcnt (c : Cand) (d : Demod) : (selectStep c d).fcnt = 0 := rfl
@[simp] theorem selectStep_frameRev (c : Cand) (d : Demod) : (selectStep c d).frameRev = [] := rfl
@[simp] theorem selectStep_fhdr (c : Cand) (d : Demod) : (selectStep c d).fhdr = headerBytes c := rfl
@[simp] theorem selectStep_csec (c : Cand) (d : Demod) : (selectStep c d).csec = d.csec := rfl
@[simp] theorem selectStep_cusec (c : Cand) (d : Demod) : (selectStep c d).cusec = d.cusec := rfl
@[simp] theorem selectStep_cidx (c : Cand) (d : Demod) : (selectStep c d).cidx = d.cidx := rfl
@[simp] theorem selectStep_stamps (c : Cand) (d : Demod) : (selectStep c d).stamps = d.stamps := rfl
@[simp] theorem selectStep_ibuf (c : Cand) (d : Demod) : (selectStep c d).ibuf = d.ibuf := rfl
@[simp] theorem selectStep_exit (c : Cand) (d : Demod) : (selectStep c d).exit = d.exit := rfl

/-! `setPhase` -/

@[simp] theorem setPhase_i1 (p : Phase) (v : Word64) (d : Demod) : (setPhase p v d).i1 = d.i1 := by cases p <;> rfl
@[simp] theorem setPhase_q1 (p : Phase) (v : Word64) (d : Demod) : (setPhase p v d).q1 = d.q1 := by cases p <;> rfl
@[simp] theorem setPhase_i2 (p : Phase) (v : Word64) (d : Demod) : (setPhase p v d).i2 = d.i2 := by cases p <;> rfl
@[simp] theorem setPhase_q2 (p : Phase) (v : Word64) (d : Demod) : (setPhase p v d).q2 = d.q2 := by cases p <;> rfl
@[simp] theorem setPhase_n (p : Phase) (v : Word64) (d : Demod) : (setPhase p v d).n = d.n := by cases p <;> rfl
@[simp] theorem setPhase_ew (p : Phase) (v : Word64) (d : Demod) : (setPhase p v d).ew = d.ew := by cases p <;> rfl
@[simp] theorem setPhase_ewp (p : Phase) (v : Word64) (d : Demod) : (setPhase p v d).ewp = d.ewp := by cases p <;> rfl
@[simp] theorem setPhase_sum (p : Phase) (v : Word64) (d : Demod) : (setPhase p v d).sum = d.sum := by cases p <;> rfl
@[simp] theorem setPhase_level (p : Phase) (v : Word64) (d : Demod) : (setPhase p v d).level = d.level := by cases p <;> rfl
@[simp] theorem setPhase_gate (p : Phase) (v : Word64) (d : Demod) : (setPhase p v d).gate = d.gate := by cases p <;> rfl
@[simp] theorem setPhase_ctl (p : Phase) (v : Word64) (d : Demod) : (setPhase p v d).ctl = d.ctl := by cases p <;> rfl
@[simp] theorem setPhase_ftype (p : Phase) (v : Word64) (d : Demod) : (setPhase p v d).ftype = d.ftype := by cases p <;> rfl
@[simp] theorem setPhase_flen (p : Phase) (v : Word64) (d : Demod) : (setPhase p v d).flen = d.flen := by cases p <;> rfl
@[simp] theorem setPhase_fcnt (p : Phase) (v : Word64) (d : Demod) : (setPhase p v d).fcnt = d.fcnt := by cases p <;> rfl
@[simp] theorem setPhase_frameRev (p : Phase) (v : Word64) (d : Demod) : (setPhase p v d).frameRev = d.frameRev := by cases p <;> rfl
@[simp] theorem setPhase_fhdr (p : Phase) (v : Word64) (d : Demod) : (setPhase p v d).fhdr = d.fhdr := by cases p <;> rfl
@[simp] theorem setPhase_csec (p : Phase) (v : Word64) (d : Demod) : (setPhase p v d).csec = d.csec := by cases p <;> rfl
@[simp] theorem setPhase_cusec (p : Phase) (v : Word64) (d : Demod) : (setPhase p v d).cusec = d.cusec := by cases p <;> rfl
@[simp] theorem setPhase_cidx (p : Phase) (v : Word64) (d : Demod) : (setPhase p v d).cidx = d.cidx := by cases p <;> rfl
@[simp] theorem setPhase_stamps (p : Phase) (v : Word64) (d : Demod) : (setPhase p v d).stamps = d.stamps := by cases p <;> rfl
@[simp] theorem setPhase_ibuf (p : Phase) (v : Word64) (d : Demod) : (setPhase p v d).ibuf = d.ibuf := by cases p <;> rfl
@[simp] theorem setPhase_exit (p : Phase) (v : Word64) (d : Demod) : (setPhase p v d).exit = d.exit := by cases p <;> rfl

/-! `shiftStep` -/

@[simp] theorem shiftStep_i1 (p : Phase) (v : Sample) (d : Demod) : (shiftStep p v d).i1 = d.i1 := setPhase_i1 _ _ _
@[simp] theorem shiftStep_q1 (p : Phase) (v : Sample) (d : Demod) : (shiftStep p v d).q1 = d.q1 := setPhase_q1 _ _ _
@[simp] theorem shiftStep_i2 (p : Phase) (v : Sample) (d : Demod) : (shiftStep p v d).i2 = d.i2 := setPhase_i2 _ _ _
@[simp] theorem shiftStep_q2 (p : Phase) (v : Sample) (d : Demod) : (shiftStep p v d).q2 = d.q2 := setPhase_q2 _ _ _
@[simp] theorem shiftStep_n (p : Phase) (v : Sample) (d : Demod) : (shiftStep p v d).n = d.n := setPhase_n _ _ _
@[simp] theorem shiftStep_ew (p : Phase) (v : Sample) (d : Demod) : (shiftStep p v d).ew = d.ew := setPhase_ew _ _ _
@[simp] theorem shiftStep_ewp (p : Phase) (v : Sample) (d : Demod) : (shiftStep p v d).ewp = d.ewp := setPhase_ewp _ _ _
@[simp] theorem shiftStep_sum (p : Phase) (v : Sample) (d : Demod) : (shiftStep p v d).sum = d.sum := setPhase_sum _ _ _
@[simp] theorem shiftStep_level (p : Phase) (v : Sample) (d : Demod) : (shiftStep p v d).level = d.level := setPhase_level _ _ _
@[simp] theorem shiftStep_gate (p : Phase) (v : Sample) (d : Demod) : (shiftStep p v d).gate = d.gate := setPhase_gate _ _ _
@[simp] theorem shiftStep_ctl (p : Phase) (v : Sample) (d : Demod) : (shiftStep p v d).ctl = d.ctl := setPhase_ctl _ _ _
@[simp] theorem shiftStep_ftype (p : Phase) (v : Sample) (d : Demod) : (shiftStep p v d).ftype = d.ftype := setPhase_ftype _ _ _
@[simp] theorem shiftStep_flen (p : Phase) (v : Sample) (d : Demod) : (shiftStep p v d).flen = d.flen := setPhase_flen _ _ _
@[simp] theorem shiftStep_fcnt (p : Phase) (v : Sample) (d : Demod) : (shiftStep p v d).fcnt = d.fcnt := setPhase_fcnt _ _ _
@[simp] theorem shiftStep_frameRev (p : Phase) (v : Sample) (d : Demod) : (shiftStep p v d).frameRev = d.frameRev := setPhase_frameRev _ _ _
@[simp] theorem shiftStep_fhdr (p : Phase) (v : Sample) (d : Demod) : (shiftStep p v d).fhdr = d.fhdr := setPhase_fhdr _ _ _
@[simp] theorem shiftStep_csec (p : Phase) (v : Sample) (d : Demod) : (shiftStep p v d).csec = d.csec := setPhase_csec _ _ _
@[simp] theorem shiftStep_cusec (p : Phase) (v : Sample) (d : Demod) : (shiftStep p v d).cusec = d.cusec := setPhase_cusec _ _ _
@[simp] theorem shiftStep_cidx (p : Phase) (v : Sample) (d : Demod) : (shiftStep p v d).cidx = d.cidx := setPhase_cidx _ _ _
@[simp] theorem shiftStep_stamps (p : Phase) (v : Sample) (d : Demod) : (shiftStep p v d).stamps = d.stamps := setPhase_stamps _ _ _
@[simp] theorem shiftStep_ibuf (p : Phase) (v : Sample) (d : Demod) : (shiftStep p v d).ibuf = d.ibuf := setPhase_ibuf _ _ _
@[simp] theorem shiftStep_exit (p : Phase) (v : Sample) (d : Demod) : (shiftStep p v d).exit = d.exit := setPhase_exit _ _ _

/-! `emitFrame` -/

@[simp] theorem emitFrame_cfg (s : State) : (emitFrame s).cfg = s.cfg := rfl
@[simp] theorem emitFrame_par (s : State) : (emitFrame s).par = s.par := rfl
@[simp] theorem emitFrame_corr (s : State) : (emitFrame s).corr = s.corr := rfl
@[simp] theorem emitFrame_ret (s : State) : (emitFrame s).ret = s.ret := rfl
@[simp] theorem emitFrame_script (s : State) : (emitFrame s).script = s.script := rfl

/-! `emitCh` -/

@[simp] theorem emitCh_cfg (b : List Byte) (s : State) : (emitCh b s).cfg = s.cfg := rfl
@[simp] theorem emitCh_par (b : List Byte) (s : State) : (emitCh b s).par = s.par := rfl
@[simp] theorem emitCh_demod (b : List Byte) (s : State) : (emitCh b s).demod = s.demod := rfl
@[simp] theorem emitCh_corr (b : List Byte) (s : State) : (emitCh b s).corr = s.corr := rfl
@[simp] theorem emitCh_io (b : List Byte) (s : State) : (emitCh b s).io = { s.io with chWr := s.io.chWr ++ b } := rfl
@[simp] theorem emitCh_ret (b : List Byte) (s : State) : (emitCh b s).ret = s.ret := rfl
@[simp] theorem emitCh_script (b : List Byte) (s : State) : (emitCh b s).script = s.script := rfl

/-! `emitOut` -/

@[simp] theorem emitOut_cfg (b : List Byte) (s : State) : (emitOut b s).cfg = s.cfg := rfl
@[simp] theorem emitOut_par (b : List Byte) (s : State) : (emitOut b s).par = s.par := rfl
@[simp] theorem emitOut_demod (b : List Byte) (s : State) : (emitOut b s).demod = s.demod := rfl
@[simp] theorem emitOut_corr (b : List Byte) (s : State) : (emitOut b s).corr = s.corr := rfl
@[simp] theorem emitOut_io (b : List Byte) (s : State) : (emitOut b s).io = { s.io with outWr := s.io.outWr ++ b } := rfl
@[simp] theorem emitOut_ret (b : List Byte) (s : State) : (emitOut b s).ret = s.ret := rfl
@[simp] theorem emitOut_script (b : List Byte) (s : State) : (emitOut b s).script = s.script := rfl

/-! `emitCap` -/

@[simp] theorem emitCap_cfg (r : CapRec) (s : State) : (emitCap r s).cfg = s.cfg := rfl
@[simp] theorem emitCap_par (r : CapRec) (s : State) : (emitCap r s).par = s.par := rfl
@[simp] theorem emitCap_demod (r : CapRec) (s : State) : (emitCap r s).demod = s.demod := rfl
@[simp] theorem emitCap_corr (r : CapRec) (s : State) : (emitCap r s).corr = s.corr := rfl
@[simp] theorem emitCap_io (r : CapRec) (s : State) : (emitCap r s).io = { s.io with capWr := s.io.capWr ++ [r] } := rfl
@[simp] theorem emitCap_ret (r : CapRec) (s : State) : (emitCap r s).ret = s.ret := rfl
@[simp] theorem emitCap_script (r : CapRec) (s : State) : (emitCap r s).script = s.script := rfl

/-! `advancePair` -/

@[simp] theorem advancePair_cfg (s : State) : (advancePair s).cfg = s.cfg := rfl
@[simp] theorem advancePair_par (s : State) : (advancePair s).par = s.par := rfl
@[simp] theorem advancePair_demod (s : State) : (advancePair s).demod = { s.demod with n := s.demod.n + 1, cidx := s.demod.cidx + 1 } := rfl
@[simp] theorem advancePair_corr (s : State) : (advancePair s).corr = s.corr := rfl
@[simp] theorem advancePair_io (s : State) : (advancePair s).io = s.io := rfl
@[simp] theorem advancePair_ret (s : State) : (advancePair s).ret = s.ret := rfl
@[simp] theorem advancePair_script (s : State) : (advancePair s).script = s.script := rfl

/-! `endDemod` -/

@[simp] theorem endDemod_cfg (s : State) : (endDemod s).cfg = s.cfg := rfl
@[simp] theorem endDemod_par (s : State) : (endDemod s).par = s.par := rfl
@[simp] theorem endDemod_demod (s : State) : (endDemod s).demod = { s.demod with ctl := .ended, exit := .zero } := rfl
@[simp] theorem endDemod_corr (s : State) : (endDemod s).corr = s.corr := rfl
@[simp] theorem endDemod_io (s : State) : (endDemod s).io = { s.io with chClosed := true } := rfl
@[simp] theorem endDemod_ret (s : State) : (endDemod s).ret = s.ret := rfl
@[simp] theorem endDemod_script (s : State) : (endDemod s).script = s.script := rfl

/-! `endCorr` -/

@[simp] theorem endCorr_cfg (s : State) : (endCorr s).cfg = s.cfg := rfl
@[simp] theorem endCorr_par (s : State) : (endCorr s).par = s.par := rfl
@[simp] theorem endCorr_demod (s : State) : (endCorr s).demod = s.demod := rfl
@[simp] theorem endCorr_corr (s : State) : (endCorr s).corr = { s.corr with ctl := .ended, exit := .zero } := rfl
@[simp] theorem endCorr_io (s : State) : (endCorr s).io = { s.io with outClosed := true, capClosed := true, chBroken := true } := rfl
@[simp] theorem endCorr_ret (s : State) : (endCorr s).ret = s.ret := rfl
@[simp] theorem endCorr_script (s : State) : (endCorr s).script = s.script := rfl

/-! `raiseFault` and `abortAgent` of DEMOD -/

@[simp] theorem raiseFault_demod_cfg (code : FCode) (s : State) : (raiseFault .demod code s).cfg = s.cfg := rfl
@[simp] theorem raiseFault_demod_par (code : FCode) (s : State) : (raiseFault .demod code s).par = s.par := rfl
@[simp] theorem raiseFault_demod_demod (code : FCode) (s : State) : (raiseFault .demod code s).demod = { s.demod with ctl := .faulted code, exit := .nonzero } := rfl
@[simp] theorem raiseFault_demod_corr (code : FCode) (s : State) : (raiseFault .demod code s).corr = s.corr := rfl
@[simp] theorem raiseFault_demod_io (code : FCode) (s : State) : (raiseFault .demod code s).io = { closeDemodPorts s.io with log := s.io.log ++ [.demod] } := rfl
@[simp] theorem raiseFault_demod_ret (code : FCode) (s : State) : (raiseFault .demod code s).ret = s.ret := rfl
@[simp] theorem raiseFault_demod_script (code : FCode) (s : State) : (raiseFault .demod code s).script = s.script := rfl
@[simp] theorem abortAgent_demod_cfg (s : State) : (abortAgent .demod s).cfg = s.cfg := by simp only [abortAgent]; split <;> rfl
@[simp] theorem abortAgent_demod_par (s : State) : (abortAgent .demod s).par = s.par := by simp only [abortAgent]; split <;> rfl
@[simp] theorem abortAgent_demod_corr (s : State) : (abortAgent .demod s).corr = s.corr := by simp only [abortAgent]; split <;> rfl
@[simp] theorem abortAgent_demod_ret (s : State) : (abortAgent .demod s).ret = s.ret := by simp only [abortAgent]; split <;> rfl
@[simp] theorem abortAgent_demod_script (s : State) : (abortAgent .demod s).script = s.script := by simp only [abortAgent]; split <;> rfl

/-! `raiseFault` and `abortAgent` of CORR -/

@[simp] theorem raiseFault_corr_cfg (code : FCode) (s : State) : (raiseFault .corr code s).cfg = s.cfg := rfl
@[simp] theorem raiseFault_corr_par (code : FCode) (s : State) : (raiseFault .corr code s).par = s.par := rfl
@[simp] theorem raiseFault_corr_demod (code : FCode) (s : State) : (raiseFault .corr code s).demod = s.demod := rfl
@[simp] theorem raiseFault_corr_corr (code : FCode) (s : State) : (raiseFault .corr code s).corr = { s.corr with ctl := .faulted code, exit := .nonzero } := rfl
@[simp] theorem raiseFault_corr_io (code : FCode) (s : State) : (raiseFault .corr code s).io = { closeCorrPorts s.io with log := s.io.log ++ [.corr] } := rfl
@[simp] theorem raiseFault_corr_ret (code : FCode) (s : State) : (raiseFault .corr code s).ret = s.ret := rfl
@[simp] theorem raiseFault_corr_script (code : FCode) (s : State) : (raiseFault .corr code s).script = s.script := rfl
@[simp] theorem abortAgent_corr_cfg (s : State) : (abortAgent .corr s).cfg = s.cfg := by simp only [abortAgent]; split <;> rfl
@[simp] theorem abortAgent_corr_par (s : State) : (abortAgent .corr s).par = s.par := by simp only [abortAgent]; split <;> rfl
@[simp] theorem abortAgent_corr_demod (s : State) : (abortAgent .corr s).demod = s.demod := by simp only [abortAgent]; split <;> rfl
@[simp] theorem abortAgent_corr_ret (s : State) : (abortAgent .corr s).ret = s.ret := by simp only [abortAgent]; split <;> rfl
@[simp] theorem abortAgent_corr_script (s : State) : (abortAgent .corr s).script = s.script := by simp only [abortAgent]; split <;> rfl

/-! `closeDemodPorts` -/

@[simp] theorem closeDemodPorts_inq (p : Io) : (closeDemodPorts p).inq = p.inq := rfl
@[simp] theorem closeDemodPorts_alone (p : Io) : (closeDemodPorts p).alone = p.alone := rfl
@[simp] theorem closeDemodPorts_cin (p : Io) : (closeDemodPorts p).cin = p.cin := rfl
@[simp] theorem closeDemodPorts_cinEnd (p : Io) : (closeDemodPorts p).cinEnd = p.cinEnd := rfl
@[simp] theorem closeDemodPorts_ch (p : Io) : (closeDemodPorts p).ch = p.ch := rfl
@[simp] theorem closeDemodPorts_chWr (p : Io) : (closeDemodPorts p).chWr = [] := rfl
@[simp] theorem closeDemodPorts_chClosed (p : Io) : (closeDemodPorts p).chClosed = true := rfl
@[simp] theorem closeDemodPorts_chBroken (p : Io) : (closeDemodPorts p).chBroken = p.chBroken := rfl
@[simp] theorem closeDemodPorts_out (p : Io) : (closeDemodPorts p).out = p.out := rfl
@[simp] theorem closeDemodPorts_outWr (p : Io) : (closeDemodPorts p).outWr = p.outWr := rfl
@[simp] theorem closeDemodPorts_outClosed (p : Io) : (closeDemodPorts p).outClosed = p.outClosed := rfl
@[simp] theorem closeDemodPorts_outRefused (p : Io) : (closeDemodPorts p).outRefused = p.outRefused := rfl
@[simp] theorem closeDemodPorts_outStall (p : Io) : (closeDemodPorts p).outStall = p.outStall := rfl
@[simp] theorem closeDemodPorts_cap (p : Io) : (closeDemodPorts p).cap = p.cap := rfl
@[simp] theorem closeDemodPorts_capWr (p : Io) : (closeDemodPorts p).capWr = p.capWr := rfl
@[simp] theorem closeDemodPorts_capSent (p : Io) : (closeDemodPorts p).capSent = p.capSent := rfl
@[simp] theorem closeDemodPorts_capClosed (p : Io) : (closeDemodPorts p).capClosed = p.capClosed := rfl
@[simp] theorem closeDemodPorts_capRefused (p : Io) : (closeDemodPorts p).capRefused = p.capRefused := rfl
@[simp] theorem closeDemodPorts_capStall (p : Io) : (closeDemodPorts p).capStall = p.capStall := rfl
@[simp] theorem closeDemodPorts_log (p : Io) : (closeDemodPorts p).log = p.log := rfl

/-! `closeCorrPorts` -/

@[simp] theorem closeCorrPorts_inq (p : Io) : (closeCorrPorts p).inq = p.inq := rfl
@[simp] theorem closeCorrPorts_alone (p : Io) : (closeCorrPorts p).alone = p.alone := rfl
@[simp] theorem closeCorrPorts_cin (p : Io) : (closeCorrPorts p).cin = p.cin := rfl
@[simp] theorem closeCorrPorts_cinEnd (p : Io) : (closeCorrPorts p).cinEnd = p.cinEnd := rfl
@[simp] theorem closeCorrPorts_ch (p : Io) : (closeCorrPorts p).ch = p.ch := rfl
@[simp] theorem closeCorrPorts_chWr (p : Io) : (closeCorrPorts p).chWr = p.chWr := rfl
@[simp] theorem closeCorrPorts_chClosed (p : Io) : (closeCorrPorts p).chClosed = p.chClosed := rfl
@[simp] theorem closeCorrPorts_chBroken (p : Io) : (closeCorrPorts p).chBroken = true := rfl
@[simp] theorem closeCorrPorts_out (p : Io) : (closeCorrPorts p).out = p.out := rfl
@[simp] theorem closeCorrPorts_outWr (p : Io) : (closeCorrPorts p).outWr = [] := rfl
@[simp] theorem closeCorrPorts_outClosed (p : Io) : (closeCorrPorts p).outClosed = true := rfl
@[simp] theorem closeCorrPorts_outRefused (p : Io) : (closeCorrPorts p).outRefused = p.outRefused := rfl
@[simp] theorem closeCorrPorts_outStall (p : Io) : (closeCorrPorts p).outStall = p.outStall := rfl
@[simp] theorem closeCorrPorts_cap (p : Io) : (closeCorrPorts p).cap = capAccepted p := rfl
@[simp] theorem closeCorrPorts_capWr (p : Io) : (closeCorrPorts p).capWr = [] := rfl
@[simp] theorem closeCorrPorts_capSent (p : Io) : (closeCorrPorts p).capSent = 0 := rfl
@[simp] theorem closeCorrPorts_capClosed (p : Io) : (closeCorrPorts p).capClosed = true := rfl
@[simp] theorem closeCorrPorts_capRefused (p : Io) : (closeCorrPorts p).capRefused = p.capRefused := rfl
@[simp] theorem closeCorrPorts_capStall (p : Io) : (closeCorrPorts p).capStall = p.capStall := rfl
@[simp] theorem closeCorrPorts_log (p : Io) : (closeCorrPorts p).log = p.log := rfl

/-! `acceptHeader` -/

@[simp] theorem acceptHeader_ctl (t : PType) (h : List Byte) (c : Corr) : (acceptHeader t h c).ctl = .samples := rfl
@[simp] theorem acceptHeader_hbuf (t : PType) (h : List Byte) (c : Corr) : (acceptHeader t h c).hbuf = h := rfl
@[simp] theorem acceptHeader_hsec (t : PType) (h : List Byte) (c : Corr) : (acceptHeader t h c).hsec = decimal (field h 0 10) := rfl
@[simp] theorem acceptHeader_husec (t : PType) (h : List Byte) (c : Corr) : (acceptHeader t h c).husec = decimal (field h 11 6) := rfl
@[simp] theorem acceptHeader_htype (t : PType) (h : List Byte) (c : Corr) : (acceptHeader t h c).htype = t := rfl
@[simp] theorem acceptHeader_hlevel (t : PType) (h : List Byte) (c : Corr) : (acceptHeader t h c).hlevel = decimal (field h 20 8) := rfl
@[simp] theorem acceptHeader_herr (t : PType) (h : List Byte) (c : Corr) : (acceptHeader t h c).herr = decimal (field h 29 1) := rfl
@[simp] theorem acceptHeader_clen (t : PType) (h : List Byte) (c : Corr) : (acceptHeader t h c).clen = frameLen t := rfl
@[simp] theorem acceptHeader_ccnt (t : PType) (h : List Byte) (c : Corr) : (acceptHeader t h c).ccnt = 0 := rfl
@[simp] theorem acceptHeader_cbufRev (t : PType) (h : List Byte) (c : Corr) : (acceptHeader t h c).cbufRev = [] := rfl
@[simp] theorem acceptHeader_hint (t : PType) (h : List Byte) (c : Corr) : (acceptHeader t h c).hint = c.hint := rfl
@[simp] theorem acceptHeader_status (t : PType) (h : List Byte) (c : Corr) : (acceptHeader t h c).status = c.status := rfl
@[simp] theorem acceptHeader_data (t : PType) (h : List Byte) (c : Corr) : (acceptHeader t h c).data = c.data := rfl
@[simp] theorem acceptHeader_astatus (t : PType) (h : List Byte) (c : Corr) : (acceptHeader t h c).astatus = c.astatus := rfl
@[simp] theorem acceptHeader_adata (t : PType) (h : List Byte) (c : Corr) : (acceptHeader t h c).adata = c.adata := rfl
@[simp] theorem acceptHeader_rbuf (t : PType) (h : List Byte) (c : Corr) : (acceptHeader t h c).rbuf = c.rbuf := rfl
@[simp] theorem acceptHeader_exit (t : PType) (h : List Byte) (c : Corr) : (acceptHeader t h c).exit = c.exit := rfl

/-! `sampleStep` -/

@[simp] theorem sampleStep_ctl (v : Sample) (c : Corr) : (sampleStep v c).ctl = (if c.ccnt + 1 = c.clen then .decode else c.ctl) := rfl
@[simp] theorem sampleStep_hbuf (v : Sample) (c : Corr) : (sampleStep v c).hbuf = c.hbuf := rfl
@[simp] theorem sampleStep_hsec (v : Sample) (c : Corr) : (sampleStep v c).hsec = c.hsec := rfl
@[simp] theorem sampleStep_husec (v : Sample) (c : Corr) : (sampleStep v c).husec = c.husec := rfl
@[simp] theorem sampleStep_htype (v : Sample) (c : Corr) : (sampleStep v c).htype = c.htype := rfl
@[simp] theorem sampleStep_hlevel (v : Sample) (c : Corr) : (sampleStep v c).hlevel = c.hlevel := rfl
@[simp] theorem sampleStep_herr (v : Sample) (c : Corr) : (sampleStep v c).herr = c.herr := rfl
@[simp] theorem sampleStep_clen (v : Sample) (c : Corr) : (sampleStep v c).clen = c.clen := rfl
@[simp] theorem sampleStep_ccnt (v : Sample) (c : Corr) : (sampleStep v c).ccnt = c.ccnt + 1 := rfl
@[simp] theorem sampleStep_cbufRev (v : Sample) (c : Corr) : (sampleStep v c).cbufRev = v :: c.cbufRev := rfl
@[simp] theorem sampleStep_hint (v : Sample) (c : Corr) : (sampleStep v c).hint = c.hint := rfl
@[simp] theorem sampleStep_status (v : Sample) (c : Corr) : (sampleStep v c).status = c.status := rfl
@[simp] theorem sampleStep_data (v : Sample) (c : Corr) : (sampleStep v c).data = c.data := rfl
@[simp] theorem sampleStep_astatus (v : Sample) (c : Corr) : (sampleStep v c).astatus = c.astatus := rfl
@[simp] theorem sampleStep_adata (v : Sample) (c : Corr) : (sampleStep v c).adata = c.adata := rfl
@[simp] theorem sampleStep_rbuf (v : Sample) (c : Corr) : (sampleStep v c).rbuf = c.rbuf := rfl
@[simp] theorem sampleStep_exit (v : Sample) (c : Corr) : (sampleStep v c).exit = c.exit := rfl

/-! `storeBlock` -/

@[simp] theorem storeBlock_ctl (i : Fin 6) (b : List Byte) (e nh : Nat) (c : Corr) : (storeBlock i b e nh c).ctl = c.ctl := rfl
@[simp] theorem storeBlock_hbuf (i : Fin 6) (b : List Byte) (e nh : Nat) (c : Corr) : (storeBlock i b e nh c).hbuf = c.hbuf := rfl
@[simp] theorem storeBlock_hsec (i : Fin 6) (b : List Byte) (e nh : Nat) (c : Corr) : (storeBlock i b e nh c).hsec = c.hsec := rfl
@[simp] theorem storeBlock_husec (i : Fin 6) (b : List Byte) (e nh : Nat) (c : Corr) : (storeBlock i b e nh c).husec = c.husec := rfl
@[simp] theorem storeBlock_htype (i : Fin 6) (b : List Byte) (e nh : Nat) (c : Corr) : (storeBlock i b e nh c).htype = c.htype := rfl
@[simp] theorem storeBlock_hlevel (i : Fin 6) (b : List Byte) (e nh : Nat) (c : Corr) : (storeBlock i b e nh c).hlevel = c.hlevel := rfl
@[simp] theorem storeBlock_herr (i : Fin 6) (b : List Byte) (e nh : Nat) (c : Corr) : (storeBlock i b e nh c).herr = c.herr := rfl
@[simp] theorem storeBlock_clen (i : Fin 6) (b : List Byte) (e nh : Nat) (c : Corr) : (storeBlock i b e nh c).clen = c.clen := rfl
@[simp] theorem storeBlock_ccnt (i : Fin 6) (b : List Byte) (e nh : Nat) (c : Corr) : (storeBlock i b e nh c).ccnt = c.ccnt := rfl
@[simp] theorem storeBlock_cbufRev (i : Fin 6) (b : List Byte) (e nh : Nat) (c : Corr) : (storeBlock i b e nh c).cbufRev = c.cbufRev := rfl
@[simp] theorem storeBlock_hint (i : Fin 6) (b : List Byte) (e nh : Nat) (c : Corr) : (storeBlock i b e nh c).hint = nh := rfl
@[simp] theorem storeBlock_status (i : Fin 6) (b : List Byte) (e nh : Nat) (c : Corr) : (storeBlock i b e nh c).status = c.status.set i (.decoded e) := rfl
@[simp] theorem storeBlock_data (i : Fin 6) (b : List Byte) (e nh : Nat) (c : Corr) : (storeBlock i b e nh c).data = c.data.set i b := rfl
@[simp] theorem storeBlock_astatus (i : Fin 6) (b : List Byte) (e nh : Nat) (c : Corr) : (storeBlock i b e nh c).astatus = c.astatus := rfl
@[simp] theorem storeBlock_adata (i : Fin 6) (b : List Byte) (e nh : Nat) (c : Corr) : (storeBlock i b e nh c).adata = c.adata := rfl
@[simp] theorem storeBlock_rbuf (i : Fin 6) (b : List Byte) (e nh : Nat) (c : Corr) : (storeBlock i b e nh c).rbuf = c.rbuf := rfl
@[simp] theorem storeBlock_exit (i : Fin 6) (b : List Byte) (e nh : Nat) (c : Corr) : (storeBlock i b e nh c).exit = c.exit := rfl

/-! `failBlock` -/

@[simp] theorem failBlock_ctl (i : Fin 6) (c : Corr) : (failBlock i c).ctl = c.ctl := rfl
@[simp] theorem failBlock_hbuf (i : Fin 6) (c : Corr) : (failBlock i c).hbuf = c.hbuf := rfl
@[simp] theorem failBlock_hsec (i : Fin 6) (c : Corr) : (failBlock i c).hsec = c.hsec := rfl
@[simp] theorem failBlock_husec (i : Fin 6) (c : Corr) : (failBlock i c).husec = c.husec := rfl
@[simp] theorem failBlock_htype (i : Fin 6) (c : Corr) : (failBlock i c).htype = c.htype := rfl
@[simp] theorem failBlock_hlevel (i : Fin 6) (c : Corr) : (failBlock i c).hlevel = c.hlevel := rfl
@[simp] theorem failBlock_herr (i : Fin 6) (c : Corr) : (failBlock i c).herr = c.herr := rfl
@[simp] theorem failBlock_clen (i : Fin 6) (c : Corr) : (failBlock i c).clen = c.clen := rfl
@[simp] theorem failBlock_ccnt (i : Fin 6) (c : Corr) : (failBlock i c).ccnt = c.ccnt := rfl
@[simp] theorem failBlock_cbufRev (i : Fin 6) (c : Corr) : (failBlock i c).cbufRev = c.cbufRev := rfl
@[simp] theorem failBlock_hint (i : Fin 6) (c : Corr) : (failBlock i c).hint = c.hint := rfl
@[simp] theorem failBlock_status (i : Fin 6) (c : Corr) : (failBlock i c).status = c.status.set i .uncorrectable := rfl
@[simp] theorem failBlock_data (i : Fin 6) (c : Corr) : (failBlock i c).data = c.data := rfl
@[simp] theorem failBlock_astatus (i : Fin 6) (c : Corr) : (failBlock i c).astatus = c.astatus := rfl
@[simp] theorem failBlock_adata (i : Fin 6) (c : Corr) : (failBlock i c).adata = c.adata := rfl
@[simp] theorem failBlock_rbuf (i : Fin 6) (c : Corr) : (failBlock i c).rbuf = c.rbuf := rfl
@[simp] theorem failBlock_exit (i : Fin 6) (c : Corr) : (failBlock i c).exit = c.exit := rfl

/-! `packetStart` -/

@[simp] theorem packetStart_ctl (c : Corr) : (packetStart c).ctl = c.ctl := rfl
@[simp] theorem packetStart_hbuf (c : Corr) : (packetStart c).hbuf = c.hbuf := rfl
@[simp] theorem packetStart_hsec (c : Corr) : (packetStart c).hsec = c.hsec := rfl
@[simp] theorem packetStart_husec (c : Corr) : (packetStart c).husec = c.husec := rfl
@[simp] theorem packetStart_htype (c : Corr) : (packetStart c).htype = c.htype := rfl
@[simp] theorem packetStart_hlevel (c : Corr) : (packetStart c).hlevel = c.hlevel := rfl
@[simp] theorem packetStart_herr (c : Corr) : (packetStart c).herr = c.herr := rfl
@[simp] theorem packetStart_clen (c : Corr) : (packetStart c).clen = c.clen := rfl
@[simp] theorem packetStart_ccnt (c : Corr) : (packetStart c).ccnt = c.ccnt := rfl
@[simp] theorem packetStart_cbufRev (c : Corr) : (packetStart c).cbufRev = c.cbufRev := rfl
@[simp] theorem packetStart_hint (c : Corr) : (packetStart c).hint = 0 := rfl
@[simp] theorem packetStart_status (c : Corr) : (packetStart c).status = Vector.replicate 6 .unset := rfl
@[simp] theorem packetStart_data (c : Corr) : (packetStart c).data = c.data := rfl
@[simp] theorem packetStart_astatus (c : Corr) : (packetStart c).astatus = c.astatus := rfl
@[simp] theorem packetStart_adata (c : Corr) : (packetStart c).adata = c.adata := rfl
@[simp] theorem packetStart_rbuf (c : Corr) : (packetStart c).rbuf = c.rbuf := rfl
@[simp] theorem packetStart_exit (c : Corr) : (packetStart c).exit = c.exit := rfl

/-! `skipBlocks` -/

@[simp] theorem skipBlocks_ctl (c : Corr) : (skipBlocks c).ctl = c.ctl := rfl
@[simp] theorem skipBlocks_hbuf (c : Corr) : (skipBlocks c).hbuf = c.hbuf := rfl
@[simp] theorem skipBlocks_hsec (c : Corr) : (skipBlocks c).hsec = c.hsec := rfl
@[simp] theorem skipBlocks_husec (c : Corr) : (skipBlocks c).husec = c.husec := rfl
@[simp] theorem skipBlocks_htype (c : Corr) : (skipBlocks c).htype = c.htype := rfl
@[simp] theorem skipBlocks_hlevel (c : Corr) : (skipBlocks c).hlevel = c.hlevel := rfl
@[simp] theorem skipBlocks_herr (c : Corr) : (skipBlocks c).herr = c.herr := rfl
@[simp] theorem skipBlocks_clen (c : Corr) : (skipBlocks c).clen = c.clen := rfl
@[simp] theorem skipBlocks_ccnt (c : Corr) : (skipBlocks c).ccnt = c.ccnt := rfl
@[simp] theorem skipBlocks_cbufRev (c : Corr) : (skipBlocks c).cbufRev = c.cbufRev := rfl
@[simp] theorem skipBlocks_hint (c : Corr) : (skipBlocks c).hint = c.hint := rfl
@[simp] theorem skipBlocks_astatus (c : Corr) : (skipBlocks c).astatus = c.astatus := rfl
@[simp] theorem skipBlocks_adata (c : Corr) : (skipBlocks c).adata = c.adata := rfl
@[simp] theorem skipBlocks_rbuf (c : Corr) : (skipBlocks c).rbuf = c.rbuf := rfl
@[simp] theorem skipBlocks_exit (c : Corr) : (skipBlocks c).exit = c.exit := rfl

/-! The reset state -/

@[simp] theorem reset_demod : State.reset.demod = Demod.reset := rfl
@[simp] theorem reset_corr : State.reset.corr = Corr.reset := rfl
@[simp] theorem reset_io : State.reset.io = Io.reset := rfl
@[simp] theorem reset_ret : State.reset.ret = .none := rfl
@[simp] theorem reset_script : State.reset.script = [] := rfl

end Sys2Proof.Machine
end

