-- ==== Sys2Proof/Laws/Ops.lean ====
section
/-! SUPPORT. For each shared operation what it can do, said once: running an operation, transfers, reads, the two agents'
moves, one step. -/

namespace Sys2Proof.Machine

/-! Running an operation. -/

theorem demodRun_live {s : State} (h : DemodLive s) (f : State → State) : demodRun s f = .next (f s) := if_pos h

theorem demodRun_halted {s : State} (h : ¬DemodLive s) (f : State → State) : demodRun s f = .fault .demodHalted :=
  if_neg h

theorem corrRun_live {s : State} (h : CorrLive s) (f : State → State) : corrRun s f = .next (f s) := if_pos h

theorem corrRun_halted {s : State} (h : ¬CorrLive s) (f : State → State) : corrRun s f = .fault .corrHalted :=
  if_neg h

theorem demodRun_eq_next {s t : State} {f : State → State} (h : demodRun s f = .next t) : DemodLive s ∧ t = f s := by
  unfold demodRun at h
  split at h
  · exact ⟨‹_›, by simpa using h.symm⟩
  · cases h

theorem corrRun_eq_next {s t : State} {f : State → State} (h : corrRun s f = .next t) : CorrLive s ∧ t = f s := by
  unfold corrRun at h
  split at h
  · exact ⟨‹_›, by simpa using h.symm⟩
  · cases h

theorem demodLive_of_search {s : State} (h : s.demod.ctl = .search) : DemodLive s := by rw [DemodLive, h]; rfl
theorem demodLive_of_pending {s : State} {p : Cand} (h : s.demod.ctl = .pending p) : DemodLive s := by
  rw [DemodLive, h]; rfl
theorem demodLive_of_emitting {s : State} (h : s.demod.ctl = .emitting) : DemodLive s := by rw [DemodLive, h]; rfl

/-- The three live control states of DEMOD. -/
theorem demodLive_cases {s : State} (h : DemodLive s) :
    s.demod.ctl = .search ∨ (∃ p, s.demod.ctl = .pending p) ∨ s.demod.ctl = .emitting := by
  unfold DemodLive at h
  cases hc : s.demod.ctl <;> simp_all [DState.live]

/-- The three live control states of CORR. -/
theorem corrLive_cases {s : State} (h : CorrLive s) :
    s.corr.ctl = .hdr ∨ s.corr.ctl = .samples ∨ s.corr.ctl = .decode := by
  unfold CorrLive at h
  cases hc : s.corr.ctl <;> simp_all [CState.live]

/-! Transfers. -/

theorem atMost_le (limit : Option Nat) (n : Nat) : atMost limit n ≤ n := by
  cases limit <;> simp [atMost]

@[simp] theorem atMost_none (n : Nat) : atMost none n = n := rfl
@[simp] theorem atMost_some (k n : Nat) : atMost (some k) n = min k n := rfl

/-- A transfer into `CH`: `F_WRITE` at a broken `CH`; else the first `k ≥ 1` bytes of the record, within the room. -/
theorem pumpCh_cases {limit : Option Nat} {s t : State} (h : pumpCh limit s = some t) :
    (s.io.chBroken = true ∧ t = raiseFault .demod .write s) ∨
    (s.io.chBroken = false ∧ ∃ k, 1 ≤ k ∧ k ≤ s.io.chWr.length ∧
      (∀ cap, s.par.pipeCap = some cap → k ≤ cap - s.io.ch.length) ∧
      t = { s with io := { s.io with ch := s.io.ch ++ s.io.chWr.take k, chWr := s.io.chWr.drop k } }) := by
  unfold pumpCh at h
  split at h
  · exact .inl ⟨‹_›, by simpa using h.symm⟩
  · rename_i hb
    refine .inr ⟨by simpa using hb, ?_⟩
    simp only at h
    split at h
    · cases h
    · refine ⟨_, Nat.pos_of_ne_zero ‹_›, (atMost_le _ _).trans (atMost_le _ _), ?_, by simpa using h.symm⟩
      intro cap hc
      refine (atMost_le _ _).trans ?_
      simp [chRoom, hc]

/-- DEMOD stays blocked at a write only where nothing can be handed over. -/
theorem pumpCh_none_iff (limit : Option Nat) (s : State) :
    pumpCh limit s = none ↔ s.io.chBroken = false ∧ atMost limit (atMost (chRoom s) s.io.chWr.length) = 0 := by
  unfold pumpCh
  cases s.io.chBroken <;> simp

/-- A transfer to the host changes only CORR's ports, or is CORR's `F_WRITE`. -/
theorem pumpCorr_cases {limit : Option Nat} {s t : State} (h : pumpCorr limit s = some t) :
    t = raiseFault .corr .write s ∨
    t = { s with io := { s.io with out := t.io.out, outWr := t.io.outWr, cap := t.io.cap, capWr := t.io.capWr, capSent := t.io.capSent } } := by
  unfold pumpCorr at h
  split at h
  · unfold pumpOut at h
    split at h
    · left; simpa using h.symm
    · simp only at h
      split at h
      · cases h
      · split at h
        · cases h
        · right; cases h; rfl
  · unfold pumpCap at h
    split at h
    · cases h
    · split at h
      · left; simpa using h.symm
      · split at h
        · cases h
        · simp only at h
          split at h
          · right; cases h; rfl
          · split at h
            · cases h
            · right; cases h; rfl

/-! Decoding a token where it is read. -/

theorem runToken_ok {tk : Token} {i : Instr} {s : State} (h : decode tk = .ok i) :
    runToken tk s = .run i s := by
  simp [runToken, h]

theorem runToken_error {tk : Token} {r : Reject} {s : State} (h : decode tk = .error r) :
    runToken tk s = takeReject r s := by
  simp [runToken, h]

@[simp] theorem decode_tag (sec usec len : Nat) : decode (.tag sec usec len) = .ok (.dChunk sec usec len) := rfl

@[simp] theorem decode_inEof : decode .inEof = .ok .dEof := rfl

@[simp] theorem decode_corrEof (p : EofPos) : decode (.corrEof p) = .ok (.cEof p) := rfl

@[simp] theorem decode_pair (b0 b1 b2 b3 : Byte) :
    decode (.pair [b0, b1, b2, b3]) = .ok (.dIq (le16 b0 b1) (le16 b2 b3)) := rfl

@[simp] theorem decode_sample (b0 b1 b2 b3 : Byte) :
    decode (.sample [b0, b1, b2, b3]) = .ok (.cSmp (le32 b0 b1 b2 b3)) := rfl

/-- Four bytes are four bytes. -/
theorem four_bytes {l : List Byte} (h : l.length = 4) : ∃ b0 b1 b2 b3, l = [b0, b1, b2, b3] := by
  match l, h with
  | [b0, b1, b2, b3], _ => exact ⟨b0, b1, b2, b3, rfl⟩

/-- The rejection of a pair token: any number of bytes but four (40_demodulator.md R108). -/
theorem decode_pair_short {l : List Byte} (h : l.length ≠ 4) : decode (.pair l) = .error .shortPair := by
  match l, h with
  | [], _ | [_], _ | [_, _], _ | [_, _, _], _ | _ :: _ :: _ :: _ :: _ :: _, _ => rfl
  | [_, _, _, _], h => exact absurd rfl h

theorem decode_sample_short {l : List Byte} (h : l.length ≠ 4) : decode (.sample l) = .error .shortSample := by
  match l, h with
  | [], _ | [_], _ | [_, _], _ | [_, _, _], _ | _ :: _ :: _ :: _ :: _ :: _, _ => rfl
  | [_, _, _, _], h => exact absurd rfl h

theorem decode_header_length {h : List Byte} (hl : h.length ≠ 36) :
    decode (.header h) = .error .headerLength := by
  simp [decode, hl]

theorem decode_header_type {h : List Byte} (hl : h.length = 36) (ht : typeOfByte (h.getD 18 0) = none) :
    decode (.header h) = .error .headerType := by
  simp only [decode, hl, if_true, ht]

theorem decode_header_ok {h : List Byte} {t : PType} (hl : h.length = 36)
    (ht : typeOfByte (h.getD 18 0) = some t) : decode (.header h) = .ok (hdrOp t h) := by
  cases t <;> simp only [decode, hl, if_true, ht, hdrOp]

/-- The type bytes are `F` and `A` (30_encoding.md R76). -/
theorem typeOfByte_eq_some {b : Byte} {t : PType} : typeOfByte b = some t ↔ b = typeByte t := by
  unfold typeOfByte
  cases t <;> simp only [typeByte] <;> split <;> simp_all

theorem typeOfByte_eq_none {b : Byte} : typeOfByte b = none ↔ b ≠ 0x46 ∧ b ≠ 0x41 := by
  unfold typeOfByte
  split
  · simp_all
  · split <;> simp_all

/-! CORR's input. -/

@[simp] theorem dropInput_corr (k : Nat) (s : State) : (dropInput k s).corr = s.corr := by
  unfold dropInput; split <;> rfl
@[simp] theorem dropInput_demod (k : Nat) (s : State) : (dropInput k s).demod = s.demod := by
  unfold dropInput; split <;> rfl
@[simp] theorem dropInput_cfg (k : Nat) (s : State) : (dropInput k s).cfg = s.cfg := by
  unfold dropInput; split <;> rfl
@[simp] theorem dropInput_par (k : Nat) (s : State) : (dropInput k s).par = s.par := by
  unfold dropInput; split <;> rfl
@[simp] theorem dropInput_script (k : Nat) (s : State) : (dropInput k s).script = s.script := by
  unfold dropInput; split <;> rfl

/-- The state a whole token is read into, in the form `afterRead` gives it. -/
theorem afterRead_eq (k : Nat) (s : State) (sc : List HostAct) :
    ({ dropInput (k - s.corr.rbuf.length) { s with script := sc } with
      corr := { (dropInput (k - s.corr.rbuf.length) { s with script := sc }).corr with rbuf := [] } } : State) =
      afterRead k sc s := by
  unfold afterRead dropInput corrInput
  cases s.io.alone <;> rfl

/-- What `ReadIn(k)` does: a whole token runs; an empty input blocks, ends or errs; anything else is a partial read. -/
theorem corrRead_cases (k : Nat) (mk : List Byte → Token) (onEof : State → Move) (s : State) :
    (k - s.corr.rbuf.length ≤ (corrInput s).length ∧
      corrRead k mk onEof s = runToken (mk (s.corr.rbuf ++ (corrInput s).take (k - s.corr.rbuf.length)))
        (afterRead k s.script s)) ∨
    ((corrInput s).length < k - s.corr.rbuf.length ∧ corrInput s = [] ∧
      ((corrInputEnd s = .more ∧ corrRead k mk onEof s = .blocked) ∨
       (corrInputEnd s = .eof ∧ corrRead k mk onEof s = onEof s) ∨
       (corrInputEnd s = .error ∧ corrRead k mk onEof s = .done (raiseFault .corr .read s)))) ∨
    ((corrInput s).length < k - s.corr.rbuf.length ∧ corrInput s ≠ [] ∧
      corrRead k mk onEof s =
        .done { dropInput (corrInput s).length s with corr := { s.corr with rbuf := s.corr.rbuf ++ corrInput s } }) := by
  unfold corrRead
  simp only
  split
  · exact .inl ⟨‹_›, by rw [← afterRead_eq]⟩
  · rename_i hn
    refine .inr ?_
    split
    · rename_i he
      refine .inl ⟨by omega, by simpa using he, ?_⟩
      cases hc : corrInputEnd s <;> simp
    · rename_i he
      exact .inr ⟨by omega, by simpa using he, by simp⟩

/-! One step. -/

/-- Every way a step answers a next state: an operation run in the state an agent's move has prepared, a move that is
complete, an agent that stays as it is, or an action of the host. -/
theorem settle_eq_next {idle t : State} {m : Move} (h : settle idle m = .next t) :
    (∃ i s, m = .run i s ∧ exec i s = .next t) ∨ m = .done t ∨ ((m = .blocked ∨ m = .halted) ∧ t = idle) := by
  cases m with
  | run i s => exact .inl ⟨i, s, rfl, h⟩
  | done s => simp only [settle] at h; cases h; exact .inr (.inl rfl)
  | blocked => simp only [settle] at h; cases h; exact .inr (.inr ⟨.inl rfl, rfl⟩)
  | halted => simp only [settle] at h; cases h; exact .inr (.inr ⟨.inr rfl, rfl⟩)

/-- Every way a step answers a next state. -/
theorem step_cases {s t : State} (h : step s = .next t) :
    (∃ a limit sc, (s.script = [] ∧ sc = [] ∧ limit = none ∨
        ∃ rest, sc = rest ∧ (s.script = .run a :: rest ∧ limit = none ∨ ∃ k, s.script = .push a k :: rest ∧ limit = some k)) ∧
      ((∃ i s', agentMove a limit { s with script := sc } = .run i s' ∧ exec i s' = .next t) ∨
       agentMove a limit { s with script := sc } = .done t ∨ t = { s with script := sc })) ∨
    (∃ a rest, s.script = .abort a :: rest ∧ t = abortAgent a { s with script := rest }) ∨
    (∃ p r st rest, (s.script = .refuse p :: rest ∨ ∃ on, s.script = .stall p on :: rest) ∧
      t = { s with script := rest, io := hostPort p r st s.io }) := by
  have key : ∀ a limit sc, settle { s with script := sc } (agentMove a limit { s with script := sc }) = .next t →
      ((∃ i s', agentMove a limit { s with script := sc } = .run i s' ∧ exec i s' = .next t) ∨
       agentMove a limit { s with script := sc } = .done t ∨ t = { s with script := sc }) := by
    intro a limit sc h
    rcases settle_eq_next h with ⟨i, s', h1, h2⟩ | h1 | ⟨-, h1⟩
    · exact .inl ⟨i, s', h1, h2⟩
    · exact .inr (.inl h1)
    · exact .inr (.inr h1)
  unfold step at h
  split at h
  · rename_i hs
    have hid : { s with script := [] } = s := by cases s; simp_all
    unfold freeStep at h
    refine .inl ?_
    split at h
    · refine ⟨.corr, none, [], .inl ⟨hs, rfl, rfl⟩, key .corr none [] ?_⟩
      rw [hid]; exact h
    · split at h
      · cases h
      · refine ⟨.corr, none, [], .inl ⟨hs, rfl, rfl⟩, key .corr none [] ?_⟩
        rw [hid]; exact h
    · refine ⟨.demod, none, [], .inl ⟨hs, rfl, rfl⟩, key .demod none [] ?_⟩
      rw [hid]; exact h
  · rename_i a rest hs
    exact .inl ⟨a, none, rest, .inr ⟨rest, rfl, .inl ⟨hs, rfl⟩⟩, key a none rest h⟩
  · rename_i a k rest hs
    exact .inl ⟨a, some k, rest, .inr ⟨rest, rfl, .inr ⟨k, hs, rfl⟩⟩, key a (some k) rest h⟩
  · rename_i a rest hs
    exact .inr (.inl ⟨a, rest, hs, by simpa using h.symm⟩)
  · rename_i p rest hs
    exact .inr (.inr ⟨p, some true, none, rest, .inl hs, by simpa using h.symm⟩)
  · rename_i p on rest hs
    exact .inr (.inr ⟨p, none, some on, rest, .inr ⟨on, hs⟩, by simpa using h.symm⟩)

/-- A step in which DEMOD moves. -/
theorem step_demod {sc : List HostAct} {s : State} (h : DemodMoves sc s)
    (hm : demodMove none { s with script := sc } ≠ .blocked) (hh : demodMove none { s with script := sc } ≠ .halted) :
    step s = settle { s with script := sc } (demodMove none { s with script := sc }) := by
  rcases h with h | ⟨h, rfl⟩
  · simp [step, h, agentMove]
  · have hid : { s with script := [] } = s := by cases s; simp_all
    rw [hid] at hm hh ⊢
    unfold step freeStep
    rw [h]
    cases hd : demodMove none s with
    | blocked => exact absurd hd hm
    | halted => exact absurd hd hh
    | run i s' => rfl
    | done s' => rfl

/-- A step in which CORR moves. -/
theorem step_corr {sc : List HostAct} {s : State} (h : CorrMoves sc s)
    (hh : corrMove none { s with script := sc } ≠ .halted) :
    step s = settle { s with script := sc } (corrMove none { s with script := sc }) := by
  rcases h with h | ⟨h, rfl, hd⟩
  · simp [step, h, agentMove]
  · have hid : { s with script := [] } = s := by cases s; simp_all
    rw [hid] at hh ⊢
    unfold step freeStep
    rw [h]
    rcases hd with hd | hd
    · simp only [hd]
    · simp only [hd]

/-- DEMOD's move while it reads. -/
theorem demodMove_read {s : State} (h : DemodReads s) (limit : Option Nat) : demodMove limit s = demodRead s := by
  obtain ⟨h1, h2, h3⟩ := h
  simp [demodMove, h1, h2, h3]

/-- CORR's move while it reads or decodes. -/
theorem corrMove_reads {c : CState} {s : State} (h : CorrReads c s) (limit : Option Nat) :
    corrMove limit s =
      match c with
      | .hdr => corrRead 36 .header headerEof s
      | .samples => corrRead 4 .sample sampleEof s
      | .decode => (match s.corr.htype with | .F => .run .cFisb s | .A => .run .cAdsb s)
      | _ => .halted := by
  cases c <;> (unfold corrMove; rw [h.1, h.2.1, h.2.2]; rfl)

/-- A step in which CORR has something to hand over is that transfer and nothing else. -/
theorem step_corr_writes {limit : Option Nat} {sc : List HostAct} {s : State}
    (h : HostRuns .corr limit sc s ∨ limit = none ∧ CorrMoves sc s)
    (live : CorrLive s) (hw : s.io.capWr ≠ [] ∨ s.io.outWr ≠ []) :
    step s = settle { s with script := sc } (ofTransfer (pumpCorr limit { s with script := sc })) := by
  have hl : s.corr.ctl.live = true := live
  have he : (s.io.capWr.isEmpty && s.io.outWr.isEmpty) = false := by
    rcases hw with hw | hw <;> simp [hw]
  have hc : corrMove limit { s with script := sc } = ofTransfer (pumpCorr limit { s with script := sc }) := by
    simp [corrMove, hl, he]
  rcases h with h | ⟨rfl, h⟩
  · rw [← hc]
    unfold HostRuns at h
    cases limit <;> simp only at h <;> simp only [step, h, agentMove]
  · rw [step_corr h (by rw [hc]; unfold ofTransfer; split <;> nofun), hc]

/-- A DEMOD with a record in progress hands it over and does nothing else. -/
theorem demodMove_writes {limit : Option Nat} {s : State} (live : DemodLive s) (ha : s.io.alone = false)
    (hw : s.io.chWr ≠ []) : demodMove limit s = ofTransfer (pumpCh limit s) := by
  have hl : s.demod.ctl.live = true := live
  simp [demodMove, hl, ha, hw]

/-- A step in which DEMOD hands bytes over, or finds `CH` closed by its reader. -/
theorem step_demod_writes {limit : Option Nat} {sc : List HostAct} {s t : State}
    (h : HostRuns .demod limit sc s ∨ limit = none ∧ DemodMoves sc s) (live : DemodLive s) (ha : s.io.alone = false)
    (hw : s.io.chWr ≠ []) (hp : pumpCh limit { s with script := sc } = some t) : step s = .next t := by
  have hd : demodMove limit { s with script := sc } = .done t := by
    rw [demodMove_writes (s := { s with script := sc }) live ha hw, hp]; rfl
  rcases h with h | ⟨rfl, h⟩
  · unfold HostRuns at h
    cases limit <;> simp only at h <;> simp only [step, h, agentMove, hd, settle]
  · rw [step_demod h (by rw [hd]; nofun) (by rw [hd]; nofun), hd]; rfl

end Sys2Proof.Machine
end

