-- ==== Sys2Proof/Laws/Decoder.lean ====
section
/-! SUPPORT. What a Reed–Solomon attempt and the search order can answer (43_rs_decoder.md R147 to R155). -/

namespace Sys2Proof.Machine

/-! Field operations at zero. -/

@[simp] theorem withByte_eq {α : Type} (b : Byte) (k : Byte → α) : withByte b k = k b := by
  unfold withByte
  split
  · rename_i h
    congr 1
    exact BitVec.eq_of_toNat_eq (by simp [h])
  · rename_i m h
    congr 1
    exact BitVec.eq_of_toNat_eq (by have := b.isLt; simp; omega)

theorem gfDouble_zero (p : BitVec 9) : gfDouble p 0#8 = 0#8 := by
  simp [gfDouble]

theorem gfMulAux_zero (p : BitVec 9) (b : Byte) (f : Nat) : gfMulAux p 0#8 b f = 0#8 := by
  induction f generalizing b with
  | zero => rfl
  | succ f ih => rw [gfMulAux, gfDouble_zero, ih]; simp

@[simp] theorem gfMul_zero_left (p : BitVec 9) (b : Byte) : gfMul p 0#8 b = 0#8 := by
  rw [gfMul, withByte_eq, withByte_eq, gfMulAux_zero]

theorem wordEval_zeros (p : BitVec 9) (n : Nat) (x : Byte) : wordEval p (List.replicate n 0#8) x = 0#8 := by
  induction n with
  | zero => rfl
  | succ n ih => simpa [wordEval, List.replicate_succ] using ih

/-- The all-zero word is a codeword of every code. -/
theorem isCodeword_zeros (rs : RsParams) (code : Code) : isCodeword rs code (List.replicate (codeN code) 0#8) = true := by
  simp [isCodeword, syndromes, wordEval_zeros]

theorem isCodeword_length {rs : RsParams} {code : Code} {y : List Byte} (h : isCodeword rs code y = true) :
    y.length = codeN code := by
  simp [isCodeword] at h; exact h.1

theorem byteDistance_self (y : List Byte) : byteDistance y y = 0 := by
  induction y with
  | nil => rfl
  | cons b y ih => simp [byteDistance, ih]

/-- `byteDistance` counts the positions at which two words of one length differ. -/
theorem byteDistance_eq_wrongBytes (c y : List Byte) (n : Nat) (hc : c.length = n) (hy : y.length = n) :
    byteDistance c y = wrongBytes n c y := by
  induction n generalizing c y with
  | zero =>
    have h1 := List.length_eq_zero_iff.mp hc
    simp [h1, byteDistance, wrongBytes]
  | succ n ih =>
    match c, y, hc, hy with
    | a :: c, b :: y, hc, hy =>
      rw [byteDistance, ih c y (by simpa using hc) (by simpa using hy)]
      unfold wrongBytes
      rw [List.range_succ_eq_map, List.filter_cons, List.filter_map]
      by_cases hab : a = b
      · simp [hab]; rfl
      · simp [hab]; rw [Nat.add_comm]; rfl

/-- An answer of `RSDecode` is a codeword within `t` bytes of the word, and its distance (43_rs_decoder.md R147). -/
theorem rsDecode_sound {par : Params} {code : Code} {y c : List Byte} {e : Nat} (h : rsDecode par code y = some (c, e)) :
    isCodeword (codeParams par code) code c = true ∧ c.length = codeN code ∧ y.length = codeN code ∧
    e = byteDistance c y ∧ e ≤ codeT code := by
  unfold rsDecode at h
  simp only at h
  split at h
  · rename_i hc
    simp only [Option.some.injEq, Prod.mk.injEq] at h
    obtain ⟨rfl, rfl⟩ := h
    exact ⟨hc, isCodeword_length hc, isCodeword_length hc, (byteDistance_self _).symm, Nat.zero_le _⟩
  · split at h
    · rename_i hc
      simp only [Option.some.injEq, Prod.mk.injEq] at h
      obtain ⟨rfl, rfl⟩ := h
      exact ⟨hc.2.1, isCodeword_length hc.2.1, hc.1, rfl, hc.2.2⟩
    · cases h

theorem rsDecode_codeword {par : Params} {code : Code} {y : List Byte}
    (h : isCodeword (codeParams par code) code y = true) : rsDecode par code y = some (y, 0) := by
  simp [rsDecode, h]

/-- An answer of an attempt: the data part of such a codeword. -/
theorem rsAttempt_sound {par : Params} {code : Code} {y d : List Byte} {e : Nat} (h : rsAttempt par code y = some (d, e)) :
    ∃ c, rsDecode par code y = some (c, e) ∧ d = c.take (codeK code) := by
  unfold rsAttempt at h
  split at h
  · rename_i c e' hr
    simp only [Option.some.injEq, Prod.mk.injEq] at h
    obtain ⟨rfl, rfl⟩ := h
    exact ⟨c, hr, rfl⟩
  · cases h

theorem codeK_le_codeN (code : Code) : codeK code ≤ codeN code := by cases code <;> decide

/-- The data of an answer has the code's data length, and its error count is at most `t`. -/
theorem rsAttempt_length {par : Params} {code : Code} {y d : List Byte} {e : Nat} (h : rsAttempt par code y = some (d, e)) :
    d.length = codeK code ∧ e ≤ codeT code := by
  obtain ⟨c, hc, rfl⟩ := rsAttempt_sound h
  obtain ⟨-, hl, -, -, he⟩ := rsDecode_sound hc
  have := codeK_le_codeN code
  exact ⟨by simp; omega, he⟩

theorem rsAttempt_codeword {par : Params} {code : Code} {y : List Byte}
    (h : isCodeword (codeParams par code) code y = true) : rsAttempt par code y = some (y.take (codeK code), 0) := by
  simp [rsAttempt, rsDecode_codeword h]

/-! The search order. -/

theorem mem_searchOrder {n h j : Nat} (hh : h ≤ n) : j ∈ searchOrder n h ↔ j ≤ n := by
  unfold searchOrder
  simp only [List.mem_cons, List.mem_append, List.mem_filter, List.mem_map, List.mem_range]
  constructor
  · rintro (h | h | ⟨⟨a, ha, rfl⟩, -⟩)
    · omega
    · split at h <;> simp_all
    · omega
  · intro hj
    by_cases h0 : j = 0
    · exact .inl h0
    · by_cases hjh : j = h
      · right; left; rw [if_pos (by omega)]; simp [hjh]
      · right; right; exact ⟨⟨j - 1, by omega, by omega⟩, by simp [hjh]⟩

/-! First success in a list of attempts. -/

/-- `findSome?` answers the first success. -/
theorem findSome?_eq_some_iff_split {α β : Type} (f : α → Option β) (l : List α) (b : β) :
    l.findSome? f = some b ↔ ∃ pre a post, l = pre ++ a :: post ∧ f a = some b ∧ ∀ x ∈ pre, f x = none :=
  List.findSome?_eq_some_iff

theorem searchAttempt_eq_some {par : Params} {i : Fin 6} {w : Window} {cb : List Sample} {j k : Nat} {d : List Byte}
    {e : Nat} : searchAttempt par i w cb j = some (k, d, e) ↔
      k = j ∧ rsAttempt par .uplink (variantBlock par i w j cb) = some (d, e) := by
  unfold searchAttempt
  cases h : rsAttempt par .uplink (variantBlock par i w j cb) with
  | none => simp
  | some r => obtain ⟨d', e'⟩ := r; simp only [Option.some.injEq, Prod.mk.injEq]; tauto

theorem searchAttempt_eq_none {par : Params} {i : Fin 6} {w : Window} {cb : List Sample} {j : Nat} :
    searchAttempt par i w cb j = none ↔ rsAttempt par .uplink (variantBlock par i w j cb) = none := by
  unfold searchAttempt
  cases h : rsAttempt par .uplink (variantBlock par i w j cb) <;> simp

/-- An answer of `C.SEARCH`: 72 data bytes and at most 10 errors, of an index in the schedule. -/
theorem searchBlock_sound {par : Params} {i : Fin 6} {w : Window} {h : Nat} {cb : List Sample} {j : Nat} {d : List Byte}
    {e : Nat} (hh : h ≤ par.schedule.length) (hs : searchBlock par i w h cb = some (j, d, e)) :
    j ≤ par.schedule.length ∧ rsAttempt par .uplink (variantBlock par i w j cb) = some (d, e) := by
  obtain ⟨pre, a, post, h1, h2, -⟩ := (findSome?_eq_some_iff_split _ _ _).mp hs
  obtain ⟨rfl, h2⟩ := searchAttempt_eq_some.mp h2
  refine ⟨(mem_searchOrder hh).mp ?_, h2⟩
  rw [h1]; simp

theorem tzRepair_length {par : Params} {i : Fin 6} {cb : List Sample} {d : List Byte} {e : Nat}
    (h : tzRepair par i cb = some (d, e)) : d.length = 72 ∧ e ≤ 10 := by
  unfold tzRepair at h
  simp only at h
  split at h
  · cases h
  · exact rsAttempt_length h

theorem fixedRepair_length {cfg : Cfg} {par : Params} {cb : List Sample} {d : List Byte} {e : Nat}
    (h : fixedRepair cfg par cb = some (d, e)) : d.length = 72 ∧ e ≤ 10 := by
  unfold fixedRepair at h
  simp only at h
  split at h
  · rename_i r hr
    simp only [Option.some.injEq] at h
    subst h
    exact rsAttempt_length hr
  · split at h
    · obtain ⟨pre, a, post, -, h2, -⟩ := (findSome?_eq_some_iff_split _ _ _).mp h
      exact rsAttempt_length h2
    · cases h

theorem keepHint_eq_some {h : Nat} {o : Option (List Byte × Nat)} {d : List Byte} {e nh : Nat} :
    keepHint h o = some (d, e, nh) ↔ o = some (d, e) ∧ nh = h := by
  cases o with
  | none => simp [keepHint]
  | some r => obtain ⟨d', e'⟩ := r; simp only [keepHint, Option.some.injEq, Prod.mk.injEq]; tauto

/-- An answer of `C.BLOCK`: 72 data bytes, at most 10 errors, and a hint in the schedule. -/
theorem blockDecode_sound {cfg : Cfg} {par : Params} {i : Fin 6} {h : Nat} {cb : List Sample} {d : List Byte} {e nh : Nat}
    (hh : h ≤ par.schedule.length) (hb : blockDecode cfg par i h cb = some (d, e, nh)) :
    d.length = 72 ∧ e ≤ 10 ∧ nh ≤ par.schedule.length := by
  unfold blockDecode at hb
  split at hb
  · rename_i j d' e' hs
    simp only [Option.some.injEq, Prod.mk.injEq] at hb
    obtain ⟨rfl, rfl, rfl⟩ := hb
    obtain ⟨h1, h2⟩ := searchBlock_sound hh hs
    exact ⟨(rsAttempt_length h2).1, (rsAttempt_length h2).2, h1⟩
  · split at hb
    · rename_i j d' e' hs
      simp only [Option.some.injEq, Prod.mk.injEq] at hb
      obtain ⟨rfl, rfl, rfl⟩ := hb
      obtain ⟨h1, h2⟩ := searchBlock_sound hh hs
      exact ⟨(rsAttempt_length h2).1, (rsAttempt_length h2).2, hh⟩
    · split at hb
      · rename_i r hr
        simp only [Option.some.injEq] at hb
        subst hb
        unfold blockStep5 at hr
        split at hr
        · obtain ⟨h1, rfl⟩ := keepHint_eq_some.mp hr
          exact ⟨(tzRepair_length h1).1, (tzRepair_length h1).2, hh⟩
        · cases hr
      · unfold blockStep6 at hb
        split at hb
        · obtain ⟨h1, rfl⟩ := keepHint_eq_some.mp hb
          exact ⟨(fixedRepair_length h1).1, (fixedRepair_length h1).2, hh⟩
        · cases hb

/-! What a packet's decode may write. -/

/-- The decode loop at a block that could not be decoded (43_rs_decoder.md R170). -/
theorem fisbBlocks_fail {cfg : Cfg} {par : Params} {i : Fin 6} {l : List (Fin 6)} {c : Corr}
    (h : blockDecode cfg par i c.hint (cbufOf c) = none) :
    fisbBlocks cfg par (i :: l) c = fisbBlocks cfg par l (failBlock i c) := by
  rw [fisbBlocks, h]

/-- The decode loop at a block that was decoded, without the shortcut (43_rs_decoder.md R170). -/
theorem fisbBlocks_store {cfg : Cfg} {par : Params} {i : Fin 6} {l : List (Fin 6)} {c : Corr} {d : List Byte} {e nh : Nat}
    (h : blockDecode cfg par i c.hint (cbufOf c) = some (d, e, nh))
    (hs : i ≠ 0 ∨ shortcutTaken par (storeBlock i d e nh c) = false) :
    fisbBlocks cfg par (i :: l) c = fisbBlocks cfg par l (storeBlock i d e nh c) := by
  rw [fisbBlocks, h]
  simp only
  rw [if_neg]
  rintro ⟨h1, h2⟩
  rcases hs with hs | hs
  · exact hs h1
  · rw [h2] at hs; cases hs

/-- The decode loop when the shortcut is taken after block 0 (43_rs_decoder.md R161, R170). -/
theorem fisbBlocks_skip {cfg : Cfg} {par : Params} {l : List (Fin 6)} {c : Corr} {d : List Byte} {e nh : Nat}
    (h : blockDecode cfg par 0 c.hint (cbufOf c) = some (d, e, nh))
    (hs : shortcutTaken par (storeBlock 0 d e nh c) = true) :
    fisbBlocks cfg par (0 :: l) c = skipBlocks (storeBlock 0 d e nh c) := by
  rw [fisbBlocks, h]
  exact if_pos ⟨rfl, hs⟩

/-- One block of the decode without the shortcut (43_rs_decoder.md R156, R170). -/
def decodeBlock (cfg : Cfg) (par : Params) (c : Corr) (i : Fin 6) : Corr :=
  match blockDecode cfg par i c.hint (cbufOf c) with
  | some (d, e, nh) => storeBlock i d e nh c
  | none => failBlock i c

theorem decodeBlock_fail {cfg : Cfg} {par : Params} {i : Fin 6} {c : Corr}
    (h : blockDecode cfg par i c.hint (cbufOf c) = none) : decodeBlock cfg par c i = failBlock i c := by
  rw [decodeBlock, h]

theorem decodeBlock_store {cfg : Cfg} {par : Params} {i : Fin 6} {c : Corr} {d : List Byte} {e nh : Nat}
    (h : blockDecode cfg par i c.hint (cbufOf c) = some (d, e, nh)) : decodeBlock cfg par c i = storeBlock i d e nh c := by
  rw [decodeBlock, h]

/-- The decode of a block writes the hint and its own status and data. -/
theorem decodeBlock_eq (cfg : Cfg) (par : Params) (c : Corr) (i : Fin 6) : decodeBlock cfg par c i = { c with
    hint := (match blockDecode cfg par i c.hint (cbufOf c) with | some (_, _, nh) => nh | none => c.hint),
    status := c.status.set i (match blockDecode cfg par i c.hint (cbufOf c) with
      | some (_, e, _) => .decoded e
      | none => .uncorrectable),
    data := (match blockDecode cfg par i c.hint (cbufOf c) with | some (d, _, _) => c.data.set i d | none => c.data) } := by
  unfold decodeBlock
  split <;> rfl

/-- Blocks 1..5 are decoded one after the other. -/
theorem fisbBlocks_foldl {cfg : Cfg} {par : Params} {l : List (Fin 6)} {c : Corr} (h0 : 0 ∉ l) :
    fisbBlocks cfg par l c = l.foldl (decodeBlock cfg par) c := by
  induction l generalizing c with
  | nil => rfl
  | cons a l ih =>
    simp only [List.mem_cons, not_or] at h0
    rw [List.foldl_cons]
    rcases hb : blockDecode cfg par a c.hint (cbufOf c) with _ | ⟨d, e, nh⟩
    · rw [fisbBlocks_fail hb, ih h0.2, decodeBlock_fail hb]
    · rw [fisbBlocks_store hb (.inl (Ne.symm h0.1)), ih h0.2, decodeBlock_store hb]

/-- A decode in which the shortcut is not taken: all six blocks one after the other. -/
theorem fisbDecode_foldl {cfg : Cfg} {par : Params} {c : Corr}
    (h : ∀ d e nh, blockDecode cfg par 0 0 (cbufOf c) = some (d, e, nh) → block0End par d ≠ .ends) :
    fisbDecode cfg par c = (List.finRange 6).foldl (decodeBlock cfg par) (packetStart c) := by
  have e6 : List.finRange 6 = 0 :: [1, 2, 3, 4, 5] := by decide
  unfold fisbDecode
  rw [e6, List.foldl_cons, ← fisbBlocks_foldl (by decide)]
  rcases hb : blockDecode cfg par 0 0 (cbufOf c) with _ | ⟨d, e, nh⟩
  · have hb' : blockDecode cfg par 0 (packetStart c).hint (cbufOf (packetStart c)) = none := hb
    rw [fisbBlocks_fail hb', decodeBlock_fail hb']
  · have := h d e nh hb
    have hb' : blockDecode cfg par 0 (packetStart c).hint (cbufOf (packetStart c)) = some (d, e, nh) := hb
    rw [fisbBlocks_store hb' (.inr (by simpa [shortcutTaken, storeBlock] using this)), decodeBlock_store hb']

/-- A decode in which the shortcut is taken after block 0. -/
theorem fisbDecode_skip {cfg : Cfg} {par : Params} {c : Corr} {d : List Byte} {e nh : Nat}
    (h : blockDecode cfg par 0 0 (cbufOf c) = some (d, e, nh)) (he : block0End par d = .ends) :
    fisbDecode cfg par c = skipBlocks (storeBlock 0 d e nh (packetStart c)) := by
  have e6 : List.finRange 6 = 0 :: [1, 2, 3, 4, 5] := by decide
  have h' : blockDecode cfg par 0 (packetStart c).hint (cbufOf (packetStart c)) = some (d, e, nh) := h
  unfold fisbDecode
  rw [e6]
  exact fisbBlocks_skip h' (by simp [shortcutTaken, storeBlock, he])

/-- The decode loop of `C.FISB` writes only `HINT`, `STATUS` and `DATA`. -/
theorem fisbBlocks_frame (cfg : Cfg) (par : Params) (l : List (Fin 6)) (c : Corr) :
    fisbBlocks cfg par l c = { c with
      hint := (fisbBlocks cfg par l c).hint, status := (fisbBlocks cfg par l c).status,
      data := (fisbBlocks cfg par l c).data } := by
  induction l generalizing c with
  | nil => rfl
  | cons i l ih =>
    rw [fisbBlocks]
    split
    · rename_i d e nh _
      simp only
      split
      · rfl
      · have := ih (storeBlock i d e nh c)
        rw [this]
        rfl
    · have := ih (failBlock i c)
      rw [this]
      rfl

theorem fisbDecode_frame (cfg : Cfg) (par : Params) (c : Corr) :
    fisbDecode cfg par c = { c with
      hint := (fisbDecode cfg par c).hint, status := (fisbDecode cfg par c).status,
      data := (fisbDecode cfg par c).data } := by
  unfold fisbDecode
  have h := fisbBlocks_frame cfg par (List.finRange 6) (packetStart c)
  generalize fisbBlocks cfg par (List.finRange 6) (packetStart c) = x at h ⊢
  exact h.trans rfl

/-- A success on one ADS-B variant is an accepted attempt, and a short one means that the long word was not accepted. -/
theorem adsbAttempt_eq_some {par : Params} {cb : List Sample} {w : Window} {j : Nat} {d : List Byte} {e : Nat}
    (h : adsbAttempt par cb (w, j) = some (d, e)) :
    ∃ code, AdsbAccepted par cb w j code d e ∧ (code = .short → ∀ d e, ¬AdsbAccepted par cb w j .long d e) := by
  unfold adsbAttempt at h
  simp only [codewords, variantBytes] at h
  split at h
  · rename_i r hr
    cases h
    rw [Option.filter_eq_some_iff] at hr
    exact ⟨.long, ⟨hr.1, by simpa using hr.2⟩, nofun⟩
  · rename_i hn
    rw [Option.filter_eq_some_iff] at h
    rw [Option.filter_eq_none_iff] at hn
    exact ⟨.short, ⟨h.1, by simpa using h.2⟩, fun _ d e hh => hh.2 (by simpa using hn _ hh.1)⟩

/-- One ADS-B variant fails iff neither of its words is accepted. -/
theorem adsbAttempt_eq_none {par : Params} {cb : List Sample} {w : Window} {j : Nat} :
    adsbAttempt par cb (w, j) = none ↔ ∀ code d e, ¬AdsbAccepted par cb w j code d e := by
  constructor
  · intro h code d e hh
    unfold adsbAttempt at h
    simp only [codewords, variantBytes] at h
    split at h
    · cases h
    · rename_i hn
      rw [Option.filter_eq_none_iff] at hn h
      cases code with
      | long => exact hh.2 (by simpa using hn _ hh.1)
      | short => exact absurd hh.2 (by simpa using h _ hh.1)
      | uplink => exact hh
  · intro h
    cases ha : adsbAttempt par cb (w, j) with
    | none => rfl
    | some r =>
      obtain ⟨d, e⟩ := r
      obtain ⟨code, hc, -⟩ := adsbAttempt_eq_some ha
      exact absurd hc (h code d e)

theorem captureIf_eq (on : Bool) (k : CapKind) (s : State) :
    captureIf on k s =
      { s with io := { s.io with capWr := s.io.capWr ++ (if on then [captureRecord s.par k s.corr] else []) } } := by
  cases on
  · exact (congrArg (fun l => ({ s with io := { s.io with capWr := l } } : State)) (List.append_nil _)).symm
  · rfl

/-- `C.COMPLETE` of a success (44_output.md R177). -/
theorem completeStep_success (d : List Byte) (s : State) :
    completeStep (.success d) s = { s with io := { s.io with
      capWr := s.io.capWr ++ (if s.cfg.captureRaw then [captureRecord s.par .raw s.corr] else []),
      outWr := s.io.outWr ++ successLine s.par s.corr d } } := by
  unfold completeStep
  rw [captureIf_eq]
  rfl

/-- `C.COMPLETE` of a failure (44_output.md R177). -/
theorem completeStep_failure (s : State) :
    completeStep .failure s = { s with io := { s.io with
      capWr := s.io.capWr ++ (if s.cfg.captureRaw then [captureRecord s.par .raw s.corr] else []) ++
        (if s.cfg.captureFail then [captureRecord s.par .fail s.corr] else []),
      outWr := s.io.outWr ++ (if failLineOn s.cfg s.corr.htype then failureLine s.par s.corr else []) } } := by
  unfold completeStep
  simp only [captureIf_eq]
  split
  · rfl
  · exact congrArg (fun l => ({ s with io := { s.io with
      capWr := s.io.capWr ++ (if s.cfg.captureRaw then [captureRecord s.par .raw s.corr] else []) ++
        (if s.cfg.captureFail then [captureRecord s.par .fail s.corr] else []),
      outWr := l } } : State)) (List.append_nil _).symm

/-- `C.FISB` of a packet that succeeds (43_rs_decoder.md R170). -/
theorem fisbStep_success {s : State} {d : List Byte} (h : fisbOutcome (fisbDecode s.cfg s.par s.corr) = .success d) :
    fisbStep s = { s with
      corr := { fisbDecode s.cfg s.par s.corr with ctl := .hdr },
      io := { s.io with
        capWr := s.io.capWr ++
          (if s.cfg.captureRaw then [captureRecord s.par .raw (fisbDecode s.cfg s.par s.corr)] else []),
        outWr := s.io.outWr ++ successLine s.par (fisbDecode s.cfg s.par s.corr) d } } := by
  unfold fisbStep
  simp only [h, completeStep_success]

/-- `C.FISB` of a packet that fails (43_rs_decoder.md R170). -/
theorem fisbStep_failure {s : State} (h : fisbOutcome (fisbDecode s.cfg s.par s.corr) = .failure) :
    fisbStep s = { s with
      corr := { fisbDecode s.cfg s.par s.corr with ctl := .hdr },
      io := { s.io with
        capWr := s.io.capWr ++
          (if s.cfg.captureRaw then [captureRecord s.par .raw (fisbDecode s.cfg s.par s.corr)] else []) ++
          (if s.cfg.captureFail then [captureRecord s.par .fail (fisbDecode s.cfg s.par s.corr)] else []),
        outWr := s.io.outWr ++ (if failLineOn s.cfg (fisbDecode s.cfg s.par s.corr).htype then
          failureLine s.par (fisbDecode s.cfg s.par s.corr) else []) } } := by
  unfold fisbStep
  simp only [h, completeStep_failure]

/-- `C.ADSB` of a packet that succeeds (43_rs_decoder.md R173). -/
theorem adsbStep_success {s : State} {d : List Byte} {e : Nat} (h : adsbSearch s.par (cbufOf s.corr) = some (d, e)) :
    adsbStep s = { s with
      corr := { packetStart s.corr with astatus := .decoded e, adata := d, ctl := .hdr },
      io := { s.io with
        capWr := s.io.capWr ++ (if s.cfg.captureRaw then
          [captureRecord s.par .raw { packetStart s.corr with astatus := .decoded e, adata := d }] else []),
        outWr := s.io.outWr ++ successLine s.par { packetStart s.corr with astatus := .decoded e, adata := d } d } } := by
  unfold adsbStep
  simp only [h, completeStep_success]

/-- `C.ADSB` of a packet that fails (43_rs_decoder.md R173). -/
theorem adsbStep_failure {s : State} (h : adsbSearch s.par (cbufOf s.corr) = none) :
    adsbStep s = { s with
      corr := { packetStart s.corr with astatus := .uncorrectable, ctl := .hdr },
      io := { s.io with
        capWr := s.io.capWr ++
          (if s.cfg.captureRaw then [captureRecord s.par .raw { packetStart s.corr with astatus := .uncorrectable }] else []) ++
          (if s.cfg.captureFail then [captureRecord s.par .fail { packetStart s.corr with astatus := .uncorrectable }] else []),
        outWr := s.io.outWr ++ (if failLineOn s.cfg s.corr.htype then
          failureLine s.par { packetStart s.corr with astatus := .uncorrectable } else []) } } := by
  unfold adsbStep
  simp only [h, completeStep_failure, packetStart_htype]

end Sys2Proof.Machine
end

