-- ==== Sys2Proof/Laws/Exec.lean ====
section
/-! SUPPORT. The next state of each operation, in terms of the operation it shares (each is one of the rules the
operation's meaning cites). -/

namespace Sys2Proof.Machine

theorem exec_dChunk {s : State} (live : DemodLive s) (sec usec len : Nat) :
    exec (.dChunk sec usec len) s = .next ({ s with demod := latchTag sec usec s.demod }) := by
  simp only [exec, execDChunk, demodRun_live live]

theorem exec_dIq {s : State} (live : DemodLive s) (i q : Half) :
    exec (.dIq i q) s = .next (iqStep i q s) := by
  simp only [exec, execDIq, demodRun_live live]

theorem exec_dEof {s : State} (live : DemodLive s) :
    exec .dEof s = .next (endDemod s) := by
  simp only [exec, execDEof, demodRun_live live]

theorem exec_dDisc {s : State} (live : DemodLive s) (i q : Half) :
    exec (.dDisc i q) s = .next ({ s with demod := rollPair s.demod i q, ret := .sample (discriminate s.demod i q) }) := by
  simp only [exec, execDDisc, demodRun_live live]

theorem exec_dEnergy {s : State} (live : DemodLive s) (v : Sample) :
    exec (.dEnergy v) s = .next ({ s with demod := energyStep v s.demod }) := by
  simp only [exec, execDEnergy, demodRun_live live]

theorem exec_dGate {s : State} (live : DemodLive s) :
    exec .dGate s = .next ({ s with demod := gateStep s.cfg s.demod }) := by
  simp only [exec, execDGate, demodRun_live live]

theorem exec_dShift {s : State} (live : DemodLive s) (p : Phase) (v : Sample) :
    exec (.dShift p v) s = .next ({ s with demod := shiftStep p v s.demod }) := by
  simp only [exec, execDShift, demodRun_live live]

theorem exec_dProbe {s : State} (live : DemodLive s) (p : Phase) :
    exec (.dProbe p) s = .next ({ s with demod := (probe s.cfg p s.demod).2, ret := .cand (probe s.cfg p s.demod).1 }) := by
  simp only [exec, execDProbe, demodRun_live live]

theorem exec_dCorrelate {s : State} (live : DemodLive s) (t : PType) :
    exec (.dCorrelate t) s = .next ({ s with ret := .corr (correlate t s.demod) }) := by
  simp only [exec, execDCorrelate, demodRun_live live]

theorem exec_dArbitrate {s : State} (live : DemodLive s) (c : Option Cand) (v : Sample) :
    exec (.dArbitrate c v) s = .next (arbitrateStep c v s) := by
  simp only [exec, execDArbitrate, demodRun_live live]

theorem exec_dSelect {s : State} (live : DemodLive s) (c : Cand) :
    exec (.dSelect c) s = .next ({ s with demod := selectStep c s.demod }) := by
  simp only [exec, execDSelect, demodRun_live live]

theorem exec_dCapture {s : State} (live : DemodLive s) (v : Sample) :
    exec (.dCapture v) s = .next (captureStep v s) := by
  simp only [exec, execDCapture, demodRun_live live]

theorem exec_dEmit {s : State} (live : DemodLive s) :
    exec .dEmit s = .next (emitFrame s) := by
  simp only [exec, execDEmit, demodRun_live live]

theorem exec_dStamp {s : State} (live : DemodLive s) :
    exec .dStamp s = .next ({ s with
      demod := countStamp s.demod, ret := .stamp (stampOf s.cfg s.demod).1 (stampOf s.cfg s.demod).2 }) := by
  simp only [exec, execDStamp, demodRun_live live]

theorem exec_dHeader {s : State} (live : DemodLive s) (c : Cand) :
    exec (.dHeader c) s = .next ({ s with ret := .bytes (headerBytes c) }) := by
  simp only [exec, execDHeader, demodRun_live live]

theorem exec_cHdrF {s : State} (live : CorrLive s) (h : List Byte) :
    exec (.cHdrF h) s = .next (headerStep h s) := by
  simp only [exec, execCHdrF, corrRun_live live]

theorem exec_cHdrA {s : State} (live : CorrLive s) (h : List Byte) :
    exec (.cHdrA h) s = .next (headerStep h s) := by
  simp only [exec, execCHdrA, corrRun_live live]

theorem exec_cSmp {s : State} (live : CorrLive s) (v : Sample) :
    exec (.cSmp v) s = .next ({ s with corr := sampleStep v s.corr }) := by
  simp only [exec, execCSmp, corrRun_live live]

theorem exec_cMix {s : State} (live : CorrLive s) (c m : Sample) (p : Nat) :
    exec (.cMix c m p) s = .next ({ s with ret := .bit (mixBit c m p) }) := by
  simp only [exec, execCMix, corrRun_live live]

theorem exec_cPack {s : State} (live : CorrLive s) (b : List Bool) :
    exec (.cPack b) s = .next ({ s with ret := .bytes (packBits b) }) := by
  simp only [exec, execCPack, corrRun_live live]

theorem exec_cDeint {s : State} (live : CorrLive s) (y : List Byte) :
    exec (.cDeint y) s = .next ({ s with ret := .blocks (deinterleave y) }) := by
  simp only [exec, execCDeint, corrRun_live live]

theorem exec_cAbytes {s : State} (live : CorrLive s) (z : List Byte) :
    exec (.cAbytes z) s = .next ({ s with ret := .words (codewords z).1 (codewords z).2 }) := by
  simp only [exec, execCAbytes, corrRun_live live]

theorem exec_cRs {s : State} (live : CorrLive s) (code : Code) (y : List Byte) :
    exec (.cRs code y) s = .next ({ s with ret := .rs (rsAttempt s.par code y) }) := by
  simp only [exec, execCRs, corrRun_live live]

theorem exec_cTz {s : State} (live : CorrLive s) (i : Fin 6) :
    exec (.cTz i) s = .next ({ s with ret := .rs (tzRepair s.par i (cbufOf s.corr)) }) := by
  simp only [exec, execCTz, corrRun_live live]

theorem exec_cFixed {s : State} (live : CorrLive s) :
    exec .cFixed s = .next ({ s with ret := .rs (fixedRepair s.cfg s.par (cbufOf s.corr)) }) := by
  simp only [exec, execCFixed, corrRun_live live]

theorem exec_cFisb {s : State} (live : CorrLive s) :
    exec .cFisb s = .next (fisbStep s) := by
  simp only [exec, execCFisb, corrRun_live live]

theorem exec_cAdsb {s : State} (live : CorrLive s) :
    exec .cAdsb s = .next (adsbStep s) := by
  simp only [exec, execCAdsb, corrRun_live live]

theorem exec_cComplete {s : State} (live : CorrLive s) (o : Completion) :
    exec (.cComplete o) s = .next (completeStep o s) := by
  simp only [exec, execCComplete, corrRun_live live]

theorem exec_cLine {s : State} (live : CorrLive s) (d : List Byte) :
    exec (.cLine d) s = .next (emitOut (successLine s.par s.corr d) s) := by
  simp only [exec, execCLine, corrRun_live live]

theorem exec_cFailline {s : State} (live : CorrLive s) :
    exec .cFailline s = .next (emitOut (failureLine s.par s.corr) s) := by
  simp only [exec, execCFailline, corrRun_live live]

theorem exec_cCapture {s : State} (live : CorrLive s) (k : CapKind) :
    exec (.cCapture k) s = .next (emitCap (captureRecord s.par k s.corr) s) := by
  simp only [exec, execCCapture, corrRun_live live]

theorem exec_cEof {s : State} (live : CorrLive s) :
    exec (.cEof .boundary) s = .next (endCorr s) ∧ exec (.cEof .midframe) s = .next (raiseFault .corr .eofMidFrame s) := by
  simp only [exec, execCEof, corrRun_live live, and_self]

theorem exec_cSlice {s : State} (live : CorrLive s) (w : Window) (t : PType) :
    exec (.cSlice w t) s = .next { s with
      ret := .slices
        ((windowTaps w t (cbufOf s.corr)).map Tap.bef) ((windowTaps w t (cbufOf s.corr)).map Tap.cur)
        ((windowTaps w t (cbufOf s.corr)).map Tap.aft) ((windowTaps w t (cbufOf s.corr)).map fun x => sliceBit x.cur) } := by
  simp only [exec, execCSlice, corrRun_live live]

theorem exec_cShortcut {s : State} (live : CorrLive s) :
    exec .cShortcut s = .next (if shortcutTaken s.par s.corr then { s with corr := skipBlocks s.corr, ret := .taken true } else
      { s with ret := .taken false }) := by
  simp only [exec, execCShortcut, corrRun_live live]

theorem exec_cVariant {s : State} (live : CorrLive s) (w : Window) (j : Nat) (t : PType) (hj : j ≤ s.par.schedule.length) :
    exec (.cVariant w j t) s = .next ({ s with ret := .bits (variantBits s.par w j t (cbufOf s.corr)) }) := by
  simp only [exec, execCVariant, corrRun_live live, if_pos hj]

theorem exec_cVariant_refused {s : State} (w : Window) (j : Nat) (t : PType) (hj : s.par.schedule.length < j) :
    exec (.cVariant w j t) s = .refused .scheduleIndex := by
  simp only [exec, execCVariant, if_neg (Nat.not_le_of_lt hj)]

theorem exec_cSearch {s : State} (live : CorrLive s) (i : Fin 6) (w : Window) (h : Nat) (hj : h ≤ s.par.schedule.length) :
    exec (.cSearch i w h) s = .next ({ s with ret := .found (searchBlock s.par i w h (cbufOf s.corr)) }) := by
  simp only [exec, execCSearch, corrRun_live live, if_pos hj]

theorem exec_cSearch_refused {s : State} (i : Fin 6) (w : Window) (h : Nat) (hj : s.par.schedule.length < h) :
    exec (.cSearch i w h) s = .refused .scheduleIndex := by
  simp only [exec, execCSearch, if_neg (Nat.not_le_of_lt hj)]

theorem exec_cBlock {s : State} (live : CorrLive s) (i : Fin 6) (h : Nat) (hj : h ≤ s.par.schedule.length) :
    exec (.cBlock i h) s = .next ({ s with ret := .block (blockDecode s.cfg s.par i h (cbufOf s.corr)) }) := by
  simp only [exec, execCBlock, corrRun_live live, if_pos hj]

theorem exec_cBlock_refused {s : State} (i : Fin 6) (h : Nat) (hj : s.par.schedule.length < h) :
    exec (.cBlock i h) s = .refused .scheduleIndex := by
  simp only [exec, execCBlock, if_neg (Nat.not_le_of_lt hj)]

end Sys2Proof.Machine
end

