-- ==== Sys2Proof/Laws/Numbers.lean ====
section
/-! SUPPORT. Exact arithmetic: the discriminator's range, the energy window and its sum, the sync distance
(40_demodulator.md R99, R100; 41_sync_detector.md R111 to R115). -/

namespace Sys2Proof.Machine

theorem half_bounds (h : Half) : -32768 ≤ h.toInt ∧ h.toInt ≤ 32767 := by
  have h1 := BitVec.le_toInt h
  have h2 := BitVec.toInt_lt (x := h)
  constructor <;> omega

theorem sample_bounds (v : Sample) : -2147483648 ≤ v.toInt ∧ v.toInt ≤ 2147483647 := by
  have h1 := BitVec.le_toInt v
  have h2 := BitVec.toInt_lt (x := v)
  constructor <;> omega

/-- `a·b` of two int16 values. -/
theorem half_mul_bounds (a b : Half) : -1073709056 ≤ a.toInt * b.toInt ∧ a.toInt * b.toInt ≤ 1073741824 := by
  obtain ⟨a1, a2⟩ := half_bounds a
  obtain ⟨b1, b2⟩ := half_bounds b
  constructor <;> nlinarith

/-- The discriminator is exact and stays within ±2,147,450,880 (40_demodulator.md R99). -/
theorem discriminate_toInt (d : Demod) (i q : Half) :
    (discriminate d i q).toInt = d.i2.toInt * q.toInt - i.toInt * d.q2.toInt ∧
    -2147450880 ≤ (discriminate d i q).toInt ∧ (discriminate d i q).toInt ≤ 2147450880 := by
  obtain ⟨h1, h2⟩ := half_mul_bounds d.i2 q
  obtain ⟨h3, h4⟩ := half_mul_bounds i d.q2
  have : (discriminate d i q).toInt = d.i2.toInt * q.toInt - i.toInt * d.q2.toInt := by
    rw [discriminate, BitVec.toInt_ofInt, Int.bmod_eq_of_le] <;> omega
  rw [this]
  exact ⟨rfl, by omega, by omega⟩

theorem discriminate_natAbs_le (d : Demod) (i q : Half) : (discriminate d i q).toInt.natAbs ≤ maxMagnitude := by
  obtain ⟨-, h1, h2⟩ := discriminate_toInt d i q
  unfold maxMagnitude
  omega

/-- `|v|` as a u64 is exact. -/
theorem magnitude_toNat (v : Sample) : (magnitude v).toNat = v.toInt.natAbs := by
  have := sample_bounds v
  rw [magnitude, BitVec.toNat_ofNat]
  omega

theorem levelOf_toNat (sum : Word64) : (levelOf sum).toNat = sum.toNat / 72 := by
  simp [levelOf]

@[simp] theorem gateOf_eq_true (level : Word64) (threshold : BitVec 32) :
    gateOf level threshold = true ↔ threshold.toNat < level.toNat := by
  simp [gateOf]

/-! The energy window. -/

/-- Replacing one element of a list of numbers. -/
theorem sum_map_set {α : Type} (f : α → Nat) (l : List α) (j : Nat) (h : j < l.length) (v : α) :
    ((l.set j v).map f).sum + f l[j] = (l.map f).sum + f v := by
  induction l generalizing j with
  | nil => simp at h
  | cons a l ih =>
    cases j with
    | zero => simp; omega
    | succ j =>
      have := ih j (by simpa using h)
      simp only [List.set_cons_succ, List.map_cons, List.sum_cons, List.getElem_cons_succ]
      omega

theorem sum_map_le {α : Type} (f : α → Nat) (b : Nat) (l : List α) (h : ∀ a ∈ l, f a ≤ b) :
    (l.map f).sum ≤ l.length * b := by
  induction l with
  | nil => simp
  | cons a l ih =>
    have h1 := h a (by simp)
    have h2 := ih fun x hx => h x (by simp [hx])
    simp [Nat.succ_mul]; omega

theorem windowTotal_energyStep (v : Sample) (d : Demod) :
    windowTotal (energyStep v d) + d.ew[d.ewp].toInt.natAbs = windowTotal d + v.toInt.natAbs := by
  have := sum_map_set (fun v : Sample => v.toInt.natAbs) d.ew.toList d.ewp.val (by simp) v
  unfold windowTotal energyStep
  simp only [Vector.toList_set]
  exact this

theorem mem_ew_energyStep {v x : Sample} {d : Demod} (h : x ∈ (energyStep v d).ew.toList) : x ∈ d.ew.toList ∨ x = v := by
  have : x ∈ d.ew.toList.set d.ewp.val v := by
    unfold energyStep at h
    simpa only [Vector.toList_set] using h
  exact List.mem_or_eq_of_mem_set this

theorem getElem_mem_ew (d : Demod) (j : Nat) (h : j < 72) : d.ew[j] ∈ d.ew.toList := by
  simp

theorem windowTotal_le {d : Demod} (h : WindowInv d) : windowTotal d ≤ 72 * maxMagnitude := by
  have := sum_map_le (fun v : Sample => v.toInt.natAbs) maxMagnitude d.ew.toList h.1
  simpa [windowTotal] using this

/-- The energy step keeps the window's invariant. -/
theorem WindowInv.energyStep {d : Demod} (h : WindowInv d) {v : Sample} (hv : v.toInt.natAbs ≤ maxMagnitude) :
    WindowInv (energyStep v d) := by
  refine ⟨fun x hx => ?_, ?_⟩
  · rcases mem_ew_energyStep hx with hx | rfl
    · exact h.1 x hx
    · exact hv
  · have h1 := windowTotal_energyStep v d
    have h2 := windowTotal_le h
    have h3 := h.2
    have h4 := magnitude_toNat v
    have h5 := magnitude_toNat d.ew[d.ewp]
    have h6 := h.1 _ (getElem_mem_ew d d.ewp.val d.ewp.isLt)
    have h7 : d.ew[d.ewp].toInt.natAbs ≤ maxMagnitude := h6
    have h8 : d.ew[d.ewp].toInt.natAbs ≤ windowTotal d := by
      have := sum_map_set (fun v : Sample => v.toInt.natAbs) d.ew.toList d.ewp.val (by simp) 0
      simp [windowTotal] at this ⊢
      omega
    unfold maxMagnitude at *
    show (d.sum - magnitude d.ew[d.ewp] + magnitude v).toNat = _
    rw [BitVec.toNat_add, BitVec.toNat_sub, h4, h5, h3]
    omega

/-- The window's samples by age after an energy step. -/
theorem windowSample_energyStep_zero (v : Sample) (d : Demod) : windowSample (energyStep v d) 0 = v := by
  have he := d.ewp.isLt
  simp only [windowSample, energyStep, Vector.getElem_set]
  rw [if_pos]
  simp [Fin.val_add]
  omega

theorem windowSample_energyStep_succ (v : Sample) (d : Demod) {k : Nat} (hk : k < 71) :
    windowSample (energyStep v d) (k + 1) = windowSample d k := by
  have he := d.ewp.isLt
  simp only [windowSample, energyStep, Vector.getElem_set]
  have hv : (d.ewp + 1).val = (d.ewp.val + 1) % 72 := by simp [Fin.val_add]
  rw [if_neg]
  · congr 1
    rw [hv]; omega
  · rw [hv]; omega

theorem windowSample_oldest (d : Demod) : windowSample d 71 = d.ew[d.ewp] := by
  have he := d.ewp.isLt
  simp only [windowSample, Fin.getElem_fin]
  congr 1
  omega

/-! The sync distance. -/

theorem popcount_eq_length {w : Nat} (x : BitVec w) : popcount x = ((List.range w).filter fun i => x.getLsbD i).length := by
  unfold popcount
  induction List.range w with
  | nil => rfl
  | cons a l ih => simp only [List.map_cons, List.sum_cons, ih, List.filter_cons]; cases x.getLsbD a <;> simp; omega

/-- The distance counts the bits 0..35 at which the register and the sync word differ (41_sync_detector.md R114). -/
theorem syncDistance_eq (t : PType) (r : Word64) :
    syncDistance t r = ((List.range 36).filter fun k => r.getLsbD k != (syncWord t).getLsbD k).length := by
  rw [syncDistance, popcount_eq_length]
  congr 1
  apply List.filter_congr
  intro k hk
  have : k < 36 := by simpa using hk
  simp [this]

/-- The two sync words are complements, so the two distances add up to 36 (41_sync_detector.md R111, R112). -/
theorem syncDistance_add (r : Word64) : syncDistance .F r + syncDistance .A r = 36 := by
  rw [syncDistance_eq, syncDistance_eq]
  have hc : ∀ k ∈ List.range 36, (r.getLsbD k != (syncWord .A).getLsbD k) = !(r.getLsbD k != (syncWord .F).getLsbD k) := by
    intro k hk
    have hw : ∀ k : Fin 36, (syncWord .A).getLsbD k.val = !(syncWord .F).getLsbD k.val := by decide
    have := hw ⟨k, by simpa using hk⟩
    simp only at this
    rw [this]
    cases r.getLsbD k <;> cases (syncWord .F).getLsbD k <;> rfl
  rw [List.filter_congr hc]
  have := List.length_eq_length_filter_add (l := List.range 36) (fun k => r.getLsbD k != (syncWord .F).getLsbD k)
  simpa using this.symm

/-- The enabled type of a match is the only one. -/
theorem matchType_eq_some {cfg : Cfg} {r : Word64} {t : PType} :
    matchType cfg r = some t ↔ typeEnabled cfg t = true ∧ syncDistance t r ≤ 4 := by
  have h := syncDistance_add r
  unfold matchType
  simp only [List.find?_cons, List.find?_nil]
  cases hF : (typeEnabled cfg .F && decide (syncDistance .F r ≤ 4)) <;>
    cases hA : (typeEnabled cfg .A && decide (syncDistance .A r ≤ 4)) <;>
    cases t <;> simp_all; omega

theorem matchType_eq_none {cfg : Cfg} {r : Word64} :
    matchType cfg r = none ↔ ∀ t, typeEnabled cfg t = true → 4 < syncDistance t r := by
  constructor
  · intro h t he
    by_contra hd
    have := matchType_eq_some.mpr ⟨he, Nat.le_of_not_lt hd⟩
    simp [h] at this
  · intro h
    cases hm : matchType cfg r with
    | none => rfl
    | some t =>
      obtain ⟨h1, h2⟩ := matchType_eq_some.mp hm
      have := h t h1
      omega

/-- A stamp's seconds have at most ten digits and its microseconds six (41_sync_detector.md R124, R127; log 7). -/
theorem stampOf_range (cfg : Cfg) (d : Demod) : (stampOf cfg d).1 < 10000000000 ∧ (stampOf cfg d).2 < 1000000 := by
  unfold stampOf
  split
  · exact ⟨Fin.isLt _, Fin.isLt _⟩
  · split
    · rename_i h
      simp only [stampStated, Bool.and_eq_true, decide_eq_true_eq] at h
      exact ⟨by simp only [splitMicros]; omega, by simp only [splitMicros]; omega⟩
    · exact ⟨Fin.isLt _, Fin.isLt _⟩

/-- A candidate that `D.PROBE` answers is within the ranges of 10_state.md R30 and names the present pair. -/
theorem probe_cases (cfg : Cfg) (p : Phase) (d : Demod) :
    (∃ t, matchType cfg (phaseReg p d) = some t ∧ probe cfg p d = (some (candidateOf cfg p t d), countStamp d) ∧
      (candidateOf cfg p t d).ok = true) ∨
    (matchType cfg (phaseReg p d) = none ∧ probe cfg p d = (none, d)) := by
  unfold probe
  cases h : matchType cfg (phaseReg p d) with
  | none => exact .inr ⟨rfl, rfl⟩
  | some t =>
    obtain ⟨-, hd⟩ := matchType_eq_some.mp h
    obtain ⟨h1, h2⟩ := stampOf_range cfg d
    refine .inl ⟨t, rfl, rfl, ?_⟩
    simp [Cand.ok, timeInRange, candidateOf, hd, h1, h2]

end Sys2Proof.Machine
end

