-- ==== Sys2Proof/Laws/Demod.lean ====
section
/-! SUPPORT. Everything the per-pair step of DEMOD can do (40_demodulator.md R97 to R103; 41_sync_detector.md R117 to
R121). -/

namespace Sys2Proof.Machine

/-- A sample appended to a frame that it does not fill. -/
theorem captureStep_more {v : Sample} {s : State} (h : s.demod.fcnt + 1 ≠ s.demod.flen) :
    captureStep v s =
      { s with demod := { s.demod with frameRev := v :: s.demod.frameRev, fcnt := s.demod.fcnt + 1 } } := by
  unfold captureStep
  rw [if_neg h]

/-- The sample that fills a frame. -/
theorem captureStep_full {v : Sample} {s : State} (h : s.demod.fcnt + 1 = s.demod.flen) :
    captureStep v s = { s with
      demod := { s.demod with frameRev := [], fcnt := 0, ctl := .search },
      io := { s.io with chWr := s.io.chWr ++ (s.demod.fhdr ++ samplesBytes (s.demod.frameRev.reverse ++ [v])) } } := by
  unfold captureStep
  rw [if_pos h]
  simp [emitFrame, emitCh, frameRecord]

theorem frameLen_ne_one (t : PType) : (0 : Nat) + 1 ≠ frameLen t := by cases t <;> decide

/-- The first sample of a frame just selected never fills it. -/
theorem captureStep_select (v : Sample) (p : Cand) (s : State) :
    captureStep v { s with demod := selectStep p s.demod } =
      { s with demod := { selectStep p s.demod with frameRev := [v], fcnt := 1 } } :=
  captureStep_more (frameLen_ne_one _)

/-- Every outcome of `D.ARBITRATE`. -/
theorem arbitrateStep_cases (cand : Option Cand) (v : Sample) (s : State) :
    (∃ p, s.demod.ctl = .pending p ∧
      ((∃ c, cand = some c ∧ better c p = true ∧ arbitrateStep cand v s = { s with demod := selectStep c s.demod }) ∨
       ((∀ c, cand = some c → better c p = false) ∧
        arbitrateStep cand v s = { s with demod := { selectStep p s.demod with frameRev := [v], fcnt := 1 } }))) ∨
    ((∀ p, s.demod.ctl ≠ .pending p) ∧
      ((cand = none ∧ arbitrateStep cand v s = s) ∨
       (∃ c, cand = some c ∧ s.cfg.phaseSelect = .first ∧
        arbitrateStep cand v s = { s with demod := selectStep c s.demod }) ∨
       (∃ c, cand = some c ∧ s.cfg.phaseSelect = .best ∧
        arbitrateStep cand v s = { s with demod := { s.demod with ctl := .pending c } }))) := by
  unfold arbitrateStep
  cases hc : s.demod.ctl with
  | pending p =>
    refine .inl ⟨p, rfl, ?_⟩
    cases cand with
    | none =>
      refine .inr ⟨nofun, ?_⟩
      exact captureStep_select v p s
    | some c =>
      cases hb : better c p with
      | true => exact .inl ⟨c, rfl, hb, by simp [arbitratePending, hb]⟩
      | false =>
        refine .inr ⟨fun c' h => by cases h; exact hb, ?_⟩
        simp only [arbitratePending, hb]
        exact captureStep_select v p s
  | _ =>
    refine .inr ⟨nofun, ?_⟩
    cases cand with
    | none => exact .inl ⟨rfl, rfl⟩
    | some c =>
      cases hp : s.cfg.phaseSelect with
      | first => exact .inr (.inl ⟨c, rfl, rfl, by simp [arbitrateSearch, hp]⟩)
      | best => exact .inr (.inr ⟨c, rfl, rfl, by simp [arbitrateSearch, hp]⟩)

/-- What the probe of a pair can answer: no candidate, or one within its ranges, of this pair, with the stamp counted. -/
theorem probeIfOpen_cases (cfg : Cfg) (p : Phase) (d : Demod) :
    probeIfOpen cfg p d = (none, d) ∨
    (d.gate = true ∧ ∃ t, typeEnabled cfg t = true ∧ syncDistance t (phaseReg p d) ≤ 4 ∧
      (candidateOf cfg p t d).ok = true ∧ probeIfOpen cfg p d = (some (candidateOf cfg p t d), countStamp d)) := by
  unfold probeIfOpen
  cases hg : d.gate with
  | false => exact .inl rfl
  | true =>
    rcases probe_cases cfg p d with ⟨t, h1, h2, h3⟩ | ⟨-, h2⟩
    · obtain ⟨h4, h5⟩ := matchType_eq_some.mp h1
      exact .inr ⟨rfl, t, h4, h5, h3, h2⟩
    · exact .inl h2

theorem probeIfOpen_closed {cfg : Cfg} {p : Phase} {d : Demod} (h : d.gate = false) :
    probeIfOpen cfg p d = (none, d) := by
  unfold probeIfOpen
  rw [h]

/-- A pair taken while a frame is captured. -/
theorem iqStep_emitting {i q : Half} {s : State} (h : s.demod.ctl = .emitting) :
    iqStep i q s = advancePair (captureStep (discriminate s.demod i q)
      { s with demod := senseStep s.cfg i q s.demod }) := by
  unfold iqStep
  simp only [h]

/-- A pair taken in any other control state. -/
theorem iqStep_search {i q : Half} {s : State} (h : s.demod.ctl ≠ .emitting) :
    iqStep i q s = advancePair (searchStep (discriminate s.demod i q)
      { s with demod := senseStep s.cfg i q s.demod }) := by
  unfold iqStep
  cases hc : s.demod.ctl <;> simp_all

/-- DEMOD after the shift of a pair taken outside a frame (40_demodulator.md R103). -/
def shiftedDemod (cfg : Cfg) (i q : Half) (d : Demod) : Demod :=
  shiftStep (phaseOf d.n) (discriminate d i q) (senseStep cfg i q d)

/-- Every outcome of a pair taken outside a frame: `x` is DEMOD after the shift, with the stamp of a candidate counted. -/
theorem iqStep_search_cases {i q : Half} {s : State} (h : s.demod.ctl ≠ .emitting) :
    ∃ cand x, probeIfOpen s.cfg (phaseOf s.demod.n) (shiftedDemod s.cfg i q s.demod) = (cand, x) ∧
      (cand = none ∧ x = shiftedDemod s.cfg i q s.demod ∨
       (∃ c, cand = some c ∧ c.ok = true ∧ c.idx = s.demod.n ∧ x = countStamp (shiftedDemod s.cfg i q s.demod))) ∧
      iqStep i q s = advancePair (arbitrateStep cand (discriminate s.demod i q) { s with demod := x }) := by
  rw [iqStep_search h]
  refine ⟨(probeIfOpen s.cfg (phaseOf s.demod.n) (shiftedDemod s.cfg i q s.demod)).1,
    (probeIfOpen s.cfg (phaseOf s.demod.n) (shiftedDemod s.cfg i q s.demod)).2, rfl, ?_, rfl⟩
  rcases probeIfOpen_cases s.cfg (phaseOf s.demod.n) (shiftedDemod s.cfg i q s.demod) with hp | ⟨-, t, -, -, h3, hp⟩
  · rw [hp]; exact .inl ⟨rfl, rfl⟩
  · rw [hp]; exact .inr ⟨_, rfl, h3, by simp [candidateOf, shiftedDemod, senseStep], rfl⟩

/-- Arbitration neither reads nor writes the returned value. -/
theorem arbitrateStep_ret (cand : Option Cand) (v : Sample) (r : Ret) (s : State) :
    arbitrateStep cand v { s with ret := r } = { arbitrateStep cand v s with ret := r } := by
  rcases arbitrateStep_cases cand v s with ⟨p, hp, ⟨c, rfl, hb, e⟩ | ⟨hb, e⟩⟩ | ⟨hn, ⟨rfl, e⟩ | ⟨c, rfl, hs, e⟩ | ⟨c, rfl, hs, e⟩⟩ <;>
    rw [e]
  · simp [arbitrateStep, hp, arbitratePending, hb]
  · simp only [arbitrateStep, hp]
    cases cand with
    | none => exact captureStep_select v p { s with ret := r }
    | some c => simp only [arbitratePending, hb c rfl, Bool.false_eq_true, if_false]; exact captureStep_select v p { s with ret := r }
  · unfold arbitrateStep; cases hc : s.demod.ctl <;> simp_all [arbitrateSearch]
  · unfold arbitrateStep; cases hc : s.demod.ctl <;> simp_all [arbitrateSearch]
  · unfold arbitrateStep; cases hc : s.demod.ctl <;> simp_all [arbitrateSearch]

/-- What the operations before arbitration make of a pair taken outside a frame, run one after the other. -/
theorem pairProbed_of_probeIfOpen {i q : Half} {s : State} (live : DemodLive s) {cand : Option Cand} {x : Demod}
    (h : probeIfOpen s.cfg (phaseOf s.demod.n) (shiftedDemod s.cfg i q s.demod) = (cand, x)) :
    ∃ r, PairProbed i q s { s with demod := x, ret := r } (discriminate s.demod i q) cand := by
  have hph : phaseOf s.demod.n = if s.demod.n % 2 = 0 then Phase.A else Phase.B := rfl
  have l : ∀ d : Demod, d.ctl = s.demod.ctl → ∀ r, DemodLive { s with demod := d, ret := r } := fun d hd r => by
    unfold DemodLive; rw [hd]; exact live
  have e4 := exec_dShift (l (senseStep s.cfg i q s.demod) (by simp [senseStep]) (.sample (discriminate s.demod i q)))
    (phaseOf s.demod.n) (discriminate s.demod i q)
  have e1 := exec_dDisc live i q
  have e2 := exec_dEnergy (l (rollPair s.demod i q) rfl (.sample (discriminate s.demod i q))) (discriminate s.demod i q)
  have e3 := exec_dGate (l (energyStep (discriminate s.demod i q) (rollPair s.demod i q)) rfl
    (.sample (discriminate s.demod i q)))
  cases hg : (shiftedDemod s.cfg i q s.demod).gate with
  | false =>
    rw [probeIfOpen_closed hg] at h
    obtain ⟨rfl, rfl⟩ := Prod.mk.inj h
    exact ⟨_, _, _, _, _, _, hph, e1, rfl, e2, e3, e4, fun h => absurd (hg.symm.trans h) (by decide), fun _ => ⟨rfl, rfl⟩⟩
  | true =>
    unfold probeIfOpen at h
    rw [hg] at h
    have e5 := exec_dProbe (l (shiftedDemod s.cfg i q s.demod) (by simp [shiftedDemod, senseStep])
      (.sample (discriminate s.demod i q))) (phaseOf s.demod.n)
    simp only at h e5
    rw [h] at e5
    exact ⟨_, _, _, _, _, _, hph, e1, rfl, e2, e3, e4, fun _ => ⟨e5, rfl⟩, fun h => absurd (hg.symm.trans h) (by decide)⟩

end Sys2Proof.Machine
end

