-- ==== Sys2Proof/Laws/Moves.lean ====
section
/-! SUPPORT. Everything an agent's move can be (30_encoding.md R73), and everything a step can do, by what it makes of
each part of the state. -/

namespace Sys2Proof.Machine

/-- Every move of DEMOD that changes something: a transfer of a record in progress, or, when nothing is being written,
a pair, a chunk, EOF, or a fault of the read. -/
theorem demodMove_cases (limit : Option Nat) (s : State) :
    demodMove limit s = .blocked ∨ demodMove limit s = .halted ∨
    (DemodLive s ∧ s.io.alone = false ∧
      ((s.io.chWr ≠ [] ∧ ∃ t, pumpCh limit s = some t ∧ demodMove limit s = .done t) ∨
       (s.io.chWr = [] ∧
        ((∃ b0 b1 b2 b3 rest, s.demod.ibuf = b0 :: b1 :: b2 :: b3 :: rest ∧
            demodMove limit s = .run (.dIq (le16 b0 b1) (le16 b2 b3)) { s with demod := { s.demod with ibuf := rest } }) ∨
         (∃ sec usec bytes rest, s.demod.ibuf = [] ∧ s.io.inq = .chunk sec usec bytes :: rest ∧
            demodMove limit s = .run (.dChunk sec usec bytes.length)
              { s with demod := { s.demod with ibuf := bytes }, io := { s.io with inq := rest } }) ∨
         (∃ rest, s.demod.ibuf = [] ∧ s.io.inq = .eof :: rest ∧
            demodMove limit s = .run .dEof { s with io := { s.io with inq := rest } }) ∨
         (∃ rest, s.demod.ibuf = [] ∧ s.io.inq = .error :: rest ∧
            demodMove limit s = .done (raiseFault .demod .read { s with io := { s.io with inq := rest } })) ∨
         (s.demod.ibuf ≠ [] ∧ s.demod.ibuf.length < 4 ∧
            demodMove limit s = .done (raiseFault .demod .shortRead { s with demod := { s.demod with ibuf := [] } })))))) := by
  unfold demodMove
  by_cases ha : (s.io.alone || !s.demod.ctl.live) = true
  · simp [ha]
  · rw [if_neg ha]
    have hal : s.io.alone = false ∧ DemodLive s := by
      unfold DemodLive
      cases h1 : s.io.alone <;> cases h2 : s.demod.ctl.live <;> simp_all
    by_cases hw : s.io.chWr = []
    · rw [if_pos (by simp [hw])]
      unfold demodRead
      cases hb : s.demod.ibuf with
      | nil =>
        cases hq : s.io.inq with
        | nil => exact .inl rfl
        | cons e rest =>
          cases e with
          | chunk sec usec bytes =>
            exact .inr (.inr ⟨hal.2, hal.1, .inr ⟨hw, .inr (.inl ⟨sec, usec, bytes, rest, rfl, rfl, rfl⟩)⟩⟩)
          | eof =>
            exact .inr (.inr ⟨hal.2, hal.1, .inr ⟨hw, .inr (.inr (.inl ⟨rest, rfl, rfl, rfl⟩))⟩⟩)
          | error =>
            exact .inr (.inr ⟨hal.2, hal.1, .inr ⟨hw, .inr (.inr (.inr (.inl ⟨rest, rfl, rfl, rfl⟩)))⟩⟩)
      | cons b bs =>
        refine .inr (.inr ⟨hal.2, hal.1, .inr ⟨hw, ?_⟩⟩)
        match bs with
        | b1 :: b2 :: b3 :: rest => exact .inl ⟨b, b1, b2, b3, rest, rfl, rfl⟩
        | [] => exact .inr (.inr (.inr (.inr ⟨by simp, by simp, rfl⟩)))
        | [_] => exact .inr (.inr (.inr (.inr ⟨by simp, by simp, rfl⟩)))
        | [_, _] => exact .inr (.inr (.inr (.inr ⟨by simp, by simp, rfl⟩)))
    · rw [if_neg (by simp [hw])]
      cases hp : pumpCh limit s with
      | none => exact .inl rfl
      | some t => exact .inr (.inr ⟨hal.2, hal.1, .inl ⟨hw, t, rfl, rfl⟩⟩)

/-- A whole header token decodes to `C.HDR` of its type, or is one of the two framing faults. -/
theorem runToken_header (h : List Byte) (s : State) :
    (h.length ≠ 36 ∧ runToken (.header h) s = .done (raiseFault .corr .hdrLen s)) ∨
    (h.length = 36 ∧ typeOfByte (h.getD 18 0) = none ∧ runToken (.header h) s = .done (raiseFault .corr .hdrType s)) ∨
    (∃ t, h.length = 36 ∧ typeOfByte (h.getD 18 0) = some t ∧ runToken (.header h) s = .run (hdrOp t h) s) := by
  by_cases hl : h.length = 36
  · cases ht : typeOfByte (h.getD 18 0) with
    | none => exact .inr (.inl ⟨hl, rfl, runToken_error (decode_header_type hl ht)⟩)
    | some t => exact .inr (.inr ⟨t, hl, rfl, runToken_ok (decode_header_ok hl ht)⟩)
  · exact .inl ⟨hl, runToken_error (decode_header_length hl)⟩

/-- Every move of CORR that changes something. -/
theorem corrMove_cases (limit : Option Nat) (s : State) :
    corrMove limit s = .blocked ∨ corrMove limit s = .halted ∨
    (CorrLive s ∧
      ((∃ t, pumpCorr limit s = some t ∧ corrMove limit s = .done t) ∨
       (s.corr.ctl = .hdr ∧ corrMove limit s = corrRead 36 .header headerEof s) ∨
       (s.corr.ctl = .samples ∧ corrMove limit s = corrRead 4 .sample sampleEof s) ∨
       (s.corr.ctl = .decode ∧ s.corr.htype = .F ∧ corrMove limit s = .run .cFisb s) ∨
       (s.corr.ctl = .decode ∧ s.corr.htype = .A ∧ corrMove limit s = .run .cAdsb s))) := by
  unfold corrMove
  by_cases hl : CorrLive s
  · rw [if_neg (by simpa [CorrLive] using hl)]
    split
    · rcases corrLive_cases hl with h | h | h
      · rw [h]; exact .inr (.inr ⟨hl, .inr (.inl ⟨rfl, rfl⟩)⟩)
      · rw [h]; exact .inr (.inr ⟨hl, .inr (.inr (.inl ⟨rfl, rfl⟩))⟩)
      · rw [h]
        cases ht : s.corr.htype with
        | F => exact .inr (.inr ⟨hl, .inr (.inr (.inr (.inl ⟨rfl, rfl, rfl⟩)))⟩)
        | A => exact .inr (.inr ⟨hl, .inr (.inr (.inr (.inr ⟨rfl, rfl, rfl⟩)))⟩)
    · cases hp : pumpCorr limit s with
      | none => exact .inl rfl
      | some t => exact .inr (.inr ⟨hl, .inl ⟨t, rfl, rfl⟩⟩)
  · rw [if_pos (by simpa [CorrLive] using hl)]
    exact .inr (.inl rfl)

/-- Either type's `C.HDR`. -/
theorem exec_hdrOp {s : State} (live : CorrLive s) (t : PType) (h : List Byte) :
    exec (hdrOp t h) s = .next (headerStep h s) := by
  cases t
  · exact exec_cHdrF live h
  · exact exec_cHdrA live h

end Sys2Proof.Machine
end

