-- ==== Sys2Proof/Laws/PerInstr.lean ====
section
/-! SUPPORT. Statements made per operation: one lemma for each constructor of `Instr`. -/

namespace Sys2Proof.Laws.TokenAgent

/-- The agent that reads a token (30_encoding.md R73: `IN` is DEMOD's input, the header and sample stream CORR's). -/
def tokenAgent : Token → Agent
  | .tag _ _ _ => .demod
  | .pair _ => .demod
  | .inEof => .demod
  | .header _ => .corr
  | .sample _ => .corr
  | .corrEof _ => .corr

/-- The token an operation is encoded as, if it has one, is a token of the operation's own agent. -/
def Statement (i : Instr) : Prop := ∀ tk, encode i = some tk → tokenAgent tk = i.agent

theorem dChunk (sec usec len : Nat) : Statement (.dChunk sec usec len) := by
  rintro tk ⟨⟩
  rfl

theorem dIq (i q : Half) : Statement (.dIq i q) := by
  rintro tk ⟨⟩
  rfl

theorem dEof : Statement (.dEof) := by
  rintro tk ⟨⟩
  rfl

theorem dDisc (i q : Half) : Statement (.dDisc i q) := by
  rintro tk ⟨⟩

theorem dEnergy (v : Sample) : Statement (.dEnergy v) := by
  rintro tk ⟨⟩

theorem dGate : Statement (.dGate) := by
  rintro tk ⟨⟩

theorem dShift (p : Phase) (v : Sample) : Statement (.dShift p v) := by
  rintro tk ⟨⟩

theorem dProbe (p : Phase) : Statement (.dProbe p) := by
  rintro tk ⟨⟩

theorem dCorrelate (t : PType) : Statement (.dCorrelate t) := by
  rintro tk ⟨⟩

theorem dArbitrate (cand : Option Cand) (v : Sample) : Statement (.dArbitrate cand v) := by
  rintro tk ⟨⟩

theorem dSelect (c : Cand) : Statement (.dSelect c) := by
  rintro tk ⟨⟩

theorem dCapture (v : Sample) : Statement (.dCapture v) := by
  rintro tk ⟨⟩

theorem dEmit : Statement (.dEmit) := by
  rintro tk ⟨⟩

theorem dStamp : Statement (.dStamp) := by
  rintro tk ⟨⟩

theorem dHeader (c : Cand) : Statement (.dHeader c) := by
  rintro tk ⟨⟩

theorem cHdrF (h : List Byte) : Statement (.cHdrF h) := by
  rintro tk ⟨⟩
  rfl

theorem cHdrA (h : List Byte) : Statement (.cHdrA h) := by
  rintro tk ⟨⟩
  rfl

theorem cSmp (v : Sample) : Statement (.cSmp v) := by
  rintro tk ⟨⟩
  rfl

theorem cEof (pos : EofPos) : Statement (.cEof pos) := by
  rintro tk ⟨⟩
  rfl

theorem cSlice (w : Window) (t : PType) : Statement (.cSlice w t) := by
  rintro tk ⟨⟩

theorem cMix (c m : Sample) (pct : Nat) : Statement (.cMix c m pct) := by
  rintro tk ⟨⟩

theorem cVariant (w : Window) (j : Nat) (t : PType) : Statement (.cVariant w j t) := by
  rintro tk ⟨⟩

theorem cPack (bits : List Bool) : Statement (.cPack bits) := by
  rintro tk ⟨⟩

theorem cDeint (y : List Byte) : Statement (.cDeint y) := by
  rintro tk ⟨⟩

theorem cAbytes (z : List Byte) : Statement (.cAbytes z) := by
  rintro tk ⟨⟩

theorem cRs (code : Code) (y : List Byte) : Statement (.cRs code y) := by
  rintro tk ⟨⟩

theorem cSearch (i : Fin 6) (w : Window) (h : Nat) : Statement (.cSearch i w h) := by
  rintro tk ⟨⟩

theorem cBlock (i : Fin 6) (h : Nat) : Statement (.cBlock i h) := by
  rintro tk ⟨⟩

theorem cShortcut : Statement (.cShortcut) := by
  rintro tk ⟨⟩

theorem cTz (i : Fin 6) : Statement (.cTz i) := by
  rintro tk ⟨⟩

theorem cFixed : Statement (.cFixed) := by
  rintro tk ⟨⟩

theorem cFisb : Statement (.cFisb) := by
  rintro tk ⟨⟩

theorem cAdsb : Statement (.cAdsb) := by
  rintro tk ⟨⟩

theorem cComplete (o : Completion) : Statement (.cComplete o) := by
  rintro tk ⟨⟩

theorem cLine (d : List Byte) : Statement (.cLine d) := by
  rintro tk ⟨⟩

theorem cFailline : Statement (.cFailline) := by
  rintro tk ⟨⟩

theorem cCapture (k : CapKind) : Statement (.cCapture k) := by
  rintro tk ⟨⟩

end Sys2Proof.Laws.TokenAgent
end

