-- ==== Sys2Proof/Laws/Steps.lean ====
section
/-! SUPPORT. Everything one step of the core can do, said once: an invariant of the core is a case analysis of
`step_effects`. -/

namespace Sys2Proof.Machine

/-- What DEMOD's move makes of the state. -/
inductive DemodEffect (s : State) : State → Prop where
  | transfer {t : State} (limit : Option Nat) (hw : s.io.chWr ≠ []) (h : pumpCh limit s = some t) : DemodEffect s t
  | pair (b0 b1 b2 b3 : Byte) (rest : List Byte) (hw : s.io.chWr = []) (hb : s.demod.ibuf = b0 :: b1 :: b2 :: b3 :: rest) :
      DemodEffect s (iqStep (le16 b0 b1) (le16 b2 b3) { s with demod := { s.demod with ibuf := rest } })
  | chunk (sec usec : Nat) (bytes : List Byte) (rest : List InEvent) (hw : s.io.chWr = []) (hb : s.demod.ibuf = [])
      (hq : s.io.inq = .chunk sec usec bytes :: rest) :
      DemodEffect s { s with demod := latchTag sec usec { s.demod with ibuf := bytes }, io := { s.io with inq := rest } }
  | eof (rest : List InEvent) (hw : s.io.chWr = []) (hb : s.demod.ibuf = []) (hq : s.io.inq = .eof :: rest) :
      DemodEffect s (endDemod { s with io := { s.io with inq := rest } })
  | readFault (rest : List InEvent) (hw : s.io.chWr = []) (hb : s.demod.ibuf = []) (hq : s.io.inq = .error :: rest) :
      DemodEffect s (raiseFault .demod .read { s with io := { s.io with inq := rest } })
  | shortRead (hw : s.io.chWr = []) (hb : s.demod.ibuf ≠ []) (hl : s.demod.ibuf.length < 4) :
      DemodEffect s (raiseFault .demod .shortRead { s with demod := { s.demod with ibuf := [] } })

/-- The bytes of CORR's next token of `k` bytes. -/
def tokenBytes (k : Nat) (s : State) : List Byte := s.corr.rbuf ++ (corrInput s).take (k - s.corr.rbuf.length)

/-- What CORR's move makes of the state. -/
inductive CorrEffect (s : State) : State → Prop where
  | transfer {t : State} (limit : Option Nat) (h : pumpCorr limit s = some t) : CorrEffect s t
  | header (hc : s.corr.ctl = .hdr) (hn : 36 - s.corr.rbuf.length ≤ (corrInput s).length) :
      CorrEffect s (headerStep (tokenBytes 36 s) (afterRead 36 s.script s))
  | sample (v : Sample) (hc : s.corr.ctl = .samples) (hn : 4 - s.corr.rbuf.length ≤ (corrInput s).length)
      (hv : sampleBytes v = tokenBytes 4 s) :
      CorrEffect s { afterRead 4 s.script s with corr := sampleStep v (afterRead 4 s.script s).corr }
  | oddSample (hc : s.corr.ctl = .samples) (hn : 4 - s.corr.rbuf.length ≤ (corrInput s).length)
      (hl : (tokenBytes 4 s).length ≠ 4) :
      CorrEffect s (raiseFault .corr .eofMidFrame (afterRead 4 s.script s))
  | partialRead (k : Nat) (hc : s.corr.ctl = .hdr ∧ k = 36 ∨ s.corr.ctl = .samples ∧ k = 4)
      (hn : (corrInput s).length < k - s.corr.rbuf.length) (hi : corrInput s ≠ []) :
      CorrEffect s { dropInput (corrInput s).length s with corr := { s.corr with rbuf := s.corr.rbuf ++ corrInput s } }
  | readFault (hi : corrInput s = []) (he : corrInputEnd s = .error) : CorrEffect s (raiseFault .corr .read s)
  | cleanEnd (hc : s.corr.ctl = .hdr) (hi : corrInput s = []) (he : corrInputEnd s = .eof) (hb : s.corr.rbuf = []) :
      CorrEffect s (endCorr s)
  | headerEof (hc : s.corr.ctl = .hdr) (hi : corrInput s = []) (he : corrInputEnd s = .eof) (hb : s.corr.rbuf ≠ []) :
      CorrEffect s (headerStep s.corr.rbuf s)
  | sampleEof (hc : s.corr.ctl = .samples) (hn : s.corr.rbuf.length < 4) (hi : corrInput s = [])
      (he : corrInputEnd s = .eof) : CorrEffect s (raiseFault .corr .eofMidFrame s)
  | fisb (hc : s.corr.ctl = .decode) (ht : s.corr.htype = .F) : CorrEffect s (fisbStep s)
  | adsb (hc : s.corr.ctl = .decode) (ht : s.corr.htype = .A) : CorrEffect s (adsbStep s)

/-- The outcome of a move that goes on. -/
def Move.answers (m : Move) (t : State) : Prop := (∃ i s, m = .run i s ∧ exec i s = .next t) ∨ m = .done t

theorem demodMove_effects {limit : Option Nat} {s t : State} (h : (demodMove limit s).answers t) :
    DemodLive s ∧ s.io.alone = false ∧ DemodEffect s t := by
  rcases demodMove_cases limit s with e | e | ⟨hl, ha, ⟨hw, u, hu, e⟩ | ⟨hw, hc⟩⟩
  · rw [e] at h; rcases h with ⟨_, _, h, _⟩ | h <;> cases h
  · rw [e] at h; rcases h with ⟨_, _, h, _⟩ | h <;> cases h
  · rw [e] at h
    rcases h with ⟨_, _, h, _⟩ | h
    · cases h
    · cases h; exact ⟨hl, ha, .transfer limit hw hu⟩
  · refine ⟨hl, ha, ?_⟩
    rcases hc with ⟨b0, b1, b2, b3, rest, hb, e⟩ | ⟨sec, usec, bytes, rest, hb, hq, e⟩ | ⟨rest, hb, hq, e⟩ |
      ⟨rest, hb, hq, e⟩ | ⟨hb, hb', e⟩
    · rw [e] at h
      rcases h with ⟨_, _, h, hx⟩ | h
      · cases h
        rw [exec_dIq (by exact hl)] at hx
        cases hx
        exact .pair b0 b1 b2 b3 rest hw hb
      · cases h
    · rw [e] at h
      rcases h with ⟨_, _, h, hx⟩ | h
      · cases h
        rw [exec_dChunk (by exact hl)] at hx
        cases hx
        exact .chunk sec usec bytes rest hw hb hq
      · cases h
    · rw [e] at h
      rcases h with ⟨_, _, h, hx⟩ | h
      · cases h
        rw [exec_dEof (by exact hl)] at hx
        cases hx
        exact .eof rest hw hb hq
      · cases h
    · rw [e] at h
      rcases h with ⟨_, _, h, _⟩ | h
      · cases h
      · cases h; exact .readFault rest hw hb hq
    · rw [e] at h
      rcases h with ⟨_, _, h, _⟩ | h
      · cases h
      · cases h; exact .shortRead hw hb hb'

/-- A header read to its end, or cut short by EOF, is one application of `C.HDR`'s checks. -/
theorem runToken_header_answers {b : List Byte} {s t : State} (hl : CorrLive s)
    (h : (runToken (.header b) s).answers t) : t = headerStep b s := by
  rcases runToken_header b s with ⟨hb, e⟩ | ⟨hb, ht, e⟩ | ⟨ty, hb, ht, e⟩
  · rw [e] at h
    rcases h with ⟨_, _, h, _⟩ | h
    · cases h
    · cases h; unfold headerStep; rw [if_pos hb]
  · rw [e] at h
    rcases h with ⟨_, _, h, _⟩ | h
    · cases h
    · cases h; unfold headerStep; rw [if_neg (by simpa using hb), ht]
  · rw [e] at h
    rcases h with ⟨_, _, h, hx⟩ | h
    · cases h
      rw [exec_hdrOp hl] at hx
      cases hx
      rfl
    · cases h

theorem afterRead_live {k : Nat} {sc : List HostAct} {s : State} (h : CorrLive s) : CorrLive (afterRead k sc s) := h

theorem corrMove_effects {limit : Option Nat} {s t : State} (h : (corrMove limit s).answers t) :
    CorrLive s ∧ CorrEffect s t := by
  rcases corrMove_cases limit s with e | e | ⟨hl, ⟨u, hu, e⟩ | ⟨hc, e⟩ | ⟨hc, e⟩ | ⟨hc, ht, e⟩ | ⟨hc, ht, e⟩⟩
  · rw [e] at h; rcases h with ⟨_, _, h, _⟩ | h <;> cases h
  · rw [e] at h; rcases h with ⟨_, _, h, _⟩ | h <;> cases h
  · rw [e] at h
    rcases h with ⟨_, _, h, _⟩ | h
    · cases h
    · cases h; exact ⟨hl, .transfer limit hu⟩
  · refine ⟨hl, ?_⟩
    rw [e] at h
    rcases corrRead_cases 36 .header headerEof s with ⟨hn, e⟩ | ⟨hn, hi, ⟨he, e⟩ | ⟨he, e⟩ | ⟨he, e⟩⟩ | ⟨hn, hi, e⟩
    · rw [e] at h
      obtain rfl := runToken_header_answers (afterRead_live hl) h
      exact .header hc hn
    · rw [e] at h; rcases h with ⟨_, _, h, _⟩ | h <;> cases h
    · rw [e] at h
      unfold Sys2Proof.Machine.headerEof at h
      split at h
      · rename_i hb
        rcases h with ⟨_, _, h, hx⟩ | h
        · cases h
          rw [(exec_cEof hl).1] at hx
          cases hx
          exact .cleanEnd hc hi he (by simpa using hb)
        · cases h
      · rename_i hb
        obtain rfl := runToken_header_answers hl h
        exact .headerEof hc hi he (by simpa using hb)
    · rw [e] at h
      rcases h with ⟨_, _, h, _⟩ | h
      · cases h
      · cases h; exact .readFault hi he
    · rw [e] at h
      rcases h with ⟨_, _, h, _⟩ | h
      · cases h
      · cases h; exact .partialRead 36 (.inl ⟨hc, rfl⟩) hn hi
  · refine ⟨hl, ?_⟩
    rw [e] at h
    rcases corrRead_cases 4 .sample sampleEof s with ⟨hn, e⟩ | ⟨hn, hi, ⟨he, e⟩ | ⟨he, e⟩ | ⟨he, e⟩⟩ | ⟨hn, hi, e⟩
    · rw [e] at h
      by_cases h4 : (tokenBytes 4 s).length = 4
      · obtain ⟨b0, b1, b2, b3, hb⟩ := four_bytes h4
        unfold tokenBytes at hb
        rw [hb, runToken_ok (decode_sample _ _ _ _)] at h
        rcases h with ⟨_, _, h, hx⟩ | h
        · cases h
          rw [exec_cSmp (afterRead_live hl)] at hx
          cases hx
          exact .sample _ hc hn (by rw [tokenBytes, hb]; exact sampleBytes_le32 _ _ _ _)
        · cases h
      · have h4' := h4
        unfold tokenBytes at h4'
        rw [runToken_error (decode_sample_short h4')] at h
        rcases h with ⟨_, _, h, _⟩ | h
        · cases h
        · cases h; exact .oddSample hc hn h4
    · rw [e] at h; rcases h with ⟨_, _, h, _⟩ | h <;> cases h
    · rw [e] at h
      rcases h with ⟨_, _, h, hx⟩ | h
      · cases h
        rw [(exec_cEof hl).2] at hx
        cases hx
        exact .sampleEof hc (by omega) hi he
      · cases h
    · rw [e] at h
      rcases h with ⟨_, _, h, _⟩ | h
      · cases h
      · cases h; exact .readFault hi he
    · rw [e] at h
      rcases h with ⟨_, _, h, _⟩ | h
      · cases h
      · cases h; exact .partialRead 4 (.inr ⟨hc, rfl⟩) hn hi
  · rw [e] at h
    rcases h with ⟨_, _, h, hx⟩ | h
    · cases h
      rw [exec_cFisb hl] at hx
      obtain rfl := Host.Outcome.next.inj hx
      exact ⟨hl, .fisb hc ht⟩
    · cases h
  · rw [e] at h
    rcases h with ⟨_, _, h, hx⟩ | h
    · cases h
      rw [exec_cAdsb hl] at hx
      obtain rfl := Host.Outcome.next.inj hx
      exact ⟨hl, .adsb hc ht⟩
    · cases h

/-- Everything one step can do: with `s'` the state whose script has lost its first action, nothing, a move of an agent,
an abort, or an action of the host on a port. -/
theorem step_effects {s t : State} (h : step s = .next t) : ∃ sc, (s.script = [] ∧ sc = [] ∨ ∃ a, s.script = a :: sc) ∧
    (t = { s with script := sc } ∨
     (DemodLive s ∧ s.io.alone = false ∧ DemodEffect { s with script := sc } t) ∨
     (CorrLive s ∧ CorrEffect { s with script := sc } t) ∨
     (∃ a, s.script = .abort a :: sc ∧ t = abortAgent a { s with script := sc }) ∨
     (∃ p r st, t = { s with script := sc, io := hostPort p r st s.io })) := by
  rcases step_cases h with ⟨a, limit, sc, hs, hm⟩ | ⟨a, rest, hs, ht⟩ | ⟨p, r, st, rest, hs, ht⟩
  · refine ⟨sc, ?_, ?_⟩
    · rcases hs with ⟨h1, h2, -⟩ | ⟨rest, rfl, ⟨h1, -⟩ | ⟨k, h1, -⟩⟩
      · exact .inl ⟨h1, h2⟩
      · exact .inr ⟨_, h1⟩
      · exact .inr ⟨_, h1⟩
    · have hm' : (agentMove a limit { s with script := sc }).answers t ∨ t = { s with script := sc } := by
        rcases hm with h | h | h
        · exact .inl (.inl h)
        · exact .inl (.inr h)
        · exact .inr h
      rcases hm' with hm' | hm'
      · cases a with
        | demod => exact .inr (.inl (demodMove_effects hm'))
        | corr => exact .inr (.inr (.inl (corrMove_effects hm')))
      · exact .inl hm'
  · exact ⟨rest, .inr ⟨_, hs⟩, .inr (.inr (.inr (.inl ⟨a, hs, ht⟩)))⟩
  · refine ⟨rest, ?_, .inr (.inr (.inr (.inr ⟨p, r, st, ht⟩)))⟩
    rcases hs with hs | ⟨on, hs⟩
    · exact .inr ⟨_, hs⟩
    · exact .inr ⟨_, hs⟩

/-! What each effect leaves alone. -/

/-- A pair changes DEMOD and what DEMOD has to hand over, nothing else. -/
theorem iqStep_frame (i q : Half) (s : State) : ∃ rec, (iqStep i q s).io = { s.io with chWr := s.io.chWr ++ rec } ∧ (iqStep i q s).corr = s.corr ∧ (iqStep i q s).cfg = s.cfg ∧ (iqStep i q s).par = s.par ∧ (iqStep i q s).script = s.script := by
  have hio : s.io = { s.io with chWr := s.io.chWr ++ [] } := by simp
  by_cases he : s.demod.ctl = .emitting
  · rw [iqStep_emitting he]
    by_cases hf : s.demod.fcnt + 1 = s.demod.flen
    · rw [captureStep_full (by exact hf)]; exact ⟨_, rfl, rfl, rfl, rfl, rfl⟩
    · rw [captureStep_more (by exact hf)]; exact ⟨[], hio, rfl, rfl, rfl, rfl⟩
  · obtain ⟨cand, x, -, hx, e⟩ := iqStep_search_cases (i := i) (q := q) he
    rw [e]
    rcases arbitrateStep_cases cand (discriminate s.demod i q) { s with demod := x } with
      ⟨p, -, ⟨c, -, -, e2⟩ | ⟨-, e2⟩⟩ | ⟨-, ⟨-, e2⟩ | ⟨c, -, -, e2⟩ | ⟨c, -, -, e2⟩⟩ <;> rw [e2] <;> exact ⟨[], hio, rfl, rfl, rfl, rfl⟩


/-- `C.COMPLETE` changes only what CORR has to hand over. -/
theorem completeStep_frame (o : Completion) (s : State) : (completeStep o s).demod = s.demod ∧
    (completeStep o s).corr = s.corr ∧ (completeStep o s).cfg = s.cfg ∧ (completeStep o s).par = s.par ∧
    (completeStep o s).script = s.script ∧
   (∃ a b, (completeStep o s).io = { s.io with capWr := a, outWr := b }) := by
  cases o
  · rw [completeStep_success]; exact ⟨rfl, rfl, rfl, rfl, rfl, _, _, rfl⟩
  · rw [completeStep_failure]; exact ⟨rfl, rfl, rfl, rfl, rfl, _, _, rfl⟩

/-- `C.FISB` changes CORR and what it has to hand over, nothing else. -/
theorem fisbStep_frame (s : State) : (fisbStep s).demod = s.demod ∧ (fisbStep s).cfg = s.cfg ∧
    (fisbStep s).par = s.par ∧ (fisbStep s).script = s.script ∧
   (∃ a b, (fisbStep s).io = { s.io with capWr := a, outWr := b }) := by
  cases h : fisbOutcome (fisbDecode s.cfg s.par s.corr)
  · rw [fisbStep_success h]; exact ⟨rfl, rfl, rfl, rfl, _, _, rfl⟩
  · rw [fisbStep_failure h]; exact ⟨rfl, rfl, rfl, rfl, _, _, rfl⟩

/-- `C.ADSB` changes CORR and what it has to hand over, nothing else. -/
theorem adsbStep_frame (s : State) : (adsbStep s).demod = s.demod ∧ (adsbStep s).cfg = s.cfg ∧
    (adsbStep s).par = s.par ∧ (adsbStep s).script = s.script ∧
   (∃ a b, (adsbStep s).io = { s.io with capWr := a, outWr := b }) := by
  cases h : adsbSearch s.par (cbufOf s.corr)
  · rw [adsbStep_failure h]; exact ⟨rfl, rfl, rfl, rfl, _, _, rfl⟩
  · rw [adsbStep_success h]; exact ⟨rfl, rfl, rfl, rfl, _, _, rfl⟩

/-- `C.HDR` changes CORR alone, or takes a fault. -/
theorem headerStep_frame (b : List Byte) (s : State) : (headerStep b s).demod = s.demod ∧
    (headerStep b s).cfg = s.cfg ∧ (headerStep b s).par = s.par ∧ (headerStep b s).script = s.script ∧
   ((headerStep b s).io = s.io ∨ (headerStep b s).io = { closeCorrPorts s.io with log := s.io.log ++ [.corr] }) := by
  unfold headerStep
  split
  · exact ⟨rfl, rfl, rfl, rfl, .inr rfl⟩
  · split
    · exact ⟨rfl, rfl, rfl, rfl, .inr rfl⟩
    · split
      · exact ⟨rfl, rfl, rfl, rfl, .inl rfl⟩
      · exact ⟨rfl, rfl, rfl, rfl, .inr rfl⟩

/-- A move of DEMOD leaves CORR, the configuration, the parameters and the script alone. -/
theorem DemodEffect.frame {s t : State} (h : DemodEffect s t) : t.corr = s.corr ∧ t.cfg = s.cfg ∧
    t.par = s.par ∧ t.script = s.script ∧ t.io.alone = s.io.alone := by
  cases h with
  | transfer l hw h => rcases pumpCh_cases h with ⟨-, rfl⟩ | ⟨-, k, -, -, -, rfl⟩ <;> exact ⟨rfl, rfl, rfl, rfl, rfl⟩
  | pair b0 b1 b2 b3 rest hw hb =>
    obtain ⟨rec, h1, h2, h3, h4, h5⟩ := iqStep_frame (le16 b0 b1) (le16 b2 b3) { s with demod := { s.demod with ibuf := rest } }
    exact ⟨h2, h3, h4, h5, by rw [h1]⟩
  | _ => exact ⟨rfl, rfl, rfl, rfl, rfl⟩

theorem dropInput_alone (k : Nat) (s : State) : (dropInput k s).io.alone = s.io.alone := by unfold dropInput; split <;> rfl

/-- A move of CORR leaves DEMOD, the configuration, the parameters and the script alone. -/
theorem CorrEffect.frame {s t : State} (h : CorrEffect s t) : t.demod = s.demod ∧ t.cfg = s.cfg ∧
    t.par = s.par ∧ t.script = s.script ∧ t.io.alone = s.io.alone := by
  have hr : ∀ k, (afterRead k s.script s).io.alone = s.io.alone := by intro k; unfold afterRead; simp only; split <;> simp_all
  cases h with
  | transfer l h => rcases pumpCorr_cases h with rfl | e
                    · exact ⟨rfl, rfl, rfl, rfl, rfl⟩
                    · rw [e]; exact ⟨rfl, rfl, rfl, rfl, rfl⟩
  | header hc hn =>
    obtain ⟨h1, h2, h3, h4, h5⟩ := headerStep_frame (tokenBytes 36 s) (afterRead 36 s.script s)
    refine ⟨h1, h2, h3, h4, ?_⟩
    rcases h5 with h5 | h5 <;> rw [h5]
    · exact hr _
    · exact hr _
  | sample v hc hn hv => exact ⟨rfl, rfl, rfl, rfl, hr _⟩
  | oddSample hc hn hl => exact ⟨rfl, rfl, rfl, rfl, hr _⟩
  | partialRead k hc hn hi => exact ⟨by simp, by simp, by simp, by simp, dropInput_alone _ _⟩
  | headerEof hc hi he hb =>
    obtain ⟨h1, h2, h3, h4, h5⟩ := headerStep_frame s.corr.rbuf s
    refine ⟨h1, h2, h3, h4, ?_⟩
    rcases h5 with h5 | h5 <;> rw [h5]
    rfl
  | fisb hc ht => obtain ⟨h1, h2, h3, h4, a, b, h5⟩ := fisbStep_frame s; exact ⟨h1, h2, h3, h4, by rw [h5]⟩
  | adsb hc ht => obtain ⟨h1, h2, h3, h4, a, b, h5⟩ := adsbStep_frame s; exact ⟨h1, h2, h3, h4, by rw [h5]⟩
  | _ => exact ⟨rfl, rfl, rfl, rfl, rfl⟩

/-- A move of CORR leaves what DEMOD has still to read and to write alone. -/
theorem CorrEffect.demod_ports {s t : State} (h : CorrEffect s t) : t.io.inq = s.io.inq ∧ t.io.chWr = s.io.chWr := by
  have hr : ∀ k, (afterRead k s.script s).io.inq = s.io.inq ∧ (afterRead k s.script s).io.chWr = s.io.chWr := by
    intro k; unfold afterRead; simp only; split <;> exact ⟨rfl, rfl⟩
  cases h with
  | transfer l h =>
    rcases pumpCorr_cases h with rfl | e
    · exact ⟨rfl, rfl⟩
    · rw [e]; exact ⟨rfl, rfl⟩
  | header hc hn =>
    obtain ⟨-, -, -, -, h5⟩ := headerStep_frame (tokenBytes 36 s) (afterRead 36 s.script s)
    rcases h5 with h5 | h5 <;> rw [h5] <;> exact hr _
  | sample v hc hn hv => exact hr _
  | oddSample hc hn hl => exact hr _
  | partialRead k hc hn hi => unfold dropInput; simp only; split <;> exact ⟨rfl, rfl⟩
  | headerEof hc hi he hb =>
    obtain ⟨-, -, -, -, h5⟩ := headerStep_frame s.corr.rbuf s
    rcases h5 with h5 | h5 <;> rw [h5] <;> exact ⟨rfl, rfl⟩
  | fisb hc ht => obtain ⟨-, -, -, -, a, b, h5⟩ := fisbStep_frame s; rw [h5]; exact ⟨rfl, rfl⟩
  | adsb hc ht => obtain ⟨-, -, -, -, a, b, h5⟩ := adsbStep_frame s; rw [h5]; exact ⟨rfl, rfl⟩
  | _ => exact ⟨rfl, rfl⟩

/-- A DEMOD that waits (log 23): the step the host's script gives it changes nothing, without a script the step is CORR's
move, and neither touches DEMOD, its events or its record in progress. -/
theorem step_demod_waits {s : State} {sc : List HostAct} {limit : Option Nat}
    (hm : HostRuns .demod limit sc s ∨ limit = none ∧ DemodMoves sc s)
    (hb : demodMove limit { s with script := sc } = .blocked) :
    (∀ t, step s = .next t → t.demod = s.demod ∧ t.io.inq = s.io.inq ∧ t.io.chWr = s.io.chWr) ∧
    (s.script ≠ [] → step s = .next { s with script := sc }) ∧
    (s.script = [] → step s = settle s (corrMove none s)) := by
  have hrun : HostRuns .demod limit sc s → step s = .next { s with script := sc } := by
    intro h
    unfold HostRuns at h
    cases limit <;> simp only at h <;> simp only [step, h, agentMove, hb, settle]
  have hsplit : HostRuns .demod limit sc s ∨ (limit = none ∧ s.script = [] ∧ sc = []) := by
    rcases hm with h | ⟨rfl, h | h⟩
    · exact .inl h
    · exact .inl h
    · exact .inr ⟨rfl, h⟩
  rcases hsplit with h | ⟨rfl, h1, rfl⟩
  · have hs := hrun h
    refine ⟨fun t ht => ?_, fun _ => hs, fun he => ?_⟩
    · rw [hs] at ht
      cases ht
      exact ⟨rfl, rfl, rfl⟩
    · unfold HostRuns at h
      cases limit <;> simp only at h <;> rw [h] at he <;> cases he
  · have e : ({ s with script := [] } : State) = s := by cases s; cases h1; rfl
    rw [e] at hb
    have hs : step s = settle s (corrMove none s) := by simp only [step, h1, freeStep, hb]
    refine ⟨fun t ht => ?_, fun hne => absurd h1 hne, fun _ => hs⟩
    rw [hs] at ht
    have hc : (corrMove none s).answers t ∨ t = s := by
      cases hx : corrMove none s with
      | run i u => rw [hx] at ht; exact .inl (.inl ⟨i, u, rfl, ht⟩)
      | done u => rw [hx] at ht; cases ht; exact .inl (.inr rfl)
      | blocked => rw [hx] at ht; cases ht; exact .inr rfl
      | halted => rw [hx] at ht; cases ht; exact .inr rfl
    rcases hc with hc | rfl
    · have hce := (corrMove_effects hc).2
      exact ⟨hce.frame.1, hce.demod_ports⟩
    · exact ⟨rfl, rfl, rfl⟩

end Sys2Proof.Machine
end

