-- ==== Sys2Proof/Laws/Text.lean ====
section
/-! SUPPORT. Decimal text and headers: digits, lengths, and reading a digit field back (00_scope.md R13,
30_encoding.md R76, R77, R84). -/

namespace Sys2Proof.Machine

theorem digitByte_toNat (d : Nat) : (digitByte d).toNat = 48 + d % 10 := by
  rw [digitByte, BitVec.toNat_ofNat]
  omega

@[simp] theorem isDigit_digitByte (d : Nat) : isDigit (digitByte d) = true := by
  simp [isDigit, digitByte_toNat]
  omega

@[simp] theorem decimal_nil : decimal [] = 0 := rfl

theorem decimal_append_singleton (l : List Byte) (b : Byte) : decimal (l ++ [b]) = 10 * decimal l + (b.toNat - 48) := by
  simp [decimal, List.foldl_append]

/-- Reading back the digits of a number gives the number. -/
theorem decimal_decDigits (f v : Nat) (h : v < f) : decimal (decDigits f v) = v := by
  induction f generalizing v with
  | zero => omega
  | succ f ih =>
    rw [decDigits]
    split
    · simp [decimal, digitByte_toNat]; omega
    · rw [decimal_append_singleton, ih _ (by omega), digitByte_toNat]; omega

theorem decDigits_isDigit (f v : Nat) : (decDigits f v).all isDigit = true := by
  induction f generalizing v with
  | zero => rfl
  | succ f ih =>
    rw [decDigits]
    split
    · simp
    · simp only [List.all_append, ih]; simp

theorem decDigits_length_le (f v w : Nat) (h : v < 10 ^ (w + 1)) : (decDigits f v).length ≤ w + 1 := by
  induction f generalizing v w with
  | zero => simp [decDigits]
  | succ f ih =>
    rw [decDigits]
    split
    · simp
    · cases w with
      | zero => simp at h; omega
      | succ w =>
        have := ih (v / 10) w (by rw [Nat.div_lt_iff_lt_mul (by omega), ← Nat.pow_succ]; exact h)
        simp; omega

@[simp] theorem decimal_dec (v : Nat) : decimal (dec v) = v := decimal_decDigits _ _ (by omega)

theorem dec_isDigit (v : Nat) : (dec v).all isDigit = true := decDigits_isDigit _ _

theorem dec_length_le (v w : Nat) (h : v < 10 ^ (w + 1)) : (dec v).length ≤ w + 1 := decDigits_length_le _ _ _ h

theorem decPad_isDigit (v w : Nat) : (decPad v w).all isDigit = true := by
  rw [decPad, List.all_append, dec_isDigit]
  simp [List.all_replicate]

/-- A number of at most `w + 1` digits is padded to exactly `w + 1`. -/
theorem decPad_length (v w : Nat) (h : v < 10 ^ (w + 1)) : (decPad v (w + 1)).length = w + 1 := by
  have := dec_length_le v w h
  simp [decPad]; omega

theorem decimal_replicate_append (k : Nat) (l : List Byte) :
    decimal (List.replicate k (digitByte 0) ++ l) = decimal l := by
  induction k with
  | zero => rfl
  | succ k ih =>
    rw [← ih]
    simp [decimal, List.replicate_succ, digitByte_toNat]

@[simp] theorem decimal_decPad (v w : Nat) : decimal (decPad v w) = v := by
  rw [decPad, decimal_replicate_append, decimal_dec]

/-- No digit is a newline. -/
theorem not_newline_of_isDigit {l : List Byte} (h : l.all isDigit = true) : (0x0A : Byte) ∉ l := by
  intro hm
  have := List.all_eq_true.mp h _ hm
  exact absurd this (by decide)

/-! The header of 30_encoding.md R76, by its parts. -/

/-- The ten parts of a header, with the lengths R76 gives them. -/
theorem field_of_parts {A B T L E : List Byte} (hA : A.length = 10) (hB : B.length = 6) (hT : T.length = 1)
    (hL : L.length = 8) (hE : E.length = 1) (h : List Byte)
    (hh : h = A ++ ascii ['.'] ++ B ++ ascii ['.'] ++ T ++ ascii ['.'] ++ L ++ ascii ['.'] ++ E ++ List.replicate 6 0x20) :
    h.length = 36 ∧ field h 0 10 = A ∧ field h 11 6 = B ∧ field h 18 1 = T ∧ field h 20 8 = L ∧ field h 29 1 = E ∧
    field h 10 1 = [0x2E] ∧ field h 17 1 = [0x2E] ∧ field h 19 1 = [0x2E] ∧ field h 28 1 = [0x2E] ∧
    field h 30 6 = List.replicate 6 0x20 ∧ h.drop 17 = [0x2E] ++ T ++ [0x2E] ++ L ++ [0x2E] ++ E ++ List.replicate 6 0x20 := by
  match A, hA with
  | [_, _, _, _, _, _, _, _, _, _], _ =>
    match B, hB with
    | [_, _, _, _, _, _], _ =>
      match T, hT with
      | [_], _ =>
        match L, hL with
        | [_, _, _, _, _, _, _, _], _ =>
          match E, hE with
          | [_], _ => subst hh; exact ⟨rfl, rfl, rfl, rfl, rfl, rfl, rfl, rfl, rfl, rfl, rfl, rfl⟩

theorem getD_of_field {h : List Byte} {a : Nat} {b : Byte} (hf : field h a 1 = [b]) : h.getD a 0 = b := by
  have : (field h a 1)[0]? = some b := by rw [hf]; rfl
  rw [field, List.getElem?_take, if_pos (by omega), List.getElem?_drop] at this
  rw [List.getD_eq_getElem?_getD, show h[a]? = some b from this]
  rfl

theorem getElem?_of_field {h : List Byte} {a : Nat} {b : Byte} (hf : field h a 1 = [b]) : h[a]? = some b := by
  have : (field h a 1)[0]? = some b := by rw [hf]; rfl
  rwa [field, List.getElem?_take, if_pos (by omega), List.getElem?_drop] at this

theorem Cand.ok_iff (c : Cand) : c.ok = true ↔ c.err ≤ 4 ∧ c.sec < 10000000000 ∧ c.usec < 1000000 := by
  simp [Cand.ok, timeInRange]

theorem headerBytes_parts (c : Cand) (hc : c.ok = true) :
    (decPad c.sec 10).length = 10 ∧ (decPad c.usec 6).length = 6 ∧
    (decPad (min c.level.toNat 99999999) 8).length = 8 ∧ (decPad c.err 1).length = 1 := by
  obtain ⟨h1, h2, h3⟩ := (Cand.ok_iff c).mp hc
  exact ⟨decPad_length _ 9 (by omega), decPad_length _ 5 (by omega), decPad_length _ 7 (by omega),
    decPad_length _ 0 (by omega)⟩

/-- The header of a candidate in its ranges: 36 bytes, accepted by `C.HDR`, with the candidate's fields. -/
theorem headerBytes_good (c : Cand) (hc : c.ok = true) :
    GoodHeader c.type (headerBytes c) ∧ decimal (field (headerBytes c) 0 10) = c.sec ∧
    decimal (field (headerBytes c) 11 6) = c.usec ∧
    decimal (field (headerBytes c) 20 8) = min c.level.toNat 99999999 ∧
    decimal (field (headerBytes c) 29 1) = c.err ∧
    (headerBytes c).drop 17 = [0x2E] ++ [typeByte c.type] ++ [0x2E] ++ decPad (min c.level.toNat 99999999) 8 ++ [0x2E] ++
      decPad c.err 1 ++ List.replicate 6 0x20 := by
  obtain ⟨h1, h2, h3, h4⟩ := headerBytes_parts c hc
  obtain ⟨p0, pA, pB, pT, pL, pE, p10, p17, p19, p28, pS, pD⟩ :=
    field_of_parts h1 h2 (T := [typeByte c.type]) rfl h3 h4 (headerBytes c) rfl
  refine ⟨⟨p0, getElem?_of_field pT, ?_⟩, by rw [pA, decimal_decPad], by rw [pB, decimal_decPad],
    by rw [pL, decimal_decPad], by rw [pE, decimal_decPad], pD⟩
  have hE : decPad c.err 1 = [digitByte c.err] := by
    obtain ⟨he, -, -⟩ := (Cand.ok_iff c).mp hc
    have : c.err = 0 ∨ c.err = 1 ∨ c.err = 2 ∨ c.err = 3 ∨ c.err = 4 := by omega
    rcases this with h | h | h | h | h <;> rw [h] <;> decide
  rw [hE] at pE
  obtain ⟨hle, -, -⟩ := (Cand.ok_iff c).mp hc
  simp only [headerWellformed, pA, pB, pL, pS, getD_of_field p10, getD_of_field p17, getD_of_field p19,
    getD_of_field p28, getD_of_field pE, decPad_isDigit, digitByte_toNat, Bool.and_eq_true, decide_eq_true_eq]
  refine ⟨⟨⟨⟨⟨⟨⟨⟨trivial, trivial⟩, trivial⟩, ?_⟩, ?_⟩, ?_⟩, ?_⟩, ?_⟩, ?_⟩ <;> first | decide | omega

/-- The ten parts of any 36 bytes. -/
theorem header_split {h : List Byte} (hl : h.length = 36) :
    h = field h 0 10 ++ [h.getD 10 0] ++ field h 11 6 ++ [h.getD 17 0] ++ [h.getD 18 0] ++ [h.getD 19 0] ++
      field h 20 8 ++ [h.getD 28 0] ++ [h.getD 29 0] ++ field h 30 6 := by
  have hf : ∀ a k, a + k ≤ h.length → h.drop a = field h a k ++ h.drop (a + k) := by
    intro a k _
    rw [field, ← List.drop_drop, List.take_append_drop]
  have hg : ∀ a, a < h.length → h.drop a = [h.getD a 0] ++ h.drop (a + 1) := by
    intro a ha
    rw [List.drop_eq_getElem_cons ha, List.getD_eq_getElem?_getD, List.getElem?_eq_getElem ha]
    rfl
  have h36 : h.drop 36 = [] := List.drop_eq_nil_iff.mpr (by omega)
  calc h = h.drop 0 := rfl
    _ = _ := by
      rw [hf 0 10 (by omega), hg 10 (by omega), hf 11 6 (by omega), hg 17 (by omega), hg 18 (by omega),
        hg 19 (by omega), hf 20 8 (by omega), hg 28 (by omega), hg 29 (by omega), hf 30 6 (by omega), h36]
      simp only [List.append_assoc, List.append_nil]

/-- The parts of a header that `C.HDR` accepts hold no newline. -/
theorem GoodHeader.no_newline {t : PType} {h : List Byte} (hg : GoodHeader t h) : (0x0A : Byte) ∉ h := by
  obtain ⟨hl, ht, hw⟩ := hg
  simp only [headerWellformed, Bool.and_eq_true, beq_iff_eq, decide_eq_true_eq] at hw
  obtain ⟨⟨⟨⟨⟨⟨⟨⟨hA, hB⟩, hL⟩, h10⟩, h17⟩, h19⟩, h28⟩, h29⟩, hS⟩ := hw
  have hdec := header_split hl
  have h18 : h.getD 18 0 = typeByte t := by rw [List.getD_eq_getElem?_getD, ht]; rfl
  rw [hdec, h10, h17, h18, h19, h28]
  simp only [List.mem_append, not_or, List.mem_singleton]
  refine ⟨⟨⟨⟨⟨⟨⟨⟨⟨not_newline_of_isDigit hA, by decide⟩, not_newline_of_isDigit hB⟩, by decide⟩, ?_⟩, by decide⟩,
    not_newline_of_isDigit hL⟩, by decide⟩, ?_⟩, ?_⟩
  · cases t <;> decide
  · intro h; rw [← h] at h29; exact absurd h29 (by decide)
  · intro hm
    have := List.all_eq_true.mp hS _ hm
    exact absurd this (by decide)

end Sys2Proof.Machine
end

