-- ==== Sys2Proof/Tests/Slice0.lean ====
section
/-! SUPPORT. Tests: ill-formed terms refused, words written out from the spec's encodings, one or two steps of each
operation with the values of 95_test_vectors.md ("V…", "E…"), and for each statement with hypotheses a state that meets
them (`witness_…`). -/

namespace Sys2Proof.Tests

set_option Elab.async false

open Sys2Proof Sys2Proof.Machine

/-! ## States -/

/-- Parameters with every open value given (test values, as 95_test_vectors.md uses them). -/
def par : Params :=
  { block0End := some .continues, fixedMask := Vector.replicate 8 0, fixedValue := Vector.replicate 8 0,
    tzThreshold := 100, rssiText := some ⟨true, 1, [2], 3⟩, bufPairs := 2 }

/-- The reset state under those parameters. -/
def base : State := { State.reset with par := par }

/-- The header of E4. -/
def hdrA : List Byte :=
  [0x31, 0x37, 0x30, 0x30, 0x30, 0x30, 0x30, 0x30, 0x30, 0x30, 0x2e, 0x35, 0x30, 0x30, 0x30, 0x33, 0x37, 0x2e, 0x41,
   0x2e, 0x30, 0x31, 0x30, 0x30, 0x30, 0x30, 0x30, 0x30, 0x2e, 0x30, 0x20, 0x20, 0x20, 0x20, 0x20, 0x20]

/-- The header `HS1` of 95_test_vectors.md. -/
def hdrF : List Byte := hdrA.set 18 0x46

/-- The candidate of program P2 at pair 150. -/
def cand : Cand :=
  { type := .A, idx := 150, err := 0, corr := 36000000, level := 1000000, sec := 1700000000, usec := 500037 }

def searching (d : Demod) : State := { base with demod := d }

def pendingState : State := searching { Demod.reset with ctl := .pending cand, n := 151 }

/-- DEMOD with `k` samples of an ADS-B frame captured. -/
def emittingState (k : Nat) : State :=
  searching { Demod.reset with ctl := .emitting, ftype := .A, flen := 771, fcnt := k,
                               frameRev := List.replicate k (-1000000), fhdr := hdrA }

/-- CORR with `k` samples of an ADS-B frame received. -/
def samplesState (k : Nat) : State :=
  { base with corr := { Corr.reset with ctl := .samples, hbuf := hdrA, htype := .A, clen := 771, ccnt := k,
                                        cbufRev := List.replicate k (-1000000) } }

/-- CORR with a frame (newest sample first) to decode; the header's fields are those of E4. -/
def decodeState (t : PType) (frameRev : List Sample) : State :=
  { base with corr := { Corr.reset with ctl := .decode, hbuf := (match t with | .F => hdrF | .A => hdrA),
                                        hsec := 1700000000, husec := 500037, htype := t, hlevel := 1000000,
                                        clen := frameLen t, ccnt := frameLen t, cbufRev := frameRev,
                                        astatus := .decoded 0 } }

/-- A frame of 0 bits. -/
def zeroFrame (t : PType) : State := decodeState t (List.replicate (frameLen t) (-1000000))

def endedState : State :=
  { base with demod := { Demod.reset with ctl := .ended, exit := .zero },
              corr := { Corr.reset with ctl := .ended, exit := .zero },
              io := { Io.reset with chClosed := true } }

/-- A view of the next state, if there is one. -/
def after {α : Type} (r : Result) (f : State → α) : Option α :=
  match r with
  | .next t => some (f t)
  | _ => none

/-! ## Ill-formed terms are refused -/

theorem test_wf_tag_seconds : (Instr.dChunk 10000000000 0 4).wellFormed par = false := by decide
theorem test_wf_tag_micros : (Instr.dChunk 0 1000000 4).wellFormed par = false := by decide
theorem test_wf_tag_empty : (Instr.dChunk 0 0 0).wellFormed par = false := by decide
theorem test_wf_tag_long : (Instr.dChunk 0 0 9).wellFormed par = false := by decide
theorem test_wf_tag_good : (Instr.dChunk 9999999999 999999 8).wellFormed par = true := by decide
theorem test_wf_cand_err : (Instr.dSelect { cand with err := 5 }).wellFormed par = false := by decide
theorem test_wf_cand_seconds : (Instr.dHeader { cand with sec := 10000000000 }).wellFormed par = false := by decide
theorem test_wf_cand_micros :
    (Instr.dArbitrate (some { cand with usec := 1000000 }) 0).wellFormed par = false := by decide
theorem test_wf_header_length : (Instr.cHdrF (hdrF ++ [0x20])).wellFormed par = false := by decide
theorem test_wf_header_type_F : (Instr.cHdrF hdrA).wellFormed par = false := by decide
theorem test_wf_header_type_A : (Instr.cHdrA hdrF).wellFormed par = false := by decide
theorem test_wf_mix_percent : (Instr.cMix 0 0 15).wellFormed par = false := by decide
theorem test_wf_mix_percent_high : (Instr.cMix 0 0 100).wellFormed par = false := by decide
theorem test_wf_variant_index : (Instr.cVariant .nominal 19 .F).wellFormed par = false := by decide
theorem test_wf_search_hint : (Instr.cSearch 0 .nominal 19).wellFormed par = false := by decide
theorem test_wf_block_hint : (Instr.cBlock 0 19).wellFormed par = false := by decide
theorem test_wf_pack_length : (Instr.cPack [true]).wellFormed par = false := by decide
theorem test_wf_deint_length : (Instr.cDeint [0]).wellFormed par = false := by decide
theorem test_wf_abytes_length : (Instr.cAbytes [0]).wellFormed par = false := by decide
theorem test_wf_rs_length : (Instr.cRs .short (List.replicate 48 0)).wellFormed par = false := by decide
theorem test_wf_payload : (Instr.cLine [0]).wellFormed par = false := by decide
theorem test_wf_completion : (Instr.cComplete (.success [0])).wellFormed par = false := by decide

/-! ## Words written out from the spec's encodings decode to their operations -/

/-- R74, Part 3's table of IQ words. -/
theorem test_decode_iq_i : decode (.pair [0xe8, 0x03, 0x00, 0x00]) = .ok (.dIq 1000 0) := by decide
theorem test_decode_iq_q : decode (.pair [0x00, 0x00, 0x18, 0xfc]) = .ok (.dIq 0 (-1000)) := by decide
/-- R74: a word whose two halves and four bytes all differ. -/
theorem test_decode_iq_bytes : decode (.pair [0x01, 0x02, 0x03, 0x84]) = .ok (.dIq 0x0201 0x8403) := by decide
theorem test_decode_iq_short : decode (.pair [0x01, 0x02, 0x03]) = .error .shortPair := by decide
/-- R75. -/
theorem test_decode_tag : decode (.tag 1700000000 500000 8) = .ok (.dChunk 1700000000 500000 8) := by decide
/-- R207: the core does not check the host's duty (log 20). -/
theorem test_decode_tag_unchecked : decode (.tag 10000000000 1000000 0) = .ok (.dChunk 10000000000 1000000 0) := by decide
/-- R56. -/
theorem test_decode_in_eof : decode .inEof = .ok .dEof := by decide
/-- R76, E4. -/
theorem test_decode_header_A : decode (.header hdrA) = .ok (.cHdrA hdrA) := by decide
theorem test_decode_header_F : decode (.header hdrF) = .ok (.cHdrF hdrF) := by decide
/-- V32, V31. -/
theorem test_decode_header_type : decode (.header (hdrA.set 18 0x58)) = .error .headerType := by decide
theorem test_decode_header_short : decode (.header (hdrA.take 20)) = .error .headerLength := by decide
/-- V30, V30a. -/
theorem test_decode_sample : decode (.sample [0xc0, 0xbd, 0xf0, 0xff]) = .ok (.cSmp (-1000000)) := by decide
theorem test_decode_sample_min : decode (.sample [0x00, 0x00, 0x00, 0x80]) = .ok (.cSmp 0x80000000) := by decide
theorem test_decode_sample_short : decode (.sample [0x00]) = .error .shortSample := by decide
/-- R135. -/
theorem test_decode_corr_eof : decode (.corrEof .midframe) = .ok (.cEof .midframe) := by decide

/-- Part 3: the word 0x03e80000 is `IQ 0 1000`. -/
theorem test_table_word_iq : decodeTableWord 32 0x03e80000 = some (.dIq 0 1000) := by decide
theorem test_table_word_header_F :
    decodeTableWord 8 0x46 = some (.cHdrF (List.replicate 18 0 ++ [0x46] ++ List.replicate 17 0)) := by decide
theorem test_table_word_header_A :
    decodeTableWord 8 0x41 = some (.cHdrA (List.replicate 18 0 ++ [0x41] ++ List.replicate 17 0)) := by decide
theorem test_table_word_other : decodeTableWord 8 0x42 = none := by decide

/-- The very next step runs the word placed. -/
theorem test_fetch_word_iq :
    after (step (State.reset.withFetchWord 32 0x03e80000)) (fun t => (t.demod.i1, t.demod.q1, t.demod.n)) =
      some (0, 1000, 1) := by decide +kernel
theorem test_fetch_word_header :
    after (step (State.reset.withFetchWord 8 0x41)) (fun t => t.corr.ctl) = some (.faulted .hdrFormat) := by decide +kernel

/-! ## One step of each operation of DEMOD -/

/-- R123, its example. -/
theorem test_chunk_latches :
    after (exec (.dChunk 1700000000 500000 8) (searching { Demod.reset with cidx := 7 }))
      (fun t => (t.demod.csec, t.demod.cusec, t.demod.cidx)) = some (1700000000, 500000, 0) := by decide

/-- R207: a chunk outside R56, here an empty one, is latched like any other (log 20). -/
theorem test_chunk_unchecked :
    after (step { base with script := [.run .demod], io := { Io.reset with inq := [.chunk 10000000000 1000000 []] } })
      (fun t => (t.demod.csec, t.demod.cusec, t.demod.ibuf, t.demod.ctl)) = some (10000000000, 1000000, [], .search) := by
  decide +kernel

/-- V1 through `D.IQ`: the sample enters the window and its bit the register of the pair's parity. -/
theorem test_iq_search :
    after (exec (.dIq 0 1000) (searching { Demod.reset with i2 := 1000, n := 3 }))
      (fun t => (t.demod.sum, t.demod.ra, t.demod.rb, t.demod.n, t.demod.cidx)) = some (1000000, 0, 1, 4, 1) := by
  decide +kernel

/-- V15: a pending candidate with no rival is selected at the next pair, whose sample is frame sample 0. -/
theorem test_iq_pending :
    after (exec (.dIq 0 0) pendingState) (fun t => (t.demod.ctl, t.demod.fcnt, t.demod.frameRev, t.demod.fhdr)) =
      some (.emitting, 1, [0], hdrA) := by decide +kernel

/-- The type, error count and index of a pending candidate. -/
def pendingKey (s : State) : Option (PType × Nat × Nat) :=
  match s.demod.ctl with
  | .pending c => some (c.type, c.err, c.idx)
  | _ => none

/-- DEMOD one pair before the last bit of `SYNC_FISB` in register A, the window loud enough for the gate to be open. -/
def beforeMatch : Demod := { Demod.reset with i2 := 1000, n := 36, ra := 0xA9912D8E, sum := 64800072, csec := 10 }

/-- R103, R114: the pair whose bit completes the sync word is probed, and its candidate is held. -/
theorem witness_IqSensesAndAdvances_open_gate : after (exec (.dIq 0 1000) (searching beforeMatch)) pendingKey = some (some (.F, 0, 36)) := by
  decide +kernel

/-- R117, V16: in `PENDING` the pair's own candidate wins if it is better. -/
theorem witness_IqPendingSelectsWinner_rival :
    after (exec (.dIq 0 1000) (searching { beforeMatch with ctl := .pending { cand with err := 1, idx := 35 } }))
      (fun t => (t.demod.ctl, t.demod.ftype, t.demod.fcnt, t.demod.flen, t.demod.ra)) =
      some (.emitting, .F, 0, 8835, 0) := by decide +kernel

/-- V27: a partial frame is never written. -/
theorem test_eof_partial_frame :
    after (exec .dEof (emittingState 770)) (fun t => (t.demod.ctl, t.demod.exit, t.io.chClosed, t.io.chWr)) =
      some (.ended, .zero, true, []) := by decide +kernel

/-- V1, V4. -/
theorem test_disc_V1 :
    after (exec (.dDisc 0 1000) (searching { Demod.reset with i2 := 1000 })) State.ret = some (.sample 1000000) := by decide
theorem test_disc_V4 :
    after (exec (.dDisc (-32768) (-32768)) (searching { Demod.reset with i2 := -32768, q2 := 32767 })) State.ret =
      some (.sample 2147450880) := by decide

/-- V7: the sample of pair 0 drops out. -/
theorem test_energy_V7 :
    after (exec (.dEnergy (-1000000)) (searching { Demod.reset with
        ew := ((Vector.replicate 72 (1000000 : Sample)).set 0 0).set 1 0, sum := 70000000 }))
      (fun t => (t.demod.sum, t.demod.ewp, t.demod.ew[0])) = some (71000000, 1, -1000000) := by decide +kernel
/-- V10: the largest magnitudes do not wrap. -/
theorem test_energy_V10 :
    after (exec (.dEnergy (-2147450880)) (searching { Demod.reset with ewp := 71, sum := 152469012480 }))
      (fun t => (t.demod.sum, t.demod.ewp)) = some (154616463360, 0) := by decide +kernel

/-- V8. -/
theorem test_gate_closed :
    after (exec .dGate (searching { Demod.reset with sum := 64800071 })) (fun t => (t.demod.level, t.demod.gate)) =
      some (900000, false) := by decide
theorem test_gate_open :
    after (exec .dGate (searching { Demod.reset with sum := 64800072 })) (fun t => (t.demod.level, t.demod.gate)) =
      some (900001, true) := by decide

/-- V11. -/
theorem test_shift_zero :
    after (exec (.dShift .A 0) (searching { Demod.reset with ra := 1 })) (fun t => t.demod.ra) = some 2 := by decide
theorem test_shift_top :
    after (exec (.dShift .B 7) (searching { Demod.reset with rb := 0x8000000000000000 })) (fun t => t.demod.rb) =
      some 1 := by decide

/-- The type and error count of a returned candidate. -/
def candKey (s : State) : Option (PType × Nat) :=
  match s.ret with
  | .cand (some c) => some (c.type, c.err)
  | _ => none

/-- V12. -/
theorem test_probe_four_wrong :
    after (exec (.dProbe .A) (searching { Demod.reset with ra := 0x153225B12 })) candKey = some (some (.F, 4)) := by
  decide +kernel
theorem test_probe_five_wrong :
    after (exec (.dProbe .A) (searching { Demod.reset with ra := 0x153225B02 })) State.ret = some (.cand none) := by
  decide +kernel

/-- The window of V14: the samples of one phase with the signs of a sync word. -/
def syncWindow (t : PType) : Vector Sample 72 :=
  Vector.ofFn fun j => if (syncWord t).getLsbD ((71 - j.val) / 2) then 1000000 else -1000000

/-- V14. -/
theorem test_correlate_full :
    after (exec (.dCorrelate .A) (searching { Demod.reset with ew := syncWindow .A })) State.ret =
      some (.corr 36000000) := by decide +kernel
theorem test_correlate_newest_wrong :
    after (exec (.dCorrelate .A) (searching { Demod.reset with ew := (syncWindow .A).set 71 1000000 })) State.ret =
      some (.corr 34000000) := by decide +kernel

/-- V15: on a tie the pending candidate wins. -/
theorem test_arbitrate_tie :
    after (exec (.dArbitrate (some { cand with idx := 151 }) (-5)) pendingState)
      (fun t => (t.demod.frameRev, t.demod.fhdr)) =
      some ([-5], hdrA) := by decide +kernel
/-- V16: the lookahead candidate with fewer errors wins, and its frame begins with the next pair. -/
theorem test_arbitrate_better :
    after (exec (.dArbitrate (some { cand with type := .F, idx := 151 }) (-5))
        (searching { Demod.reset with ctl := .pending { cand with err := 1, corr := 34000000 } }))
      (fun t => (t.demod.frameRev, t.demod.fhdr, t.demod.flen)) = some ([], hdrF, 8835) := by decide +kernel

/-- R118, its example. -/
theorem test_select_adsb :
    after (exec (.dSelect cand) (searching { Demod.reset with ra := 3, rb := 5, fcnt := 9 }))
      (fun t => (t.demod.flen, t.demod.ra, t.demod.rb, t.demod.fcnt, t.demod.ctl)) = some (771, 0, 0, 0, .emitting) := by
  decide +kernel

/-- R120, its example; R121: an ADS-B record is 3,120 bytes. -/
theorem test_capture_last :
    after (exec (.dCapture (-1000000)) (emittingState 770)) (fun t => (t.demod.ctl, t.demod.fcnt, t.io.chWr.length)) =
      some (.search, 0, 3120) := by decide +kernel
theorem test_capture_next :
    after (exec (.dCapture 7) (emittingState 769)) (fun t => (t.demod.ctl, t.demod.fcnt, t.io.chWr)) =
      some (.emitting, 770, []) := by decide +kernel

/-- V30's bytes after the header, in the order captured. -/
theorem test_emit_bytes :
    after (exec .dEmit (searching { Demod.reset with fhdr := hdrA, frameRev := [-1000000, 1], fcnt := 2 }))
      (fun t => (t.io.chWr, t.demod.fcnt)) = some (hdrA ++ [1, 0, 0, 0, 0xc0, 0xbd, 0xf0, 0xff], 0) := by decide +kernel

/-- V19, V23. -/
theorem test_stamp_V19 :
    after (exec .dStamp (searching { Demod.reset with csec := 10, cusec := 10 })) State.ret = some (.stamp 9 999975) := by
  decide +kernel
theorem test_stamp_V23 :
    after (exec .dStamp (searching { Demod.reset with csec := 5, cusec := 999990, cidx := 200 })) State.ret =
      some (.stamp 6 51) := by decide +kernel

/-- R126, its example, and V26's clamped level. -/
theorem test_header_E4 : after (exec (.dHeader cand) base) State.ret = some (.bytes hdrA) := by decide +kernel
theorem test_header_clamp :
    headerBytes { cand with level := 1073676289 } =
      hdrA.take 20 ++ List.replicate 8 0x39 ++ hdrA.drop 28 := by decide +kernel

/-! ## One step of each operation of CORR -/

/-- The header fields of CORR. -/
def headerFields (s : State) : Nat × Nat × Nat × Nat × Nat :=
  (s.corr.hsec, s.corr.husec, s.corr.hlevel, s.corr.herr, s.corr.clen)

/-- E4. -/
theorem test_hdr_A :
    after (exec (.cHdrA hdrA) base) (fun t => (headerFields t, t.corr.ctl)) =
      some ((1700000000, 500037, 1000000, 0, 771), .samples) := by decide +kernel
/-- V33. -/
theorem test_hdr_A_error_digit :
    after (exec (.cHdrA (hdrA.set 29 0x35)) base) (fun t => t.corr.ctl) = some (.faulted .hdrFormat) := by decide +kernel
theorem test_hdr_F :
    after (exec (.cHdrF (hdrF.set 29 0x34)) base) (fun t => (headerFields t, t.corr.htype)) =
      some ((1700000000, 500037, 1000000, 4, 8835), .F) := by decide +kernel
/-- V33a: the type byte is checked before the digits. -/
theorem test_hdr_F_type_first :
    after (exec (.cHdrF ((hdrF.set 18 0x58).set 0 0x61)) base) (fun t => (t.corr.ctl, t.corr.exit, t.io.outClosed)) =
      some (.faulted .hdrType, .nonzero, true) := by decide +kernel

/-- R134: the sample that fills the frame. -/
theorem test_smp_last :
    after (exec (.cSmp 5) (samplesState 770)) (fun t => (t.corr.ctl, t.corr.ccnt, t.corr.cbufRev.head?)) =
      some (.decode, 771, some 5) := by decide +kernel

/-- V34b, V34. -/
theorem test_eof_boundary :
    after (exec (.cEof .boundary) base) (fun t => (t.corr.ctl, t.corr.exit, t.io.outClosed, t.io.capClosed)) =
      some (.ended, .zero, true, true) := by decide +kernel
theorem test_eof_midframe :
    after (exec (.cEof .midframe) (samplesState 770)) (fun t => (t.corr.ctl, t.corr.exit)) =
      some (.faulted .eofMidFrame, .nonzero) := by decide +kernel

/-- The first two bits a slice or a variant returned. -/
def firstBits (s : State) : List Bool :=
  match s.ret with
  | .slices _ _ _ b => b.take 2
  | .bits b => b.take 2
  | _ => []

/-- V35a: `CBUF[1] = −7`, `CBUF[3] = 0`. -/
theorem test_slice_V35a :
    after (exec (.cSlice .nominal .A) (decodeState .A (List.replicate 767 0 ++ [0, 9, -7, 9]))) firstBits =
      some [false, true] := by decide +kernel

/-- V35b. -/
theorem test_mix_zero : after (exec (.cMix (-9) 10 90) base) State.ret = some (.bit true) := by decide
theorem test_mix_small : after (exec (.cMix (-1) 0 10) base) State.ret = some (.bit false) := by decide

/-- V35c: at window 1 bit 0 reads `CBUF[2]`, bit 1 `CBUF[4]`. -/
theorem test_variant_later :
    after (exec (.cVariant .later 0 .A) (decodeState .A (List.replicate 766 0 ++ [5, 5, -7, 5, 5]))) firstBits =
      some [false, true] := by decide +kernel
/-- V35c: index 2 mixes 10 percent of the sample after; the sample before is far larger. -/
theorem test_variant_after :
    after (exec (.cVariant .nominal 2 .A) (decodeState .A (List.replicate 768 0 ++ [-1010, 100, 9999]))) firstBits =
      some [false, true] := by decide +kernel

/-- V36. -/
theorem test_pack_V36 :
    after (exec (.cPack [false, false, true, true, true, false, false, false, true, true, true, true, false, false,
      false, true]) base) State.ret = some (.bytes [0x38, 0xf1]) := by decide +kernel

/-- V37: block 5's last byte is `Y[551]`, block 0's second is `Y[6]`. -/
theorem test_deint_V37 :
    ((deinterleave ((List.range 552).map (BitVec.ofNat 8))).map fun b => (b.length, b.getD 1 0, b.getD 91 0)) =
      [(92, 6, 0x22), (92, 7, 0x23), (92, 8, 0x24), (92, 9, 0x25), (92, 10, 0x26), (92, 11, 0x27)] := by decide +kernel

/-- V39. -/
theorem test_abytes_V39 :
    after (exec (.cAbytes ((List.range 48).map (BitVec.ofNat 8))) base) State.ret =
      some (.words ((List.range 48).map (BitVec.ofNat 8)) ((List.range 30).map (BitVec.ofNat 8))) := by decide +kernel

/-- V40: one byte changed. -/
theorem test_rs_one_wrong :
    after (exec (.cRs .uplink ((List.replicate 92 0).set 17 0x5a)) base) State.ret =
      some (.rs (some (List.replicate 72 0, 1))) := by decide +kernel
/-- E11's codeword (default `RS_PARAMS`) with two wrong bytes, as V48. -/
theorem test_rs_long_V48 :
    after (exec (.cRs .long ([0x08, 0, 0, 0xff] ++ List.replicate 30 0 ++
        [0x74, 0xb2, 0x5a, 0xe2, 0x9a, 0x5e, 0xf2, 0x91, 0xce, 0xda, 0x3f, 0xe3, 0x8b, 0x36])) base) State.ret =
      some (.rs (some (0x08 :: List.replicate 33 0, 2))) := by decide +kernel

/-- V41i's zero blocks: found at index 0 whatever the hint. -/
theorem test_search_first :
    after (exec (.cSearch 2 .nominal 5) (zeroFrame .F)) State.ret =
      some (.found (some (0, List.replicate 72 0, 0))) := by decide +kernel

/-- R155: a block whose current slice decodes returns new hint 0. -/
theorem test_block_first :
    after (exec (.cBlock 3 7) (zeroFrame .F)) State.ret = some (.block (some (List.replicate 72 0, 0, 0))) := by
  decide +kernel

/-- V44, R161. -/
theorem test_shortcut_taken :
    after (exec .cShortcut { base with par := { par with block0End := some .ends } })
      (fun t => (t.ret, t.corr.status)) =
      some (.taken true, #v[.unset, .notAttempted, .notAttempted, .notAttempted, .notAttempted, .notAttempted]) := by
  decide +kernel
theorem test_shortcut_inconsistent :
    after (exec .cShortcut { base with par := { par with block0End := some .inconsistent } })
      (fun t => (t.ret, t.corr.status)) = some (.taken false, Vector.replicate 6 .unset) := by decide +kernel

/-- V45's frame, newest sample first: the current samples of bytes 61 to 71 of block 1 are +50. -/
def tailFrame : List Sample :=
  ((List.range 8835).map fun j =>
    if (j - 1) / 16 % 6 = 1 ∧ 61 ≤ (j - 1) / 96 ∧ (j - 1) / 96 ≤ 71 then (50 : Sample) else -1000000).reverse

/-- V45: the tail run is forced to 0, and the attempt corrects no byte. -/
theorem test_tz_V45 :
    after (exec (.cTz 1) (decodeState .F tailFrame)) State.ret = some (.rs (some (List.replicate 72 0, 0))) := by
  decide +kernel
/-- R164: without a tail run there is no attempt. -/
theorem test_tz_no_tail : after (exec (.cTz 0) (decodeState .F tailFrame)) State.ret = some (.rs none) := by
  decide +kernel

/-- R167: the current slice of block 0 decodes. -/
theorem test_fixed_first :
    after (exec .cFixed (zeroFrame .F)) State.ret = some (.rs (some (List.replicate 72 0, 0))) := by decide +kernel

/-- R170's example with `BLOCK0_END = ENDS`: block 0 decodes, the others are not attempted. -/
theorem test_fisb_shortcut :
    after (exec .cFisb { zeroFrame .F with par := { par with block0End := some .ends } })
      (fun t => (t.corr.status, t.corr.hint, t.corr.ctl, t.io.outWr.length)) =
      some (#v[.decoded 0, .notAttempted, .notAttempted, .notAttempted, .notAttempted, .notAttempted], 0, .hdr, 920) := by
  decide +kernel

/-- V47z. -/
theorem test_adsb_V47z :
    after (exec .cAdsb (zeroFrame .A)) (fun t => (t.corr.astatus, t.corr.adata, t.corr.ctl)) =
      some (.decoded 0, List.replicate 18 0, .hdr) := by decide +kernel

/-- R35: what a FIS-B packet left is cleared at the start of an ADS-B packet's decode too. -/
theorem test_adsb_clears_hint_and_status :
    after (exec .cAdsb { zeroFrame .A with corr := { (zeroFrame .A).corr with
        hint := 3, status := Vector.replicate 6 .uncorrectable } })
      (fun t => (t.corr.hint, t.corr.status)) = some (0, Vector.replicate 6 .unset) := by decide +kernel

/-- R177, R187: the RAW record, then the FAIL record; no failure line unless enabled. -/
theorem test_complete_failure :
    after (exec (.cComplete .failure) { zeroFrame .A with cfg := { captureRaw := true, captureFail := true } })
      (fun t => (t.io.capWr.map CapRec.kind, t.io.outWr)) = some ([.raw, .fail], []) := by decide +kernel
/-- R177, its example. -/
theorem test_complete_success :
    after (exec (.cComplete (.success (List.replicate 18 0))) (zeroFrame .A))
      (fun t => (t.io.capWr, (t.io.outWr.filter (· == 0x0a)).length)) = some ([], 1) := by decide +kernel

/-- R178, its example (with ASTATUS 0 and the test text `-12.3` for `RSSI_TEXT`). -/
theorem test_line_adsb :
    after (exec (.cLine (List.replicate 18 0)) (zeroFrame .A)) (fun t => t.io.outWr) =
      some ([0x2d] ++ List.replicate 36 0x30 ++ ascii [';', 'r', 's', '=', '0', '/', '0', ';', 's', 's', '=', '1', '.', '0',
        '0', '/', '-', '1', '2', '.', '3', ';', 't', '=', '1', '7', '0', '0', '0', '0', '0', '0', '0', '0', '.', '5', '0',
        '0'] ++ [0x0a]) := by decide +kernel

/-- Formatting corner cases of 95_test_vectors.md: a FIS-B status has two digits, hexadecimal digits are lowercase. -/
theorem test_line_fisb_start :
    after (exec (.cLine [0x38, 0xf1]) { zeroFrame .F with corr := { (zeroFrame .F).corr with
        status := #v[.decoded 5, .notAttempted, .notAttempted, .notAttempted, .notAttempted, .decoded 10] } })
      (fun t => t.io.outWr.take 28) =
      some (ascii ['+', '3', '8', 'f', '1', ';', 'r', 's', '=', '0', '/', '0', '5', ':', '9', '9', ':', '9', '9', ':', '9',
        '9', ':', '9', '9', ':', '1', '0']) := by decide +kernel

/-- E6, up to the level. -/
theorem test_failline_E6 :
    after (exec .cFailline { zeroFrame .F with corr := { (zeroFrame .F).corr with
        herr := 2, hlevel := 3760000,
        status := #v[.decoded 0, .uncorrectable, .decoded 3, .decoded 0, .decoded 0, .decoded 0] } })
      (fun t => t.io.outWr.take 44) =
      some (ascii ['#', 'F', 'A', 'I', 'L', 'E', 'D', '-', 'F', 'I', 'S', '-', 'B', ' ', 'r', 's', '=', '2', '/', '0', '0',
        ':', '9', '8', ':', '0', '3', ':', '0', '0', ':', '0', '0', ':', '0', '0', ';', 's', 's', '=', '3', '.', '7',
        '6']) := by decide +kernel
/-- V50: the ADS-B failure line ends with the header as received and a newline. -/
theorem test_failline_adsb :
    after (exec .cFailline (zeroFrame .A)) (fun t => (t.io.outWr.take 22, t.io.outWr.drop (t.io.outWr.length - 38))) =
      some (ascii ['#', 'F', 'A', 'I', 'L', 'E', 'D', '-', 'A', 'D', 'S', '-', 'B', ' ', 'r', 's', '=', '0', '/', '9', '8',
        ';'], [0x20] ++ hdrA ++ [0x0a]) := by decide +kernel

/-- The level and time texts of 95_test_vectors.md. -/
theorem test_level_texts :
    [3755000, 4999, 5000, 99999999].map levelText =
      [ascii ['3', '.', '7', '6'], ascii ['0', '.', '0', '0'], ascii ['0', '.', '0', '1'],
       ascii ['1', '0', '0', '.', '0', '0']] := by decide +kernel
theorem test_time_text :
    timeText 9 999975 = ascii ['0', '0', '0', '0', '0', '0', '0', '0', '0', '9', '.', '9', '9', '9'] := by decide +kernel

/-- V52. -/
theorem test_capture_V52 :
    after (exec (.cCapture .raw) (zeroFrame .A))
      (fun t => t.io.capWr.map fun r => (r.name, r.bytes.length, r.bytes.take 40)) =
      some [(ascii ['1', '7', '0', '0', '0', '0', '0', '0', '0', '0', '.', '5', '0', '0', '.', 'A', '.', 'i', '3', '2'],
        3120, hdrA ++ [0xc0, 0xbd, 0xf0, 0xff])] := by decide +kernel

/-! ## States that meet the statements' hypotheses, one for each clause -/

/-- It meets the hypotheses of every statement that asks only for live agents: `ChunkLatchesAndEofEnds`,
`IqSensesAndAdvances`, `DiscriminatorExact`, `GateOpensAboveThreshold`, `ShiftMovesBits`, `SelectStartsFrame`,
`StampStaysInRange`, `MixIsExactSign`, `CompleteWritesInOrder`. -/
theorem live_base : DemodLive base ∧ CorrLive base := ⟨rfl, rfl⟩

/-- A state in which the host lets `a` move next. -/
def moving (a : Agent) (s : State) : State := { s with script := [.run a] }

/-- DEMOD about to read the bytes `b` of its chunk. -/
def pairState (b : List Byte) : State := moving .demod (searching { Demod.reset with ibuf := b })

/-- The host's next event on `IN`. -/
def eventState (e : InEvent) : State := moving .demod { base with io := { Io.reset with inq := [e] } }

/-- CORR with `got` bytes of a header taken and `unread` in `CH`. -/
def headerState (got unread : List Byte) (closed : Bool) : State :=
  moving .corr { base with corr := { Corr.reset with rbuf := got },
                           io := { Io.reset with ch := unread, chClosed := closed } }

/-- CORR with 770 samples and `got` bytes of the next taken. -/
def wordState (got unread : List Byte) (closed : Bool) : State :=
  moving .corr { base with corr := { (samplesState 770).corr with rbuf := got },
                           io := { Io.reset with ch := unread, chClosed := closed } }

theorem witness_StepRunsDecodedPair :
    DemodMoves [] (pairState [0xe8, 3, 0, 0, 7]) ∧ DemodReads (pairState [0xe8, 3, 0, 0, 7]) ∧
    (pairState [0xe8, 3, 0, 0, 7]).demod.ibuf = [0xe8, 3, 0, 0] ++ [7] ∧
    decode (.pair [0xe8, 3, 0, 0]) = .ok (.dIq 1000 0) :=
  ⟨.inl rfl, ⟨rfl, rfl, rfl⟩, rfl, by decide⟩

theorem witness_StepRunsDecodedPair_no_script :
    DemodMoves [] (searching { Demod.reset with ibuf := [0, 0, 0, 0] }) ∧
    DemodReads (searching { Demod.reset with ibuf := [0, 0, 0, 0] }) := ⟨.inr ⟨rfl, rfl⟩, ⟨rfl, rfl, rfl⟩⟩

theorem witness_StepRunsDemodEvents_chunk :
    DemodMoves [] (eventState (.chunk 1 2 [0])) ∧ DemodReads (eventState (.chunk 1 2 [0])) ∧
    (eventState (.chunk 1 2 [0])).demod.ibuf = [] ∧ (eventState (.chunk 1 2 [0])).io.inq = [.chunk 1 2 [0]] :=
  ⟨.inl rfl, ⟨rfl, rfl, rfl⟩, rfl, rfl⟩

theorem witness_StepRunsDemodEvents_chunk_unchecked :
    DemodMoves [] (eventState (.chunk 10000000000 1000000 [])) ∧
    DemodReads (eventState (.chunk 10000000000 1000000 [])) ∧
    (eventState (.chunk 10000000000 1000000 [])).io.inq = [.chunk 10000000000 1000000 []] :=
  ⟨.inl rfl, ⟨rfl, rfl, rfl⟩, rfl⟩

theorem witness_StepRunsDemodEvents_eof_error :
    (DemodMoves [] (eventState .eof) ∧ DemodReads (eventState .eof) ∧ (eventState .eof).io.inq = [.eof]) ∧
    (DemodMoves [] (eventState .error) ∧ DemodReads (eventState .error) ∧ (eventState .error).io.inq = [.error]) :=
  ⟨⟨.inl rfl, ⟨rfl, rfl, rfl⟩, rfl⟩, ⟨.inl rfl, ⟨rfl, rfl, rfl⟩, rfl⟩⟩

theorem witness_StepRunsDemodEvents_left_over :
    (DemodMoves [] (pairState [1]) ∧ DemodReads (pairState [1]) ∧ (pairState [1]).demod.ibuf.length = 1) ∧
    (DemodMoves [] (pairState [1, 2, 3]) ∧ DemodReads (pairState [1, 2, 3]) ∧
      (pairState [1, 2, 3]).demod.ibuf.length = 3) :=
  ⟨⟨.inl rfl, ⟨rfl, rfl, rfl⟩, rfl⟩, ⟨.inl rfl, ⟨rfl, rfl, rfl⟩, rfl⟩⟩

theorem witness_StepRunsDemodEvents_waits :
    (DemodMoves [] (pairState []) ∧ DemodReads (pairState []) ∧ (pairState []).demod.ibuf = [] ∧
      (pairState []).io.inq = [] ∧ (pairState []).script ≠ []) ∧
    (DemodMoves [] base ∧ DemodReads base ∧ base.demod.ibuf = [] ∧ base.io.inq = [] ∧ base.script = []) :=
  ⟨⟨.inl rfl, ⟨rfl, rfl, rfl⟩, rfl, rfl, nofun⟩, ⟨.inr ⟨rfl, rfl⟩, ⟨rfl, rfl, rfl⟩, rfl, rfl, rfl⟩⟩

theorem witness_StepRunsDecodedCorrToken_header :
    (CorrMoves [] (headerState [] hdrA false) ∧ CorrReads .hdr (headerState [] hdrA false) ∧
      decode (.header (([] ++ corrInput (headerState [] hdrA false)).take 36)) = .ok (.cHdrA hdrA)) ∧
    (CorrMoves [] (headerState hdrF [] false) ∧ CorrReads .hdr (headerState hdrF [] false) ∧
      decode (.header ((hdrF ++ corrInput (headerState hdrF [] false)).take 36)) = .ok (.cHdrF hdrF)) :=
  ⟨⟨.inl rfl, ⟨rfl, rfl, rfl⟩, by decide⟩, ⟨.inl rfl, ⟨rfl, rfl, rfl⟩, by decide⟩⟩

theorem witness_StepRunsDecodedCorrToken_sample :
    (CorrMoves [] (wordState [] [0xc0, 0xbd, 0xf0, 0xff] false) ∧
      CorrReads .samples (wordState [] [0xc0, 0xbd, 0xf0, 0xff] false) ∧
      decode (.sample ([] ++ [0xc0, 0xbd, 0xf0, 0xff])) = .ok (.cSmp (-1000000))) ∧
    (CorrMoves [] (wordState [0xc0, 0xbd, 0xf0, 0xff] [] false) ∧
      CorrReads .samples (wordState [0xc0, 0xbd, 0xf0, 0xff] [] false)) :=
  ⟨⟨.inl rfl, ⟨rfl, rfl, rfl⟩, by decide⟩, ⟨.inl rfl, ⟨rfl, rfl, rfl⟩⟩⟩

theorem witness_StepRunsCorrEvents_boundary :
    CorrMoves [] (headerState [] [] true) ∧ corrInput (headerState [] [] true) = [] ∧
    corrInputEnd (headerState [] [] true) = .eof ∧ CorrReads .hdr (headerState [] [] true) ∧
    (headerState [] [] true).corr.rbuf = [] := ⟨.inl rfl, rfl, rfl, ⟨rfl, rfl, rfl⟩, rfl⟩

theorem witness_StepRunsCorrEvents_in_header :
    (CorrMoves [] (headerState [0x31] [] true) ∧ corrInputEnd (headerState [0x31] [] true) = .eof ∧
      CorrReads .hdr (headerState [0x31] [] true) ∧ (headerState [0x31] [] true).corr.rbuf.length = 1) ∧
    (CorrReads .hdr (headerState (hdrA.take 35) [] true) ∧ (headerState (hdrA.take 35) [] true).corr.rbuf.length = 35) :=
  ⟨⟨.inl rfl, rfl, ⟨rfl, rfl, rfl⟩, rfl⟩, ⟨⟨rfl, rfl, rfl⟩, rfl⟩⟩

theorem witness_StepRunsCorrEvents_in_samples :
    CorrMoves [] (wordState [1, 2, 3] [] true) ∧ corrInput (wordState [1, 2, 3] [] true) = [] ∧
    corrInputEnd (wordState [1, 2, 3] [] true) = .eof ∧ CorrReads .samples (wordState [1, 2, 3] [] true) ∧
    (wordState [1, 2, 3] [] true).corr.rbuf.length < 4 := ⟨.inl rfl, rfl, rfl, ⟨rfl, rfl, rfl⟩, by decide⟩

/-- A CORR that runs alone, its input in error. -/
def inputError (s : State) : State := { s with io := { s.io with alone := true, cin := [], cinEnd := .error } }

theorem witness_StepRunsCorrEvents_error :
    (CorrMoves [] (inputError (headerState (hdrA.take 35) [] false)) ∧
      CorrReads .hdr (inputError (headerState (hdrA.take 35) [] false)) ∧ (hdrA.take 35).length < 36 ∧
      (inputError (headerState (hdrA.take 35) [] false)).io.cinEnd = .error) ∧
    (CorrReads .samples (inputError (wordState [1, 2, 3] [] false)) ∧
      (inputError (wordState [1, 2, 3] [] false)).corr.rbuf.length < 4) :=
  ⟨⟨.inl rfl, ⟨rfl, rfl, rfl⟩, by decide, rfl⟩, ⟨⟨rfl, rfl, rfl⟩, by decide⟩⟩

theorem witness_StepRunsCorrEvents_waits :
    (CorrMoves [] (headerState (hdrA.take 35) [] false) ∧ corrInput (headerState (hdrA.take 35) [] false) = [] ∧
      corrInputEnd (headerState (hdrA.take 35) [] false) = .more ∧ CorrReads .hdr (headerState (hdrA.take 35) [] false) ∧
      (headerState (hdrA.take 35) [] false).corr.rbuf.length < 36) ∧
    (corrInputEnd (wordState [1, 2, 3] [] false) = .more ∧ CorrReads .samples (wordState [1, 2, 3] [] false) ∧
      (wordState [1, 2, 3] [] false).corr.rbuf.length < 4) ∧
    (CorrMoves [] base ∧ CorrReads .hdr base) :=
  ⟨⟨.inl rfl, rfl, rfl, ⟨rfl, rfl, rfl⟩, by decide⟩, ⟨rfl, ⟨rfl, rfl, rfl⟩, by decide⟩,
   ⟨.inr ⟨rfl, rfl, .inl rfl⟩, ⟨rfl, rfl, rfl⟩⟩⟩

theorem witness_StepRunsCorrEvents_partial :
    (CorrMoves [] (headerState [] (hdrA.take 35) true) ∧ corrInput (headerState [] (hdrA.take 35) true) ≠ [] ∧
      CorrReads .hdr (headerState [] (hdrA.take 35) true) ∧ ([] ++ hdrA.take 35).length < 36) ∧
    (corrInput (wordState [1, 2] [3] false) ≠ [] ∧ CorrReads .samples (wordState [1, 2] [3] false) ∧
      ([1, 2] ++ corrInput (wordState [1, 2] [3] false)).length < 4) :=
  ⟨⟨.inl rfl, nofun, ⟨rfl, rfl, rfl⟩, by decide⟩, ⟨nofun, ⟨rfl, rfl, rfl⟩, by decide⟩⟩

theorem witness_StepRunsCorrEvents_decode :
    (CorrMoves [] (moving .corr (decodeState .F [])) ∧ CorrReads .decode (moving .corr (decodeState .F [])) ∧
      (decodeState .F []).corr.htype = .F) ∧
    (CorrReads .decode (moving .corr (decodeState .A [])) ∧ (decodeState .A []).corr.htype = .A) :=
  ⟨⟨.inl rfl, ⟨rfl, rfl, rfl⟩, rfl⟩, ⟨⟨rfl, rfl, rfl⟩, rfl⟩⟩

theorem witness_DecodeInvertsEncode :
    (Instr.dChunk 9999999999 999999 8).wellFormed par = true ∧
    encode (.dChunk 9999999999 999999 8) = some (.tag 9999999999 999999 8) ∧ (Instr.cHdrA hdrA).wellFormed par = true ∧
    encode (.cHdrA hdrA) = some (.header hdrA) := by decide

theorem witness_EncodeInvertsDecode :
    decode (.header hdrF) = .ok (.cHdrF hdrF) ∧ (∀ sec usec len, Token.header hdrF ≠ .tag sec usec len) ∧
    decode (.tag 9999999999 999999 8) = .ok (.dChunk 9999999999 999999 8) ∧
    [(0 : Byte), 0, 0, 0x80].length = 4 := ⟨by decide, nofun, by decide, by decide⟩

theorem witness_IqSensesAndAdvances :
    (DemodLive (searching beforeMatch) ∧ (searching beforeMatch).demod.ctl ≠ .emitting) ∧
    DemodLive (emittingState 0) ∧ DemodLive pendingState ∧ pendingState.demod.ctl ≠ .emitting :=
  ⟨⟨rfl, nofun⟩, rfl, rfl, nofun⟩

theorem witness_IqInFrameOnlyCaptures :
    ((emittingState 0).demod.ctl = .emitting ∧ (emittingState 0).demod.fcnt + 1 ≠ (emittingState 0).demod.flen) ∧
    ((emittingState 770).demod.ctl = .emitting ∧ (emittingState 770).demod.fcnt + 1 = (emittingState 770).demod.flen) :=
  ⟨⟨rfl, by decide⟩, ⟨rfl, rfl⟩⟩

theorem witness_IqGateClosedNoCandidate_search :
    DemodLive base ∧ base.demod.ctl = .search ∧ base.demod.n % 2 = 0 ∧
    (searching { Demod.reset with n := 1 }).demod.n % 2 = 1 ∧
    after (exec (.dIq 0 0) base) (fun t => decide (t.demod.level.toNat ≤ base.cfg.levelThreshold.toNat)) = some true ∧
    after (exec (.dIq 0 0) (searching { Demod.reset with n := 1 }))
      (fun t => decide (t.demod.level.toNat ≤ base.cfg.levelThreshold.toNat)) = some true :=
  ⟨rfl, rfl, rfl, rfl, by decide +kernel, by decide +kernel⟩

theorem witness_IqGateClosedNoCandidate_pending :
    DemodLive pendingState ∧ pendingState.demod.ctl = .pending cand ∧
    after (exec (.dIq 0 0) pendingState)
      (fun t => decide (t.demod.level.toNat ≤ pendingState.cfg.levelThreshold.toNat)) = some true :=
  ⟨rfl, rfl, by decide +kernel⟩

theorem witness_IqPendingSelectsWinner : pendingState.demod.ctl = .pending cand := rfl

theorem window_inv_base : WindowInv base.demod :=
  ⟨fun v hv => of_decide_eq_true (List.all_eq_true.mp
    (by decide +kernel : (base.demod.ew.toList.all fun v => decide (v.toInt.natAbs ≤ maxMagnitude)) = true) v hv),
   by decide +kernel⟩

theorem witness_EnergyWindowSlides :
    DemodLive base ∧ WindowInv base.demod ∧ (BitVec.toInt (-2147450880 : Sample)).natAbs ≤ maxMagnitude ∧
    (BitVec.toInt (2147450880 : Sample)).natAbs ≤ maxMagnitude := ⟨rfl, window_inv_base, by decide, by decide⟩

theorem witness_ProbeFindsMatch_match :
    DemodLive (searching { Demod.reset with ra := 0x153225B12 }) ∧ typeEnabled base.cfg .F = true ∧
    syncDistance .F (phaseReg .A { Demod.reset with ra := 0x153225B12 }) ≤ 4 := by
  refine ⟨rfl, ?_, ?_⟩ <;> decide +kernel

theorem witness_ProbeFindsMatch_none :
    DemodLive base ∧ ∀ ty : PType, 4 < syncDistance ty (phaseReg .A base.demod) := by
  refine ⟨rfl, fun ty => ?_⟩
  cases ty <;> decide +kernel

theorem witness_SyncDistances : BitsSinceClear 24 0xffffff ∧ BitsSinceClear 29 0x1fffffff := by
  constructor <;> intro i hi <;> rcases Nat.lt_or_ge i 64 with h | h
  · interval_cases i <;> rfl
  · exact BitVec.getLsbD_of_ge _ _ h
  · interval_cases i <;> rfl
  · exact BitVec.getLsbD_of_ge _ _ h

theorem witness_CorrelationExact : DemodLive base ∧ WindowInv base.demod := ⟨rfl, window_inv_base⟩

theorem witness_ArbitrationChoosesWinner :
    base.demod.ctl = .search ∧ base.cfg.phaseSelect = .best ∧ ({ phaseSelect := .first } : Cfg).phaseSelect = .first ∧
    pendingState.demod.ctl = .pending cand ∧
    (cand.err = cand.err ∧ cand.corr.toInt < ({ cand with corr := 36000001 } : Cand).corr.toInt) ∧
    ¬(cand.err < cand.err ∨ (cand.err = cand.err ∧ cand.corr.toInt < cand.corr.toInt)) :=
  ⟨rfl, rfl, rfl, rfl, by decide, by decide⟩

theorem witness_CaptureAppendsOrEmits :
    DemodLive (emittingState 769) ∧ (emittingState 769).demod.fcnt + 1 ≠ (emittingState 769).demod.flen ∧
    DemodLive (emittingState 770) ∧ (emittingState 770).demod.fcnt + 1 = (emittingState 770).demod.flen :=
  ⟨rfl, by decide, rfl, rfl⟩

theorem witness_EmitWritesRecord :
    DemodLive (emittingState 771) ∧ (emittingState 771).demod.fhdr.length = 36 ∧
    (emittingState 771).demod.frameRev.length = frameLen (emittingState 771).demod.ftype :=
  ⟨rfl, rfl, by decide +kernel⟩

/-- V19, and the two ends of the allowed times. -/
theorem witness_StampIsRefillPlusOffset :
    ((searching { Demod.reset with csec := 9999999999, cusec := 999999, cidx := 72 }).demod.csec < 10000000000 ∧
      (searching { Demod.reset with csec := 9999999999, cusec := 999999, cidx := 72 }).demod.cusec ≤ 999999) ∧
    base.cfg.replayMode = false ∧ (100 * (-35 : Int) ≤ (0 - 72) * 48 ∧ (0 - 72 : Int) * 48 < 100 * (-35) + 100) ∧
    (0 ≤ (0 : Int) * 1000000 + 35 + (-35)) ∧ ((9999999999 : Int) * 1000000 + 999999 + 0 < 10000000000000000) ∧
    (100 * (0 : Int) ≤ (72 - 72) * 48 ∧ (72 - 72 : Int) * 48 < 100 * 0 + 100) := by
  refine ⟨⟨?_, ?_⟩, rfl, ?_, ?_, ?_, ?_⟩ <;> decide

theorem witness_CorrAcceptsDemodHeader :
    DemodLive base ∧ CorrLive base ∧ cand.ok = true ∧
    ({ cand with err := 4, sec := 9999999999, usec := 999999, level := 0xffffffffffffffff } : Cand).ok = true :=
  ⟨rfl, rfl, by decide, by decide⟩

theorem good_header : GoodHeader .A hdrA ∧ GoodHeader .F hdrF := by
  refine ⟨⟨rfl, rfl, ?_⟩, ⟨rfl, rfl, ?_⟩⟩ <;> decide

theorem witness_HeaderIsStored : CorrLive base ∧ GoodHeader .A hdrA ∧ GoodHeader .F hdrF :=
  ⟨rfl, good_header.1, good_header.2⟩

theorem witness_HeaderFaultsInOrder :
    CorrLive base ∧ 1 ≤ (hdrA.take 1).length ∧ (hdrA.take 35).length < 36 ∧
    ((hdrA.set 18 0x58).length = 36 ∧ (hdrA.set 18 0x58)[18]? = some 0x58) ∧
    ((hdrA.set 29 0x35).length = 36 ∧ (hdrA.set 29 0x35)[18]? = some 0x41 ∧ headerWellformed (hdrA.set 29 0x35) = false) :=
  ⟨rfl, by decide, by decide, by decide, by decide⟩

theorem witness_HeaderFaultsInOrder_step :
    (headerState [] (hdrA.set 18 0x58) false).script = [.run .corr] ∧
    CorrReads .hdr (headerState [] (hdrA.set 18 0x58) false) ∧
    36 ≤ ([] ++ corrInput (headerState [] (hdrA.set 18 0x58) false)).length ∧
    ([] ++ corrInput (headerState [] (hdrA.set 18 0x58) false))[18]? = some 0x58 :=
  ⟨rfl, ⟨rfl, rfl, rfl⟩, by decide, by decide⟩

theorem witness_SampleStoredAndEofEnds :
    CorrLive (samplesState 0) ∧ CorrLive (samplesState 770) ∧
    (samplesState 770).corr.ccnt + 1 = (samplesState 770).corr.clen := ⟨rfl, rfl, rfl⟩

theorem witness_SliceSequences :
    CorrLive (zeroFrame .A) ∧ (zeroFrame .A).corr.cbufRev.length = frameLen .A ∧ 383 < payloadBits .A ∧
    (zeroFrame .A).corr.cbufRev.reverse[2 * 383 + 1 + windowOffset .later]? = some (-1000000) := by
  refine ⟨rfl, ?_, ?_, ?_⟩ <;> decide +kernel

theorem witness_VariantMixesEveryBit :
    CorrLive (zeroFrame .A) ∧ (zeroFrame .A).corr.cbufRev.length = frameLen .A ∧
    18 ≤ (zeroFrame .A).par.schedule.length ∧ (zeroFrame .A).par.schedule[18 - 1]? = some ⟨.after, 90⟩ ∧
    (zeroFrame .A).corr.cbufRev.reverse[2 * 383 + 2 + windowOffset .later]? = some (-1000000) ∧
    (zeroFrame .A).par.schedule.length < 19 := by
  refine ⟨rfl, ?_, ?_, ?_, ?_, ?_⟩ <;> decide +kernel

theorem witness_PackFirstBitHighest :
    CorrLive base ∧ ([] : List Bool).length = 8 * 0 ∧ (List.replicate 8 true).length = 8 * 1 := ⟨rfl, rfl, rfl⟩

theorem witness_DeinterleaveAndCodewords :
    CorrLive base ∧ (List.replicate 552 (0 : Byte)).length = 552 ∧ (List.replicate 48 (0 : Byte)).length = 48 := by
  exact ⟨rfl, List.length_replicate, List.length_replicate⟩

theorem witness_AttemptIsSound :
    CorrLive base ∧ rsAttempt base.par .short ((List.replicate 30 0).set 29 1) = some (List.replicate 18 0, 1) :=
  ⟨rfl, by decide +kernel⟩

theorem witness_CodewordDecodesToItself :
    CorrLive base ∧ isCodeword (codeParams base.par .short) .short
      ([0x00, 0x11, 0x22] ++ List.replicate 15 0 ++
        [0x6f, 0xfd, 0xae, 0xf9, 0x39, 0x98, 0xeb, 0xb4, 0x86, 0xee, 0x4f, 0x33]) = true := ⟨rfl, by decide +kernel⟩

theorem witness_SearchTakesFirstSuccess :
    CorrLive base ∧ 0 ≤ base.par.schedule.length ∧ 18 ≤ base.par.schedule.length ∧ base.par.schedule.length < 19 :=
  ⟨rfl, by decide, by decide, by decide⟩

theorem witness_BlockStrategy :
    CorrLive base ∧ 18 ≤ base.par.schedule.length ∧ base.par.schedule.length < 19 := ⟨rfl, by decide, by decide⟩

theorem witness_ShortcutMarksBlocks :
    (CorrLive { base with par := { par with block0End := some .ends } } ∧
      block0End { par with block0End := some .ends } base.corr.data[0] = .ends) ∧
    (CorrLive base ∧ block0End base.par base.corr.data[0] ≠ .ends) :=
  ⟨⟨rfl, by decide⟩, ⟨rfl, by decide⟩⟩

theorem witness_TrailingZeroForcesTail :
    CorrLive (decodeState .F tailFrame) ∧ (decodeState .F tailFrame).corr.cbufRev.length = 8835 ∧
    (blockSample 1 tailFrame.reverse 575).toInt.natAbs ≤ (decodeState .F tailFrame).par.tzThreshold.toNat ∧
    (blockSample 1 tailFrame.reverse 0).toInt < 0 := by
  refine ⟨rfl, ?_, ?_, ?_⟩ <;> decide +kernel

theorem witness_FixedRepairAttempts :
    CorrLive (zeroFrame .F) ∧ (zeroFrame .F).corr.cbufRev.length = 8835 ∧ (zeroFrame .F).cfg.acceptCandidates = true := by
  refine ⟨rfl, ?_, rfl⟩
  decide +kernel

theorem witness_FisbOutcome :
    (CorrLive (zeroFrame .F) ∧ (zeroFrame .F).corr.htype = .F ∧
      block0End (zeroFrame .F).par (List.replicate 72 0) ≠ .ends) ∧
    (CorrLive { zeroFrame .F with par := { par with block0End := some .ends } } ∧
      block0End { par with block0End := some .ends } (List.replicate 72 0) = .ends) :=
  ⟨⟨rfl, rfl, nofun⟩, rfl, rfl⟩

theorem witness_AdsbOutcome : CorrLive (zeroFrame .A) ∧ (zeroFrame .A).corr.htype = .A := ⟨rfl, rfl⟩

theorem witness_DecodeIgnoresEarlierPacket :
    (CorrLive (zeroFrame .F) ∧ (zeroFrame .F).corr.htype = .F) ∧ (CorrLive (zeroFrame .A) ∧ (zeroFrame .A).corr.htype = .A) :=
  ⟨⟨rfl, rfl⟩, ⟨rfl, rfl⟩⟩

theorem witness_CaptureIsSideChannel : CorrLive base ∧ (Instr.cFisb = .cFisb ∨ Instr.cFisb = .cAdsb) := ⟨rfl, .inl rfl⟩

theorem witness_LineTexts :
    CorrLive base ∧ base.par.rssiText = some ⟨true, 1, [2], 3⟩ ∧ State.reset.par.rssiText = none ∧
    (zeroFrame .F).corr.htype = .F ∧ (zeroFrame .A).corr.htype = .A := ⟨rfl, rfl, rfl, rfl, rfl⟩

theorem witness_LinesHoldOneNewline :
    CorrLive (zeroFrame .A) ∧ GoodHeader .A (zeroFrame .A).corr.hbuf ∧ (zeroFrame .A).io.outWr = [] ∧
    (∃ t, exec (.cLine [0x0a]) (zeroFrame .A) = .next t) ∧ ∃ t, exec .cFailline (zeroFrame .A) = .next t :=
  ⟨rfl, good_header.1, rfl, ⟨_, rfl⟩, ⟨_, rfl⟩⟩

theorem witness_CaptureRecordBytes :
    CorrLive (zeroFrame .A) ∧ (zeroFrame .A).par.captureName = .default ∧
    770 < (zeroFrame .A).corr.cbufRev.length := by
  refine ⟨rfl, rfl, ?_⟩
  decide +kernel

theorem witness_IllegalConfigHaltsBoth :
    configLegal base.cfg base.par = true ∧ configLegal { enableFisb := false, enableAdsb := false } base.par = false ∧
    configLegal { candidates := [List.replicate 5 0] } base.par = false ∧
    configLegal { compat := .legacy 0 } base.par = false ∧
    configLegal base.cfg { par with schedule := [⟨.before, 100⟩] } = false := by decide

theorem witness_FaultAndAbortHaltAgent :
    ({ base with script := [.abort .demod] } : State).script = .abort .demod :: [] ∧
    DemodLive { base with script := [.abort .demod] } ∧ CorrLive { base with script := [.abort .corr] } ∧
    ¬DemodLive { endedState with script := [.abort .demod] } ∧ ¬CorrLive { endedState with script := [.abort .corr] } :=
  ⟨rfl, rfl, rfl, Bool.false_ne_true, Bool.false_ne_true⟩

/-- DEMOD writing the record `b` into `CH`. -/
def writingState (b unread : List Byte) (broken : Bool) (cap : Option Nat) : State :=
  moving .demod { base with par := { par with pipeCap := cap },
                            io := { Io.reset with chWr := b, ch := unread, chBroken := broken } }

theorem witness_RecordWriteBlocksAndFaults :
    (DemodLive (writingState [1] [] true none) ∧ (writingState [1] [] true none).io.chWr ≠ [] ∧
      (writingState [1] [] true none).io.chBroken = true) ∧
    (DemodLive (writingState [1] [] false none) ∧ (writingState [1] [] false none).io.chBroken = false ∧
      (writingState [1] [] false none).par.pipeCap = none) ∧
    ((writingState [1, 2] [3] false (some 1)).par.pipeCap = some 1 ∧
      (writingState [1, 2] [3] false (some 1)).io.ch.length ≤ 1 ∧
      ∃ t, step (writingState [1, 2] [3] false (some 1)) = .next t) :=
  ⟨⟨rfl, by decide, rfl⟩, ⟨rfl, rfl, rfl⟩, ⟨rfl, by decide, ⟨_, rfl⟩⟩⟩

theorem witness_RecordWriteBlocksAndFaults_demod :
    (HostRuns .demod none [] (writingState [1] [] false none) ∧
      HostRuns .demod (some 0) [] { writingState [1] [] false none with script := [.push .demod 0] }) ∧
    (DemodMoves [] { writingState [1] [] false (some 0) with script := [] } ∧
      (writingState [1] [] false (some 0)).par.pipeCap = some (0 + (writingState [1] [] false (some 0)).io.ch.length)) ∧
    DemodMoves [] { writingState [1] [] true none with script := [] } :=
  ⟨⟨rfl, rfl⟩, ⟨.inr ⟨rfl, rfl⟩, rfl⟩, .inr ⟨rfl, rfl⟩⟩

/-- CORR writing the records `c` and the line `o`, its ports refused or stalled, the host's next action `a`. -/
def corrWriting (a : HostAct) (c : List CapRec) (o : List Byte) (refused stalled : Bool) : State :=
  { base with script := [a],
              io := { Io.reset with capWr := c, outWr := o, capRefused := refused, outRefused := refused,
                                    capStall := stalled, outStall := stalled } }

theorem witness_RecordWriteBlocksAndFaults_cap :
    HostRuns .corr none [] (corrWriting (.run .corr) [⟨.raw, [], [1, 2]⟩] [3] true false) ∧
    HostRuns .corr none [] (corrWriting (.run .corr) [⟨.raw, [], [1, 2]⟩] [3] false true) ∧
    HostRuns .corr none [] (corrWriting (.run .corr) [⟨.raw, [], [1, 2]⟩] [3] false false) ∧
    HostRuns .corr (some 1) [] (corrWriting (.push .corr 1) [⟨.raw, [], [1, 2]⟩] [3] false false) ∧
    HostRuns .corr (some 2) [] (corrWriting (.push .corr 2) [⟨.raw, [], [1, 2]⟩] [3] false false) ∧
    CorrLive (corrWriting (.run .corr) [⟨.raw, [], [1, 2]⟩] [3] false false) := ⟨rfl, rfl, rfl, rfl, rfl, rfl⟩

theorem witness_RecordWriteBlocksAndFaults_out :
    HostRuns .corr none [] (corrWriting (.run .corr) [] [3] true false) ∧
    HostRuns .corr none [] (corrWriting (.run .corr) [] [3] false true) ∧
    HostRuns .corr (some 0) [] (corrWriting (.push .corr 0) [] [3] false false) ∧
    CorrLive (corrWriting (.run .corr) [] [3] false false) ∧
    (corrWriting (.run .corr) [] [3] false false).io.outWr ≠ [] := ⟨rfl, rfl, rfl, rfl, nofun⟩

theorem witness_RecordWriteBlocksAndFaults_no_script :
    CorrMoves [] { corrWriting (.run .corr) [⟨.raw, [], [1, 2]⟩] [3] false true with script := [] } ∧
    CorrMoves [] { corrWriting (.run .corr) [] [3] false false with script := [] } :=
  ⟨.inr ⟨rfl, rfl, .inl rfl⟩, .inr ⟨rfl, rfl, .inl rfl⟩⟩

/-- R187: the record is handed over and the line stays; R196: a refused port. -/
theorem test_corr_writes_record_first :
    after (step (corrWriting (.run .corr) [⟨.raw, [], [1, 2]⟩] [3] false false))
      (fun t => (t.io.cap, t.io.capWr, t.io.out, t.io.outWr)) = some ([⟨.raw, [], [1, 2]⟩], [], [], [3]) := by decide +kernel
theorem test_corr_write_refused :
    after (step (corrWriting (.run .corr) [] [3] true false)) (fun t => (t.corr.ctl, t.io.out, t.io.outWr)) =
      some (.faulted .write, [], []) := by decide +kernel

theorem witness_HaltedAgentIsFrozen :
    (∃ t, step { endedState with script := [.run .demod] } = .next t) ∧ endedState.script = [] ∧
    ¬DemodLive endedState ∧ ¬CorrLive endedState ∧
    ({ endedState with demod := Demod.reset, io := { endedState.io with alone := true } } : State).io.alone = true :=
  ⟨⟨_, rfl⟩, rfl, Bool.false_ne_true, Bool.false_ne_true, rfl⟩

theorem witness_OperationCompletesWhenLive :
    (Instr.cSearch 0 .nominal 18).indexOk base.par = true ∧ (Instr.cSearch 0 .nominal 19).indexOk base.par = false ∧
    DemodLive base ∧ CorrLive base ∧ ¬DemodLive endedState ∧ ¬CorrLive endedState :=
  ⟨by decide, by decide, rfl, rfl, Bool.false_ne_true, Bool.false_ne_true⟩

theorem demod_inv_base : DemodInv base :=
  ⟨window_inv_base, ⟨by decide, by decide⟩, ⟨rfl, rfl⟩⟩

theorem witness_StepKeepsDemodInvariant :
    DemodInv base ∧ ∃ t, step { base with script := [.stall .out true] } = .next t := ⟨demod_inv_base, ⟨_, rfl⟩⟩

theorem witness_StepKeepsDemodInvariant_pending : FrameInv { Demod.reset with ctl := .pending cand, n := 151 } :=
  ⟨rfl, rfl, by decide, rfl⟩

theorem witness_StepKeepsCorrInvariant :
    IntakeInv base.corr ∧ ExitInv base ∧ (∃ t, step base = .next t) ∧ IntakeInv (samplesState 3).corr ∧
    ExitInv endedState :=
  ⟨⟨rfl, (by decide : (0 : Nat) < 36)⟩, ⟨rfl, rfl⟩, ⟨_, rfl⟩,
   ⟨rfl, (by decide : (0 : Nat) < 4), (by decide : (3 : Nat) < 771), rfl, rfl⟩, ⟨rfl, rfl⟩⟩

theorem witness_DemodNeverBreaksFraming :
    DemodInv base ∧ IntakeInv base.corr ∧ FramingInv base ∧
    (∀ sc, base.script = .abort .demod :: sc → base.io.chWr = []) ∧ ∃ t, step base = .next t :=
  ⟨demod_inv_base, witness_StepKeepsCorrInvariant.1,
   ⟨rfl, .nil, fun h => by simp [base, State.reset, Demod.reset] at h, .inl rfl,
    fun h => by simp [base, State.reset, Io.reset] at h, fun h => by simp [base, State.reset, Io.reset] at h,
    fun f h => by simp [base, State.reset, Corr.reset] at h⟩,
   fun _ _ => rfl, ⟨_, rfl⟩⟩

theorem witness_ChunkTagReachesOnlyTimes :
    DemodLive pendingState ∧ FrameInv pendingState.demod ∧
    SameButTime pendingState.demod { pendingState.demod with
      csec := 7, cidx := 9, ctl := .pending { cand with sec := 1, usec := 2 } } :=
  ⟨rfl, witness_StepKeepsDemodInvariant_pending, rfl⟩

end Sys2Proof.Tests
end

section
/-! The state's invariants: what each keeps through a step (10_state.md R26 to R31, R34, R37). -/

namespace Sys2Proof.Machine

/-! ## DEMOD's energy window and gate -/

/-- Two DEMODs with the same energy window, level and gate (10_state.md R26, R27). -/
def SameSense (d d' : Demod) : Prop := d'.ew = d.ew ∧ d'.sum = d.sum ∧ d'.level = d.level ∧ d'.gate = d.gate

theorem SameSense.windowInv {d d' : Demod} (h : SameSense d d') (hw : WindowInv d) : WindowInv d' := by
  obtain ⟨hew, hsum, -, -⟩ := h
  simpa only [WindowInv, windowTotal, hew, hsum] using hw

theorem SameSense.gateInv {cfg : Cfg} {d d' : Demod} (h : SameSense d d') (hg : GateInv cfg d) : GateInv cfg d' := by
  obtain ⟨-, hsum, hlevel, hgate⟩ := h
  simpa only [GateInv, hsum, hlevel, hgate] using hg

theorem gateInv_gateStep (cfg : Cfg) (d : Demod) : GateInv cfg (gateStep cfg d) :=
  ⟨levelOf_toNat d.sum, gateOf_eq_true _ _⟩

/-- A pair's sample is within the discriminator's range, so the window it enters keeps its invariant. -/
theorem WindowInv.senseStep {cfg : Cfg} {d : Demod} (h : WindowInv d) (i q : Half) : WindowInv (senseStep cfg i q d) :=
  WindowInv.energyStep (d := rollPair d i q) h (discriminate_natAbs_le d i q)

theorem arbitrateStep_sameSense (cand : Option Cand) (v : Sample) (s : State) :
    SameSense s.demod (arbitrateStep cand v s).demod := by
  rcases arbitrateStep_cases cand v s with
    ⟨p, -, ⟨c, -, -, e⟩ | ⟨-, e⟩⟩ | ⟨-, ⟨-, e⟩ | ⟨c, -, -, e⟩ | ⟨c, -, -, e⟩⟩ <;> rw [e] <;> exact ⟨rfl, rfl, rfl, rfl⟩

theorem shiftedDemod_sameSense (cfg : Cfg) (i q : Half) (d : Demod) :
    SameSense (senseStep cfg i q d) (shiftedDemod cfg i q d) := by
  simp [SameSense, shiftedDemod]

/-- After a pair the window, level and gate are those its sensing part left. -/
theorem iqStep_sameSense (i q : Half) (s : State) :
    SameSense (senseStep s.cfg i q s.demod) (iqStep i q s).demod := by
  by_cases he : s.demod.ctl = .emitting
  · rw [iqStep_emitting he]
    by_cases hf : s.demod.fcnt + 1 = s.demod.flen
    · rw [captureStep_full (by exact hf)]; exact ⟨rfl, rfl, rfl, rfl⟩
    · rw [captureStep_more (by exact hf)]; exact ⟨rfl, rfl, rfl, rfl⟩
  · obtain ⟨cand, x, -, hx, e⟩ := iqStep_search_cases (i := i) (q := q) he
    have hsx : SameSense (senseStep s.cfg i q s.demod) x := by
      rcases hx with ⟨-, rfl⟩ | ⟨c, -, -, -, rfl⟩ <;> exact shiftedDemod_sameSense _ _ _ _
    obtain ⟨a1, a2, a3, a4⟩ := arbitrateStep_sameSense cand (discriminate s.demod i q) { s with demod := x }
    obtain ⟨b1, b2, b3, b4⟩ := hsx
    rw [e]
    exact ⟨a1.trans b1, a2.trans b2, a3.trans b3, a4.trans b4⟩

/-! ## DEMOD's frame capture -/

theorem frameInv_search {d : Demod} (h : d.ctl = .search) : FrameInv d ↔ d.frameRev.length = d.fcnt ∧ d.fcnt = 0 := by
  unfold FrameInv; rw [h]

theorem frameInv_pending {d : Demod} {p : Cand} (h : d.ctl = .pending p) :
    FrameInv d ↔ d.frameRev.length = d.fcnt ∧ d.fcnt = 0 ∧ p.ok = true ∧ p.idx + 1 = d.n := by
  unfold FrameInv; rw [h]

theorem frameInv_emitting {d : Demod} (h : d.ctl = .emitting) : FrameInv d ↔ d.frameRev.length = d.fcnt ∧
    d.flen = frameLen d.ftype ∧ d.fcnt < d.flen ∧ d.ra = 0 ∧ d.rb = 0 ∧ d.fhdr.length = 36 := by
  unfold FrameInv; rw [h]

/-- Of a DEMOD that has halted the invariant says only that the samples held are counted. -/
theorem frameInv_halted {d : Demod} (h : d.ctl.live = false) : FrameInv d ↔ d.frameRev.length = d.fcnt := by
  unfold FrameInv
  cases hc : d.ctl <;> simp_all [DState.live]

/-- A frame selected for a candidate in its ranges meets the invariant, empty or with its first sample. -/
theorem frameInv_selectStep {c : Cand} (hc : c.ok = true) (d : Demod) (l : List Sample) (n m : Nat) (hl : l.length ≤ 1) :
    FrameInv { selectStep c d with frameRev := l, fcnt := l.length, n := n, cidx := m } := by
  have hlen : 2 ≤ frameLen c.type := by cases c.type <;> decide
  have hhdr : (headerBytes c).length = 36 := (headerBytes_good c hc).1.1
  exact (frameInv_emitting rfl).mpr ⟨rfl, rfl, Nat.lt_of_le_of_lt hl hlen, rfl, rfl, hhdr⟩

/-- A pair taken while a frame is captured. -/
theorem FrameInv.iqStep_emitting {s : State} (h : FrameInv s.demod) (hc : s.demod.ctl = .emitting) (i q : Half) :
    FrameInv (iqStep i q s).demod := by
  obtain ⟨hcount, hflen, hlt, hra, hrb, hhdr⟩ := (frameInv_emitting hc).mp h
  rw [Machine.iqStep_emitting hc]
  by_cases hf : s.demod.fcnt + 1 = s.demod.flen
  · rw [captureStep_full (by exact hf)]
    exact (frameInv_search rfl).mpr ⟨rfl, rfl⟩
  · rw [captureStep_more (by exact hf)]
    have hlt' : s.demod.fcnt + 1 < s.demod.flen := by omega
    exact (frameInv_emitting (by exact hc)).mpr ⟨congrArg (· + 1) hcount, hflen, hlt', hra, hrb, hhdr⟩

/-- A pair taken with no candidate pending: the search goes on, or the pair's own candidate is selected or pending. -/
theorem FrameInv.iqStep_search {s : State} (h : FrameInv s.demod) (hc : s.demod.ctl = .search) (i q : Half) :
    FrameInv (iqStep i q s).demod := by
  obtain ⟨hcount, hzero⟩ := (frameInv_search hc).mp h
  obtain ⟨cand, x, -, hx, e⟩ := iqStep_search_cases (i := i) (q := q) (s := s) (by rw [hc]; nofun)
  have hxf : x.ctl = .search ∧ x.frameRev.length = x.fcnt ∧ x.fcnt = 0 ∧ x.n = s.demod.n := by
    rcases hx with ⟨-, rfl⟩ | ⟨c, -, -, -, rfl⟩ <;> simp [shiftedDemod, senseStep, hc, hcount, hzero]
  have hcand : ∀ c, cand = some c → c.ok = true ∧ c.idx = s.demod.n := by
    rintro c rfl
    rcases hx with ⟨hn, -⟩ | ⟨c', hs, hok, hidx, -⟩
    · cases hn
    · cases hs; exact ⟨hok, hidx⟩
  obtain ⟨hxc, hxcount, hxzero, hxn⟩ := hxf
  rw [e]
  rcases arbitrateStep_cases cand (discriminate s.demod i q) { s with demod := x } with
    ⟨p, hp, -⟩ | ⟨-, ⟨-, e2⟩ | ⟨c, hs, -, e2⟩ | ⟨c, hs, -, e2⟩⟩
  · exact absurd (hxc.symm.trans hp) nofun
  · rw [e2]; exact (frameInv_search (by exact hxc)).mpr ⟨hxcount, hxzero⟩
  · rw [e2]; exact frameInv_selectStep (hcand c hs).1 x [] _ _ (by simp)
  · rw [e2]
    have hidx : c.idx + 1 = x.n + 1 := by rw [(hcand c hs).2, hxn]
    exact (frameInv_pending rfl).mpr ⟨hxcount, hxzero, (hcand c hs).1, hidx⟩

/-- A pair taken with a candidate pending: the frame of the winner begins. -/
theorem FrameInv.iqStep_pending {s : State} {p : Cand} (h : FrameInv s.demod) (hc : s.demod.ctl = .pending p) (i q : Half) :
    FrameInv (iqStep i q s).demod := by
  obtain ⟨-, -, hok, -⟩ := (frameInv_pending hc).mp h
  obtain ⟨cand, x, -, hx, e⟩ := iqStep_search_cases (i := i) (q := q) (s := s) (by rw [hc]; nofun)
  have hxc : x.ctl = .pending p := by
    rcases hx with ⟨-, rfl⟩ | ⟨c, -, -, -, rfl⟩ <;> simp [shiftedDemod, senseStep, hc]
  have hcand : ∀ c, cand = some c → c.ok = true := by
    rintro c rfl
    rcases hx with ⟨hn, -⟩ | ⟨c', hs, hok, -, -⟩
    · cases hn
    · cases hs; exact hok
  rw [e]
  rcases arbitrateStep_cases cand (discriminate s.demod i q) { s with demod := x } with
    ⟨p', hp, ⟨c, hs, -, e2⟩ | ⟨-, e2⟩⟩ | ⟨hn, -⟩
  · rw [e2]; exact frameInv_selectStep (hcand c hs) x [] _ _ (by simp)
  · obtain rfl := DState.pending.inj (hxc.symm.trans hp)
    rw [e2]; exact frameInv_selectStep hok x [discriminate s.demod i q] _ _ (by simp)
  · exact absurd hxc (hn p)

/-! ## DEMOD's invariant through a step -/

/-- The invariant reads nothing but DEMOD and the configuration. -/
theorem DemodInv.congr {s t : State} (h : DemodInv s) (hd : t.demod = s.demod) (hc : t.cfg = s.cfg) : DemodInv t := by
  simpa only [DemodInv, hd, hc] using h

theorem DemodInv.iqStep {s : State} (h : DemodInv s) (live : DemodLive s) (i q : Half) : DemodInv (iqStep i q s) := by
  obtain ⟨hwin, -, hframe⟩ := h
  obtain ⟨-, -, -, hcfg, -⟩ := iqStep_frame i q s
  have hsense := iqStep_sameSense i q s
  refine ⟨hsense.windowInv (hwin.senseStep i q), ?_, ?_⟩
  · rw [hcfg]; exact hsense.gateInv (gateInv_gateStep _ _)
  · rcases demodLive_cases live with hc | ⟨p, hc⟩ | hc
    · exact hframe.iqStep_search hc i q
    · exact hframe.iqStep_pending hc i q
    · exact hframe.iqStep_emitting hc i q

/-- DEMOD halted, its window, gate and frame as they were. -/
theorem DemodInv.halt {s t : State} (h : DemodInv s) (hcfg : t.cfg = s.cfg) (hs : SameSense s.demod t.demod)
    (hf : t.demod.frameRev = s.demod.frameRev ∧ t.demod.fcnt = s.demod.fcnt) (hh : t.demod.ctl.live = false) :
    DemodInv t := by
  obtain ⟨hwin, hgate, hframe⟩ := h
  refine ⟨hs.windowInv hwin, ?_, (frameInv_halted hh).mpr ?_⟩
  · rw [hcfg]; exact hs.gateInv hgate
  · rw [hf.1, hf.2]; exact hframe.1

theorem DemodInv.raiseFault {s : State} (h : DemodInv s) (code : FCode) : DemodInv (raiseFault .demod code s) :=
  h.halt rfl ⟨rfl, rfl, rfl, rfl⟩ ⟨rfl, rfl⟩ rfl

theorem DemodInv.abortAgent {s : State} (h : DemodInv s) (a : Agent) : DemodInv (abortAgent a s) := by
  cases a with
  | corr => exact h.congr (abortAgent_corr_demod s) (abortAgent_corr_cfg s)
  | demod =>
    simp only [Machine.abortAgent]
    split
    · exact h.halt rfl ⟨rfl, rfl, rfl, rfl⟩ ⟨rfl, rfl⟩ rfl
    · exact h

/-- Every move of DEMOD keeps its invariant. -/
theorem DemodEffect.demodInv {s t : State} (h : DemodEffect s t) (live : DemodLive s) (hs : DemodInv s) : DemodInv t := by
  cases h with
  | transfer limit hw h =>
    rcases pumpCh_cases h with ⟨-, rfl⟩ | ⟨-, k, -, -, -, rfl⟩
    · exact hs.raiseFault _
    · exact hs
  | pair b0 b1 b2 b3 rest hw hb => exact DemodInv.iqStep (s := { s with demod := { s.demod with ibuf := rest } }) hs live _ _
  | chunk sec usec bytes rest hw hb hq => exact hs
  | eof rest hw hb hq => exact hs.halt rfl ⟨rfl, rfl, rfl, rfl⟩ ⟨rfl, rfl⟩ rfl
  | readFault rest hw hb hq => exact DemodInv.raiseFault (by exact hs) _
  | shortRead hw hb hl => exact DemodInv.raiseFault (by exact hs) _

/-- Settles O56: every effect of a step keeps the invariant. -/
theorem stepKeepsDemodInvariant : Obligations.StepKeepsDemodInvariant := by
  intro s t hs hstep
  obtain ⟨sc, -, rfl | ⟨live, -, he⟩ | ⟨-, he⟩ | ⟨a, -, rfl⟩ | ⟨p, r, st, rfl⟩⟩ := step_effects hstep
  · exact hs
  · exact he.demodInv live hs
  · obtain ⟨hd, hc, -⟩ := he.frame
    exact hs.congr hd hc
  · exact DemodInv.abortAgent (by exact hs) a
  · exact hs

end Sys2Proof.Machine
end

section
/-! CORR's intake and the exit statuses (10_state.md R34, 60_exceptions.md R201). -/

namespace Sys2Proof.Machine

/-! ## The exit status of a control state -/

/-- The exit status that belongs to a control state of DEMOD (60_exceptions.md R201). -/
def demodExit : DState → Exit
  | .ended => .zero
  | .faulted _ => .nonzero
  | .aborted => .nonzero
  | _ => .none

/-- The exit status that belongs to a control state of CORR (60_exceptions.md R201). -/
def corrExit : CState → Exit
  | .ended => .zero
  | .faulted _ => .nonzero
  | .aborted => .nonzero
  | _ => .none

theorem demodExit_live {c : DState} (h : c.live = true) : demodExit c = .none := by
  cases c <;> simp_all [DState.live, demodExit]

theorem corrExit_live {c : CState} (h : c.live = true) : corrExit c = .none := by
  cases c <;> simp_all [CState.live, corrExit]

theorem exitInv_iff (s : State) :
    ExitInv s ↔ s.demod.exit = demodExit s.demod.ctl ∧ s.corr.exit = corrExit s.corr.ctl := by
  have hd : (match s.demod.ctl with
      | .ended => s.demod.exit = .zero | .faulted _ => s.demod.exit = .nonzero | .aborted => s.demod.exit = .nonzero
      | _ => s.demod.exit = .none) ↔ s.demod.exit = demodExit s.demod.ctl := by
    cases s.demod.ctl <;> rfl
  have hc : (match s.corr.ctl with
      | .ended => s.corr.exit = .zero | .faulted _ => s.corr.exit = .nonzero | .aborted => s.corr.exit = .nonzero
      | _ => s.corr.exit = .none) ↔ s.corr.exit = corrExit s.corr.ctl := by
    cases s.corr.ctl <;> rfl
  exact and_congr hd hc

/-! ## DEMOD's side -/

/-- A pair leaves DEMOD live, its exit status as it was. -/
theorem iqStep_live (i q : Half) {s : State} (live : DemodLive s) :
    DemodLive (iqStep i q s) ∧ (iqStep i q s).demod.exit = s.demod.exit := by
  unfold DemodLive at *
  by_cases he : s.demod.ctl = .emitting
  · rw [iqStep_emitting he]
    by_cases hf : s.demod.fcnt + 1 = s.demod.flen
    · rw [captureStep_full (by exact hf)]; exact ⟨rfl, rfl⟩
    · rw [captureStep_more (by exact hf)]; exact ⟨live, rfl⟩
  · obtain ⟨cand, x, -, hx, e⟩ := iqStep_search_cases (i := i) (q := q) he
    have hxs : x.ctl = s.demod.ctl ∧ x.exit = s.demod.exit := by
      rcases hx with ⟨-, rfl⟩ | ⟨c, -, -, -, rfl⟩ <;> simp [shiftedDemod, senseStep]
    obtain ⟨hctl, hexit⟩ := hxs
    rw [e]
    rcases arbitrateStep_cases cand (discriminate s.demod i q) { s with demod := x } with
      ⟨p, -, ⟨c, -, -, e2⟩ | ⟨-, e2⟩⟩ | ⟨-, ⟨-, e2⟩ | ⟨c, -, -, e2⟩ | ⟨c, -, -, e2⟩⟩ <;> rw [e2]
    · exact ⟨rfl, hexit⟩
    · exact ⟨rfl, hexit⟩
    · exact ⟨(congrArg DState.live hctl).trans live, hexit⟩
    · exact ⟨rfl, hexit⟩
    · exact ⟨rfl, hexit⟩

/-- Every move of DEMOD leaves the exit status that belongs to the control state it reaches. -/
theorem DemodEffect.exit_eq {s t : State} (h : DemodEffect s t) (live : DemodLive s)
    (he : s.demod.exit = demodExit s.demod.ctl) : t.demod.exit = demodExit t.demod.ctl := by
  cases h with
  | transfer limit hw h =>
    rcases pumpCh_cases h with ⟨-, rfl⟩ | ⟨-, k, -, -, -, rfl⟩
    · rfl
    · exact he
  | pair b0 b1 b2 b3 rest hw hb =>
    obtain ⟨hl, hx⟩ := iqStep_live (le16 b0 b1) (le16 b2 b3) (s := { s with demod := { s.demod with ibuf := rest } }) live
    rw [hx, demodExit_live hl]
    exact he.trans (demodExit_live live)
  | chunk sec usec bytes rest hw hb hq => exact he
  | eof rest hw hb hq => rfl
  | readFault rest hw hb hq => rfl
  | shortRead hw hb hl => rfl

/-! ## CORR's side -/

theorem intakeInv_hdr {c : Corr} (h : c.ctl = .hdr) : IntakeInv c ↔ c.cbufRev.length = c.ccnt ∧ c.rbuf.length < 36 := by
  unfold IntakeInv; rw [h]

theorem intakeInv_samples {c : Corr} (h : c.ctl = .samples) : IntakeInv c ↔ c.cbufRev.length = c.ccnt ∧
    c.rbuf.length < 4 ∧ c.ccnt < c.clen ∧ c.clen = frameLen c.htype ∧ c.hbuf.length = 36 := by
  unfold IntakeInv; rw [h]

theorem intakeInv_decode {c : Corr} (h : c.ctl = .decode) : IntakeInv c ↔ c.cbufRev.length = c.ccnt ∧
    c.rbuf = [] ∧ c.ccnt = c.clen ∧ c.clen = frameLen c.htype ∧ c.hbuf.length = 36 := by
  unfold IntakeInv; rw [h]

/-- Of a CORR that has halted the invariant says only that the samples held are counted. -/
theorem intakeInv_halted {c : Corr} (h : c.ctl.live = false) : IntakeInv c ↔ c.cbufRev.length = c.ccnt := by
  unfold IntakeInv
  cases hc : c.ctl <;> simp_all [CState.live]

/-- CORR's part of the two invariants. -/
def CorrInv (c : Corr) : Prop := IntakeInv c ∧ c.exit = corrExit c.ctl

theorem CorrInv.exit_none {c : Corr} (h : CorrInv c) (live : c.ctl.live = true) : c.exit = .none :=
  h.2.trans (corrExit_live live)

/-- CORR halted by a fault or an abort. -/
theorem CorrInv.halt {c : Corr} (h : c.cbufRev.length = c.ccnt) {ctl : CState} (hl : ctl.live = false) :
    CorrInv { c with ctl := ctl, exit := corrExit ctl } := ⟨(intakeInv_halted hl).mpr h, rfl⟩

theorem CorrInv.raiseFault {s : State} (h : s.corr.cbufRev.length = s.corr.ccnt) (code : FCode) :
    CorrInv (raiseFault .corr code s).corr := .halt (ctl := .faulted code) h rfl

theorem CorrInv.abortAgent {s : State} (h : CorrInv s.corr) (a : Agent) : CorrInv (abortAgent a s).corr := by
  cases a with
  | demod => rw [abortAgent_demod_corr]; exact h
  | corr =>
    simp only [Machine.abortAgent]
    split
    · exact .halt (ctl := .aborted) h.1.1 rfl
    · exact h

/-- `C.HDR` takes a fault, or 36 bytes as the header of a frame with no sample yet. -/
theorem headerStep_cases (b : List Byte) (s : State) :
    (∃ code, headerStep b s = raiseFault .corr code s) ∨
    (∃ t, b.length = 36 ∧ headerStep b s = { s with corr := acceptHeader t b s.corr }) := by
  unfold headerStep
  split
  · exact .inl ⟨_, rfl⟩
  · rename_i hl
    split
    · exact .inl ⟨_, rfl⟩
    · split
      · exact .inr ⟨_, by simpa using hl, rfl⟩
      · exact .inl ⟨_, rfl⟩

/-- `C.HDR` of a live CORR that holds no part of a sample. -/
theorem CorrInv.headerStep {s : State} (hcount : s.corr.cbufRev.length = s.corr.ccnt) (hx : s.corr.exit = .none)
    {b : List Byte} (hb : b.length = 36 → s.corr.rbuf = []) : CorrInv (headerStep b s).corr := by
  rcases headerStep_cases b s with ⟨code, e⟩ | ⟨t, hl, e⟩
  · rw [e]; exact .raiseFault hcount code
  · have hpos : 0 < frameLen t := by cases t <;> decide
    rw [e]
    exact ⟨(intakeInv_samples rfl).mpr ⟨rfl, by simp [hb hl], hpos, rfl, hl⟩, hx⟩

/-- `C.SMP` of a CORR that holds no part of another sample. -/
theorem CorrInv.sampleStep {c : Corr} (h : CorrInv c) (hc : c.ctl = .samples) (v : Sample) :
    CorrInv (sampleStep v { c with rbuf := [] }) := by
  obtain ⟨hcount, -, hlt, hlen, hbuf⟩ := (intakeInv_samples hc).mp h.1
  have hx := h.exit_none (by rw [hc]; rfl)
  by_cases hf : c.ccnt + 1 = c.clen
  · have hctl : (Machine.sampleStep v { c with rbuf := [] }).ctl = .decode := if_pos hf
    exact ⟨(intakeInv_decode hctl).mpr ⟨congrArg (· + 1) hcount, rfl, hf, hlen, hbuf⟩, by rw [hctl]; exact hx⟩
  · have hctl : (Machine.sampleStep v { c with rbuf := [] }).ctl = .samples := (if_neg hf).trans hc
    have hlt' : c.ccnt + 1 < c.clen := by omega
    exact ⟨(intakeInv_samples hctl).mpr ⟨congrArg (· + 1) hcount, by simp, hlt', hlen, hbuf⟩, by rw [hctl]; exact hx⟩

/-- A read that goes on holds less than its token. -/
theorem CorrInv.partialRead {c : Corr} (h : CorrInv c) {k : Nat} (hk : c.ctl = .hdr ∧ k = 36 ∨ c.ctl = .samples ∧ k = 4)
    {b : List Byte} (hb : b.length < k - c.rbuf.length) : CorrInv { c with rbuf := c.rbuf ++ b } := by
  have hlen : (c.rbuf ++ b).length < k := by rw [List.length_append]; omega
  refine ⟨?_, h.2⟩
  rcases hk with ⟨hc, rfl⟩ | ⟨hc, rfl⟩
  · exact (intakeInv_hdr (by exact hc)).mpr ⟨h.1.1, hlen⟩
  · obtain ⟨hcount, -, hrest⟩ := (intakeInv_samples hc).mp h.1
    exact (intakeInv_samples (by exact hc)).mpr ⟨hcount, hlen, hrest⟩

/-- A decode done: CORR waits for the next header, with the frame it holds as it was. -/
theorem CorrInv.decoded {c c' : Corr} (h : CorrInv c) (hc : c.ctl = .decode) (hctl : c'.ctl = .hdr)
    (hcbuf : c'.cbufRev = c.cbufRev) (hccnt : c'.ccnt = c.ccnt) (hrbuf : c'.rbuf = c.rbuf) (hexit : c'.exit = c.exit) :
    CorrInv c' := by
  obtain ⟨hcount, hempty, -⟩ := (intakeInv_decode hc).mp h.1
  refine ⟨(intakeInv_hdr hctl).mpr ⟨by rw [hcbuf, hccnt]; exact hcount, by rw [hrbuf, hempty]; decide⟩, ?_⟩
  rw [hexit, hctl]
  exact h.exit_none (by rw [hc]; rfl)

/-- CORR with control back at `HDR`. -/
def backToHdr (c : Corr) : Corr := { c with ctl := .hdr }

@[simp] theorem backToHdr_ctl (c : Corr) : (backToHdr c).ctl = .hdr := rfl
@[simp] theorem backToHdr_ccnt (c : Corr) : (backToHdr c).ccnt = c.ccnt := rfl
@[simp] theorem backToHdr_cbufRev (c : Corr) : (backToHdr c).cbufRev = c.cbufRev := rfl
@[simp] theorem backToHdr_hint (c : Corr) : (backToHdr c).hint = c.hint := rfl
@[simp] theorem backToHdr_status (c : Corr) : (backToHdr c).status = c.status := rfl
@[simp] theorem backToHdr_data (c : Corr) : (backToHdr c).data = c.data := rfl
@[simp] theorem backToHdr_rbuf (c : Corr) : (backToHdr c).rbuf = c.rbuf := rfl
@[simp] theorem backToHdr_exit (c : Corr) : (backToHdr c).exit = c.exit := rfl
@[simp] theorem backToHdr_successLine (par : Params) (c : Corr) (d : List Byte) :
    successLine par (backToHdr c) d = successLine par c d := rfl
@[simp] theorem backToHdr_failureLine (par : Params) (c : Corr) :
    failureLine par (backToHdr c) = failureLine par c := rfl

/-- CORR after `C.FISB`: the decode's result, and control back at `HDR`. -/
theorem fisbStep_corr (s : State) : (fisbStep s).corr = backToHdr (fisbDecode s.cfg s.par s.corr) := by
  cases h : fisbOutcome (fisbDecode s.cfg s.par s.corr)
  · rw [fisbStep_success h, backToHdr]
  · rw [fisbStep_failure h, backToHdr]

theorem CorrInv.fisbStep {s : State} (h : CorrInv s.corr) (hc : s.corr.ctl = .decode) : CorrInv (fisbStep s).corr := by
  rw [fisbStep_corr, fisbDecode_frame]
  exact h.decoded hc rfl rfl rfl rfl rfl

theorem CorrInv.adsbStep {s : State} (h : CorrInv s.corr) (hc : s.corr.ctl = .decode) : CorrInv (adsbStep s).corr := by
  cases hs : adsbSearch s.par (cbufOf s.corr) with
  | none => rw [adsbStep_failure hs]; exact h.decoded hc rfl rfl rfl rfl rfl
  | some r => rw [adsbStep_success hs]; exact h.decoded hc rfl rfl rfl rfl rfl

/-- Every move of CORR keeps its part of the invariants. -/
theorem CorrEffect.corrInv {s t : State} (h : CorrEffect s t) (live : CorrLive s) (hs : CorrInv s.corr) : CorrInv t.corr := by
  have hcount : s.corr.cbufRev.length = s.corr.ccnt := hs.1.1
  have hexit := hs.exit_none live
  cases h with
  | transfer limit h =>
    rcases pumpCorr_cases h with rfl | e
    · exact .raiseFault hcount _
    · rw [e]; exact hs
  | header hc hn => exact .headerStep (s := afterRead 36 s.script s) hcount hexit fun _ => rfl
  | sample v hc hn hv => exact hs.sampleStep hc v
  | oddSample hc hn hl => exact .raiseFault (s := afterRead 4 s.script s) hcount _
  | partialRead k hc hn hi => exact hs.partialRead hc hn
  | readFault hi he => exact .raiseFault hcount _
  | cleanEnd hc hi he hb => exact .halt (ctl := .ended) hcount rfl
  | headerEof hc hi he hb =>
    have hshort := ((intakeInv_hdr hc).mp hs.1).2
    exact .headerStep hcount hexit fun h36 => absurd h36 (Nat.ne_of_lt hshort)
  | sampleEof hc hn hi he => exact .raiseFault hcount _
  | fisb hc ht => exact hs.fisbStep hc
  | adsb hc ht => exact hs.adsbStep hc

/-- An abort leaves the exit status that belongs to the control state. -/
theorem abortAgent_demodExit {s : State} (h : s.demod.exit = demodExit s.demod.ctl) (a : Agent) :
    (abortAgent a s).demod.exit = demodExit (abortAgent a s).demod.ctl := by
  cases a with
  | corr => rw [abortAgent_corr_demod]; exact h
  | demod =>
    simp only [abortAgent]
    split
    · rfl
    · exact h

/-- Settles O57: every effect of a step keeps each agent's part. -/
theorem stepKeepsCorrInvariant : Obligations.StepKeepsCorrInvariant := by
  intro s t hintake hexit hstep
  obtain ⟨hd, hc⟩ := (exitInv_iff s).mp hexit
  have hcorr : CorrInv s.corr := ⟨hintake, hc⟩
  suffices h : CorrInv t.corr ∧ t.demod.exit = demodExit t.demod.ctl from
    ⟨h.1.1, (exitInv_iff t).mpr ⟨h.2, h.1.2⟩⟩
  obtain ⟨sc, -, rfl | ⟨live, -, he⟩ | ⟨live, he⟩ | ⟨a, -, rfl⟩ | ⟨p, r, st, rfl⟩⟩ := step_effects hstep
  · exact ⟨hcorr, hd⟩
  · obtain ⟨hsame, -⟩ := he.frame
    exact ⟨by rw [hsame]; exact hcorr, he.exit_eq live hd⟩
  · obtain ⟨hsame, -⟩ := he.frame
    exact ⟨he.corrInv live hcorr, by rw [hsame]; exact hd⟩
  · exact ⟨CorrInv.abortAgent (s := { s with script := sc }) hcorr a, abortAgent_demodExit (s := { s with script := sc }) hd a⟩
  · exact ⟨hcorr, hd⟩

end Sys2Proof.Machine
end

section
/-! Reset: its values, the legal configurations, and the invariants it meets (10_state.md R21, R22, R41). -/

namespace Sys2Proof.Machine

/-! ## Legal configurations -/

theorem entryLegal_iff (e : ShiftEntry) : entryLegal e = true ↔ e.pct ∈ [10, 20, 30, 40, 50, 60, 70, 80, 90] := by
  simp only [entryLegal, Bool.and_eq_true, beq_iff_eq, decide_eq_true_eq, List.mem_cons, List.not_mem_nil, or_false]
  omega

/-- What 10_state.md R22 asks of a configuration. -/
theorem configLegal_iff (cfg : Cfg) (par : Params) : configLegal cfg par = true ↔
    (cfg.enableFisb = true ∨ cfg.enableAdsb = true) ∧ (∀ c, c ∈ cfg.candidates → c.length = 6) ∧ cfg.compat = .none ∧
      (∀ e, e ∈ par.schedule → e.pct ∈ [10, 20, 30, 40, 50, 60, 70, 80, 90]) := by
  simp only [configLegal, Bool.and_eq_true, Bool.or_eq_true, List.all_eq_true, beq_iff_eq, entryLegal_iff, and_assoc]

theorem boot_legal {cfg : Cfg} {par : Params} (h : configLegal cfg par = true) (alone : Bool) :
    boot cfg par alone = { State.reset with cfg := cfg, par := par, io := { Io.reset with alone := alone } } := if_pos h

theorem boot_illegal {cfg : Cfg} {par : Params} (h : ¬configLegal cfg par = true) (alone : Bool) :
    boot cfg par alone = raiseFault .corr .arg (raiseFault .demod .arg
      { State.reset with cfg := cfg, par := par, io := { Io.reset with alone := alone } }) := if_neg h

/-- Settles O51: `configLegal` is the condition of R22, and a reset without it is the two faults. -/
theorem illegalConfigHaltsBoth : Obligations.IllegalConfigHaltsBoth := by
  intro cfg par alone
  rw [← configLegal_iff]
  refine ⟨fun h => boot_legal h alone, fun h => ?_⟩
  rw [boot_illegal h]
  exact ⟨rfl, rfl, rfl, rfl, rfl, rfl, rfl, rfl, rfl, rfl⟩

/-! ## Reset -/

theorem reset_ew (j : Fin 72) : State.reset.demod.ew[j] = 0 := Vector.getElem_replicate j.isLt

theorem reset_status (j : Fin 6) : State.reset.corr.status[j] = .unset := Vector.getElem_replicate j.isLt

/-- Settles O50: the two vectors element by element, every other value as `State.reset` gives it. -/
theorem resetValues : Obligations.ResetValues :=
  ⟨rfl, rfl, rfl, rfl, rfl, reset_ew, rfl, rfl, rfl, rfl, rfl, rfl, rfl, rfl, rfl, rfl, rfl, rfl, reset_status,
    rfl, rfl, rfl, rfl, rfl, rfl, rfl, rfl, rfl, rfl, rfl, rfl, rfl, rfl, rfl, rfl, rfl⟩

/-- A window of zeros has the sum 0. -/
theorem windowInv_reset : WindowInv Demod.reset := by
  have hew : Demod.reset.ew.toList = List.replicate 72 0 := Vector.toList_replicate
  refine ⟨fun v hv => ?_, ?_⟩
  · rw [hew] at hv
    rw [List.eq_of_mem_replicate hv]
    decide
  · rw [windowTotal, hew, List.map_replicate, List.sum_replicate]
    rfl

theorem demodInv_reset : DemodInv State.reset :=
  ⟨windowInv_reset, gateInv_gateStep State.reset.cfg Demod.reset, (frameInv_search rfl).mpr ⟨rfl, rfl⟩⟩

theorem intakeInv_reset : IntakeInv State.reset.corr := (intakeInv_hdr rfl).mpr ⟨rfl, by decide⟩

/-- At reset nothing is on its way to CORR, and both agents run. -/
theorem framingInv_reset : FramingInv State.reset :=
  ⟨rfl, WholeRecords.nil, nofun, .inl rfl, nofun, nofun, nofun⟩

/-- Settles O58. -/
theorem resetMeetsInvariants : Obligations.ResetMeetsInvariants :=
  ⟨demodInv_reset, intakeInv_reset, (exitInv_iff _).mpr ⟨rfl, rfl⟩, framingInv_reset⟩

end Sys2Proof.Machine
end

section
/-! The outcome of `C.ADSB`: the first accepted attempt (43_rs_decoder.md R172, R173). -/

namespace Sys2Proof.Machine

/-! ## The order of the variants -/

/-- The order in which `C.ADSB` tries its variants: window 0 before window 1, then by index. -/
def VariantBefore (a b : Window × Nat) : Prop :=
  windowOffset a.1 < windowOffset b.1 ∨ (a.1 = b.1 ∧ a.2 < b.2)

theorem VariantBefore.asymm {a b : Window × Nat} (h : VariantBefore a b) : ¬VariantBefore b a := by
  rintro (h' | ⟨hw', hj'⟩) <;> rcases h with h | ⟨hw, hj⟩
  · omega
  · rw [hw] at h'; omega
  · rw [hw'] at h; omega
  · omega

theorem VariantBefore.irrefl (a : Window × Nat) : ¬VariantBefore a a := fun h => h.asymm h

theorem adsbBefore_iff {w' w : Window} {j' j : Nat} {code' code : Code} :
    AdsbBefore w' j' code' w j code ↔
      VariantBefore (w', j') (w, j) ∨ ((w', j') = (w, j) ∧ code' = .long ∧ code = .short) := by
  simp only [AdsbBefore, VariantBefore, Prod.mk.injEq]
  tauto

/-- Without a hint the indices are tried in ascending order (43_rs_decoder.md R152). -/
theorem searchOrder_zero (n : Nat) : searchOrder n 0 = List.range (n + 1) := by
  rw [List.range_succ_eq_map]
  simp [searchOrder]

theorem mem_adsbVariants {par : Params} {w : Window} {j : Nat} :
    (w, j) ∈ adsbVariants par ↔ j ≤ par.schedule.length := by
  cases w <;> simp [adsbVariants, searchOrder_zero]

theorem adsbVariants_pairwise (par : Params) : (adsbVariants par).Pairwise VariantBefore := by
  have hin : ∀ w, (((List.range (par.schedule.length + 1)).map fun j => (w, j)).Pairwise VariantBefore) := fun w =>
    List.pairwise_map.mpr (List.pairwise_lt_range.imp fun h => .inr ⟨rfl, h⟩)
  have hacross : ∀ a ∈ (List.range (par.schedule.length + 1)).map (fun j => (Window.nominal, j)),
      ∀ b ∈ (List.range (par.schedule.length + 1)).map (fun j => (Window.later, j)), VariantBefore a b := by
    intro a ha b hb
    obtain ⟨_, -, rfl⟩ := List.mem_map.mp ha
    obtain ⟨_, -, rfl⟩ := List.mem_map.mp hb
    exact .inl Nat.zero_lt_one
  simpa only [adsbVariants, searchOrder_zero, List.flatMap_cons, List.flatMap_nil, List.append_nil] using
    List.pairwise_append.mpr ⟨hin _, hin _, hacross⟩

/-- A variant tried before another stands before it in the list. -/
theorem mem_of_variantBefore {l pre post : List (Window × Nat)} {a b : Window × Nat} (hp : l.Pairwise VariantBefore)
    (hl : l = pre ++ a :: post) (hb : b ∈ l) (hba : VariantBefore b a) : b ∈ pre := by
  subst hl
  obtain ⟨-, hpost, -⟩ := List.pairwise_append.mp hp
  rcases List.mem_append.mp hb with hb | hb
  · exact hb
  · rcases List.mem_cons.mp hb with rfl | hb
    · exact absurd hba (VariantBefore.irrefl b)
    · exact absurd hba ((List.pairwise_cons.mp hpost).1 b hb).asymm

/-! ## The search -/

/-- A success of the search is the first accepted attempt. -/
theorem adsbSearch_eq_some {par : Params} {cb : List Sample} {d : List Byte} {e : Nat}
    (h : adsbSearch par cb = some (d, e)) : ∃ w j code, j ≤ par.schedule.length ∧ AdsbAccepted par cb w j code d e ∧
      ∀ w' j' code' d' e', j' ≤ par.schedule.length → AdsbBefore w' j' code' w j code →
        ¬AdsbAccepted par cb w' j' code' d' e' := by
  obtain ⟨pre, ⟨w, j⟩, post, hl, hsome, hnone⟩ := (findSome?_eq_some_iff_split _ _ _).mp h
  obtain ⟨code, hacc, hlong⟩ := adsbAttempt_eq_some hsome
  have hmem : (w, j) ∈ adsbVariants par := by rw [hl]; simp
  refine ⟨w, j, code, mem_adsbVariants.mp hmem, hacc, fun w' j' code' d' e' hj' hbefore => ?_⟩
  rcases adsbBefore_iff.mp hbefore with hv | ⟨hv, rfl, hshort⟩
  · have hpre := mem_of_variantBefore (adsbVariants_pairwise par) hl (mem_adsbVariants.mpr hj') hv
    exact adsbAttempt_eq_none.mp (hnone _ hpre) code' d' e'
  · obtain ⟨rfl, rfl⟩ := Prod.mk.inj hv
    exact hlong hshort d' e'

/-- The search fails only where no attempt is accepted. -/
theorem adsbSearch_eq_none {par : Params} {cb : List Sample} (h : adsbSearch par cb = none) (w : Window) (j : Nat)
    (code : Code) (d : List Byte) (e : Nat) (hj : j ≤ par.schedule.length) : ¬AdsbAccepted par cb w j code d e :=
  adsbAttempt_eq_none.mp (List.findSome?_eq_none_iff.mp h _ (mem_adsbVariants.mpr hj)) code d e

/-- The data length, the type code and the error bound of an accepted attempt. -/
theorem AdsbAccepted.bounds {par : Params} {cb : List Sample} {w : Window} {j : Nat} {code : Code} {d : List Byte} {e : Nat}
    (h : AdsbAccepted par cb w j code d e) :
    (d.length = 34 ∧ typeCode d ≠ 0 ∧ e ≤ 7) ∨ (d.length = 18 ∧ typeCode d = 0 ∧ e ≤ 6) := by
  cases code with
  | uplink => exact h.elim
  | long =>
    obtain ⟨hrs, htype⟩ := h
    obtain ⟨hlen, herr⟩ := rsAttempt_length hrs
    exact .inl ⟨hlen, htype, herr⟩
  | short =>
    obtain ⟨hrs, htype⟩ := h
    obtain ⟨hlen, herr⟩ := rsAttempt_length hrs
    exact .inr ⟨hlen, htype, herr⟩

/-- Settles O44: the two outcomes of the search, and what the packet then writes. -/
theorem adsbOutcome : Obligations.AdsbOutcome := by
  intro s live htype
  refine ⟨adsbStep s, exec_cAdsb live, ?_⟩
  cases hs : adsbSearch s.par (cbufOf s.corr) with
  | some r =>
    obtain ⟨d, e⟩ := r
    obtain ⟨w, j, code, hj, hacc, hfirst⟩ := adsbSearch_eq_some hs
    rw [adsbStep_success hs]
    exact ⟨rfl, .inl ⟨w, j, code, d, e, hj, hacc, hfirst, rfl, rfl, hacc.bounds, rfl, rfl⟩⟩
  | none =>
    have hline : failLineOn s.cfg s.corr.htype = s.cfg.failAdsb := by rw [htype]; rfl
    rw [adsbStep_failure hs, hline]
    exact ⟨rfl, .inr ⟨adsbSearch_eq_none hs, rfl, rfl, rfl, rfl⟩⟩

end Sys2Proof.Machine
end

section
/-! The outcome of `C.FISB`, and what a decode reads (43_rs_decoder.md R159 to R171, 10_state.md R35). -/

namespace Sys2Proof.Machine

/-! ## The chain of blocks -/

/-- The hint left by `C.BLOCK`'s answer (43_rs_decoder.md R156). -/
def hintAfter (h : Nat) : Option (List Byte × Nat × Nat) → Nat
  | some (_, _, nh) => nh
  | none => h

/-- The status `C.BLOCK`'s answer gives its block (43_rs_decoder.md R156). -/
def statusAfter : Option (List Byte × Nat × Nat) → BStatus
  | some (_, e, _) => .decoded e
  | none => .uncorrectable

/-- The data `C.BLOCK`'s answer gives its block, `old` being there before (43_rs_decoder.md R156). -/
def dataAfter (old : List Byte) : Option (List Byte × Nat × Nat) → List Byte
  | some (d, _, _) => d
  | none => old

/-- The hint with which block `k` is decoded when no block before it takes the shortcut (43_rs_decoder.md R159). -/
def hintBefore (cfg : Cfg) (par : Params) (cb : List Sample) : Nat → Nat
  | 0 => 0
  | k + 1 => hintAfter (hintBefore cfg par cb k) (blockDecode cfg par (Fin.ofNat 6 k) (hintBefore cfg par cb k) cb)

/-- What `C.BLOCK` answers for block `i` with that hint. -/
def blockAnswer (cfg : Cfg) (par : Params) (cb : List Sample) (i : Fin 6) : Option (List Byte × Nat × Nat) :=
  blockDecode cfg par i (hintBefore cfg par cb i) cb

theorem hintBefore_succ (cfg : Cfg) (par : Params) (cb : List Sample) (i : Fin 6) :
    hintBefore cfg par cb (i.val + 1) = hintAfter (hintBefore cfg par cb i) (blockAnswer cfg par cb i) := by
  have hi : Fin.ofNat 6 i.val = i := Fin.ofNat_val_eq_self i
  rw [hintBefore, hi, blockAnswer]

/-- Every hint of the chain is an index of the schedule. -/
theorem hintBefore_le (cfg : Cfg) (par : Params) (cb : List Sample) (k : Nat) :
    hintBefore cfg par cb k ≤ par.schedule.length := by
  induction k with
  | zero => exact Nat.zero_le _
  | succ k ih =>
    rw [hintBefore]
    rcases h : blockDecode cfg par (Fin.ofNat 6 k) (hintBefore cfg par cb k) cb with _ | ⟨d, e, nh⟩
    · exact ih
    · exact (blockDecode_sound ih h).2.2

/-- An answer for a block: 72 data bytes and at most 10 errors. -/
theorem blockAnswer_sound {cfg : Cfg} {par : Params} {cb : List Sample} {i : Fin 6} {d : List Byte} {e nh : Nat}
    (h : blockAnswer cfg par cb i = some (d, e, nh)) : d.length = 72 ∧ e ≤ 10 := by
  obtain ⟨hd, he, -⟩ := blockDecode_sound (hintBefore_le cfg par cb i) h
  exact ⟨hd, he⟩

/-! ## The decode without the shortcut -/

/-- CORR with the blocks below `k` decoded, each with the hint the blocks before it left, and the data of the others as
`old` has them. -/
structure DecodedTo (cfg : Cfg) (par : Params) (cb : List Sample) (old : Vector (List Byte) 6) (k : Nat) (c : Corr) :
    Prop where
  frame : cbufOf c = cb
  hint : c.hint = hintBefore cfg par cb k
  status : ∀ i : Fin 6, i.val < k → c.status[i] = statusAfter (blockAnswer cfg par cb i)
  data : ∀ i : Fin 6, i.val < k → c.data[i] = dataAfter old[i] (blockAnswer cfg par cb i)
  rest : ∀ i : Fin 6, k ≤ i.val → c.data[i] = old[i]

theorem decodedTo_start (cfg : Cfg) (par : Params) (c : Corr) : DecodedTo cfg par (cbufOf c) c.data 0 (packetStart c) where
  frame := rfl
  hint := rfl
  status := nofun
  data := nofun
  rest := fun _ _ => rfl

/-- What decoding a block makes of CORR, given `C.BLOCK`'s answer. -/
theorem decodeBlock_fields {cfg : Cfg} {par : Params} {c : Corr} {i : Fin 6} {a : Option (List Byte × Nat × Nat)}
    (h : blockDecode cfg par i c.hint (cbufOf c) = a) :
    cbufOf (decodeBlock cfg par c i) = cbufOf c ∧ (decodeBlock cfg par c i).hint = hintAfter c.hint a ∧
    (decodeBlock cfg par c i).status = c.status.set i (statusAfter a) ∧
    (decodeBlock cfg par c i).data = c.data.set i (dataAfter c.data[i] a) := by
  rcases a with _ | ⟨d, e, nh⟩
  · rw [decodeBlock_fail h]
    exact ⟨rfl, rfl, rfl, (Vector.set_getElem_self i.isLt).symm⟩
  · rw [decodeBlock_store h]
    exact ⟨rfl, rfl, rfl, rfl⟩

/-- One more block is decoded. -/
theorem DecodedTo.next {cfg : Cfg} {par : Params} {cb : List Sample} {old : Vector (List Byte) 6} {c : Corr} (i : Fin 6)
    (h : DecodedTo cfg par cb old i.val c) : DecodedTo cfg par cb old (i.val + 1) (decodeBlock cfg par c i) := by
  have hans : blockDecode cfg par i c.hint (cbufOf c) = blockAnswer cfg par cb i := by rw [h.hint, h.frame, blockAnswer]
  obtain ⟨hframe, hhint, hstatus, hdata⟩ := decodeBlock_fields hans
  refine ⟨hframe.trans h.frame, ?_, fun j hj => ?_, fun j hj => ?_, fun j hj => ?_⟩
  · rw [hintBefore_succ, hhint, h.hint]
  · rw [hstatus, Fin.getElem_fin, Vector.getElem_set]
    split
    · rename_i hij; rw [Fin.ext hij]
    · exact h.status j (by omega)
  · rw [hdata, Fin.getElem_fin, Vector.getElem_set]
    split
    · rename_i hij; rw [Fin.ext hij, h.rest j (by omega)]
    · exact h.data j (by omega)
  · rw [hdata, Fin.getElem_fin, Vector.getElem_set_ne _ _ (by omega)]
    exact h.rest j (by omega)

/-- Whether block 0 decodes to data that ends the message (43_rs_decoder.md R161). -/
def TakesShortcut (cfg : Cfg) (par : Params) (cb : List Sample) : Prop :=
  ∃ d e nh, blockAnswer cfg par cb 0 = some (d, e, nh) ∧ block0End par d = .ends

/-- A decode without the shortcut takes each block as `C.BLOCK` answers it. -/
theorem fisbDecode_decodedTo {cfg : Cfg} {par : Params} {c : Corr} (h : ¬TakesShortcut cfg par (cbufOf c)) :
    DecodedTo cfg par (cbufOf c) c.data 6 (fisbDecode cfg par c) := by
  have e6 : List.finRange 6 = [0, 1, 2, 3, 4, 5] := by decide
  rw [fisbDecode_foldl fun d e nh hd he => h ⟨d, e, nh, hd, he⟩, e6, List.foldl_cons, List.foldl_cons,
    List.foldl_cons, List.foldl_cons, List.foldl_cons, List.foldl_cons, List.foldl_nil]
  exact (((((decodedTo_start cfg par c).next 0).next 1).next 2).next 3).next 4 |>.next 5

/-! ## The decode with the shortcut -/

/-- CORR after the shortcut: block 0 decoded, the others not attempted, their data zero (43_rs_decoder.md R161). -/
structure Skipped (d : List Byte) (e nh : Nat) (c : Corr) : Prop where
  hint : c.hint = nh
  status0 : c.status[0] = .decoded e
  data0 : c.data[0] = d
  status : ∀ j : Fin 6, j ≠ 0 → c.status[j] = .notAttempted
  data : ∀ j : Fin 6, j ≠ 0 → c.data[j] = List.replicate 72 0

theorem skipBlocks_rest (c : Corr) {j : Fin 6} (h : j ≠ 0) :
    (skipBlocks c).status[j] = .notAttempted ∧ (skipBlocks c).data[j] = List.replicate 72 0 := by
  match j, h with
  | 1, _ | 2, _ | 3, _ | 4, _ | 5, _ => exact ⟨rfl, rfl⟩

theorem fisbDecode_skipped {cfg : Cfg} {par : Params} {c : Corr} {d : List Byte} {e nh : Nat}
    (h : blockAnswer cfg par (cbufOf c) 0 = some (d, e, nh)) (he : block0End par d = .ends) :
    Skipped d e nh (fisbDecode cfg par c) := by
  rw [fisbDecode_skip h he]
  exact ⟨rfl, Vector.getElem_set_self _, Vector.getElem_set_self _, fun j hj => (skipBlocks_rest _ hj).1,
    fun j hj => (skipBlocks_rest _ hj).2⟩

/-! ## Statuses and data -/

/-- Every status is an error count up to 10, 98 or 99. -/
theorem fisbDecode_status (cfg : Cfg) (par : Params) (c : Corr) (i : Fin 6) :
    (fisbDecode cfg par c).status[i] = .uncorrectable ∨ (fisbDecode cfg par c).status[i] = .notAttempted ∨
      ∃ e, e ≤ 10 ∧ (fisbDecode cfg par c).status[i] = .decoded e := by
  by_cases hs : TakesShortcut cfg par (cbufOf c)
  · obtain ⟨d, e, nh, h, he⟩ := hs
    have hk := fisbDecode_skipped h he
    by_cases hi : i = 0
    · subst hi; exact .inr (.inr ⟨e, (blockAnswer_sound h).2, hk.status0⟩)
    · exact .inr (.inl (hk.status i hi))
  · rw [(fisbDecode_decodedTo hs).status i i.isLt]
    rcases h : blockAnswer cfg par (cbufOf c) i with _ | ⟨d, e, nh⟩
    · exact .inl rfl
    · exact .inr (.inr ⟨e, (blockAnswer_sound h).2, rfl⟩)

/-- Without the shortcut a block that is not uncorrectable was decoded. -/
theorem DecodedTo.answer {cfg : Cfg} {par : Params} {cb : List Sample} {old : Vector (List Byte) 6} {c : Corr} {i : Fin 6}
    (h : DecodedTo cfg par cb old 6 c) (hi : c.status[i] ≠ .uncorrectable) :
    ∃ d e nh, blockAnswer cfg par cb i = some (d, e, nh) ∧ c.status[i] = .decoded e ∧ c.data[i] = d := by
  have hs := h.status i i.isLt
  have hd := h.data i i.isLt
  rcases ha : blockAnswer cfg par cb i with _ | ⟨d, e, nh⟩
  · rw [ha] at hs; exact absurd hs hi
  · rw [ha] at hs hd; exact ⟨d, e, nh, rfl, hs, hd⟩

/-- Where no block is uncorrectable, block 0 was decoded and every block has 72 data bytes. -/
theorem fisbDecode_complete {cfg : Cfg} {par : Params} {c : Corr}
    (h : ∀ i : Fin 6, (fisbDecode cfg par c).status[i] ≠ .uncorrectable) :
    (∃ e, (fisbDecode cfg par c).status[0] = .decoded e) ∧ ∀ i : Fin 6, (fisbDecode cfg par c).data[i].length = 72 := by
  by_cases hs : TakesShortcut cfg par (cbufOf c)
  · obtain ⟨d, e, nh, ha, he⟩ := hs
    have hk := fisbDecode_skipped ha he
    refine ⟨⟨e, hk.status0⟩, fun i => ?_⟩
    by_cases hi : i = 0
    · subst hi; exact (congrArg List.length hk.data0).trans (blockAnswer_sound ha).1
    · rw [hk.data i hi]; exact List.length_replicate
  · have hk := fisbDecode_decodedTo hs
    refine ⟨?_, fun i => ?_⟩
    · obtain ⟨-, e, -, -, h0, -⟩ := hk.answer (h 0)
      exact ⟨e, h0⟩
    · obtain ⟨d, e, nh, ha, -, hd⟩ := hk.answer (h i)
      rw [hd]; exact (blockAnswer_sound ha).1

/-- Where a block is uncorrectable the shortcut was not taken, so every block was attempted. -/
theorem fisbDecode_attempted {cfg : Cfg} {par : Params} {c : Corr}
    (h : ∃ i : Fin 6, (fisbDecode cfg par c).status[i] = .uncorrectable) (i : Fin 6) :
    (fisbDecode cfg par c).status[i] ≠ .notAttempted := by
  obtain ⟨k, hk⟩ := h
  by_cases hs : TakesShortcut cfg par (cbufOf c)
  · obtain ⟨d, e, nh, ha, he⟩ := hs
    have hsk := fisbDecode_skipped ha he
    by_cases h0 : k = 0
    · subst h0; exact absurd (hk.symm.trans hsk.status0) nofun
    · exact absurd (hk.symm.trans (hsk.status k h0)) nofun
  · rw [(fisbDecode_decodedTo hs).status i i.isLt]
    rcases blockAnswer cfg par (cbufOf c) i with _ | ⟨d, e, nh⟩ <;> nofun

theorem payload_length {v : Vector (List Byte) 6} (h : ∀ i : Fin 6, v[i].length = 72) : v.toList.flatten.length = 432 := by
  have hall : v.toList.map List.length = List.replicate 6 72 := by
    refine List.eq_replicate_iff.mpr ⟨by simp, fun b hb => ?_⟩
    obtain ⟨l, hl, rfl⟩ := List.mem_map.mp hb
    obtain ⟨i, hi, rfl⟩ := Vector.mem_iff_getElem.mp (Vector.mem_toList_iff.mp hl)
    exact h ⟨i, hi⟩
  rw [List.length_flatten, hall]
  rfl

theorem mem_status_iff {v : Vector BStatus 6} {b : BStatus} : b ∈ v.toList ↔ ∃ i : Fin 6, v[i] = b := by
  rw [Vector.mem_toList_iff, Vector.mem_iff_getElem]
  exact ⟨fun ⟨i, hi, h⟩ => ⟨⟨i, hi⟩, h⟩, fun ⟨i, h⟩ => ⟨i.val, i.isLt, h⟩⟩

theorem fisbOutcome_of_complete {c : Corr} (h : ∀ i : Fin 6, c.status[i] ≠ .uncorrectable) :
    fisbOutcome c = .success c.data.toList.flatten :=
  if_neg fun hc => by
    obtain ⟨i, hi⟩ := mem_status_iff.mp (List.contains_iff_mem.mp hc)
    exact h i hi

theorem fisbOutcome_of_uncorrectable {c : Corr} (h : ∃ i : Fin 6, c.status[i] = .uncorrectable) :
    fisbOutcome c = .failure :=
  if_pos (List.contains_iff_mem.mpr (mem_status_iff.mpr h))

/-! ## The packet -/

/-- CORR with what a decode writes replaced. -/
def withResults (h : Nat) (st : Vector BStatus 6) (da : Vector (List Byte) 6) (ast : BStatus) (ad : List Byte)
    (c : Corr) : Corr := { c with hint := h, status := st, data := da, astatus := ast, adata := ad }

/-- A record of the frame reads nothing that a decode writes. -/
theorem captureRecord_withResults (par : Params) (k : CapKind) (h : Nat) (st : Vector BStatus 6)
    (da : Vector (List Byte) 6) (ast : BStatus) (ad : List Byte) (c : Corr) :
    captureRecord par k (withResults h st da ast ad c) = captureRecord par k c := rfl

theorem fisbDecode_eq_withResults (cfg : Cfg) (par : Params) (c : Corr) : fisbDecode cfg par c =
    withResults (fisbDecode cfg par c).hint (fisbDecode cfg par c).status (fisbDecode cfg par c).data c.astatus c.adata c :=
  fisbDecode_frame cfg par c

theorem captureRecord_fisbDecode (cfg : Cfg) (par : Params) (k : CapKind) (c : Corr) :
    captureRecord par k (fisbDecode cfg par c) = captureRecord par k c := by
  rw [fisbDecode_eq_withResults, captureRecord_withResults]

theorem fisbDecode_htype (cfg : Cfg) (par : Params) (c : Corr) : (fisbDecode cfg par c).htype = c.htype := by
  rw [fisbDecode_frame]

/-! CORR after `C.FISB`, field by field. -/

theorem fisbStep_hint (s : State) : (fisbStep s).corr.hint = (fisbDecode s.cfg s.par s.corr).hint := by
  rw [fisbStep_corr, backToHdr_hint]

theorem fisbStep_status (s : State) : (fisbStep s).corr.status = (fisbDecode s.cfg s.par s.corr).status := by
  rw [fisbStep_corr, backToHdr_status]

theorem fisbStep_data (s : State) : (fisbStep s).corr.data = (fisbDecode s.cfg s.par s.corr).data := by
  rw [fisbStep_corr, backToHdr_data]

theorem backToHdr_withResults (h : Nat) (st : Vector BStatus 6) (da : Vector (List Byte) 6) (c : Corr) :
    backToHdr (withResults h st da c.astatus c.adata c) = { c with ctl := .hdr, hint := h, status := st, data := da } := rfl

/-- `C.FISB` writes control, hint, statuses and data of CORR and what CORR has to hand over, nothing else. -/
theorem fisbStep_eq (s : State) : fisbStep s = { s with
    corr := { s.corr with ctl := .hdr, hint := (fisbStep s).corr.hint, status := (fisbStep s).corr.status,
                          data := (fisbStep s).corr.data },
    io := { s.io with capWr := (fisbStep s).io.capWr, outWr := (fisbStep s).io.outWr } } := by
  rw [fisbStep_hint, fisbStep_status, fisbStep_data, ← backToHdr_withResults, ← fisbDecode_eq_withResults]
  cases h : fisbOutcome (fisbDecode s.cfg s.par s.corr)
  · rw [fisbStep_success h, backToHdr]
  · rw [fisbStep_failure h, backToHdr]

theorem fisbStep_io (s : State) :
    (fisbStep s).io = { s.io with capWr := (fisbStep s).io.capWr, outWr := (fisbStep s).io.outWr } := by
  obtain ⟨-, -, -, -, a, b, hio⟩ := fisbStep_frame s
  rw [hio]

/-- What a packet that succeeds writes (44_output.md R177). -/
theorem fisbStep_ports_success {s : State}
    (h : ∀ i : Fin 6, (fisbDecode s.cfg s.par s.corr).status[i] ≠ .uncorrectable) :
    (fisbStep s).io.capWr = s.io.capWr ++ (if s.cfg.captureRaw then [captureRecord s.par .raw s.corr] else []) ∧
    (fisbStep s).io.outWr = s.io.outWr ++
      successLine s.par (fisbDecode s.cfg s.par s.corr) (fisbDecode s.cfg s.par s.corr).data.toList.flatten := by
  rw [fisbStep_success (fisbOutcome_of_complete h), captureRecord_fisbDecode]
  exact ⟨rfl, rfl⟩

/-- What a packet that fails writes (44_output.md R177). -/
theorem fisbStep_ports_failure {s : State} (htype : s.corr.htype = .F)
    (h : ∃ i : Fin 6, (fisbDecode s.cfg s.par s.corr).status[i] = .uncorrectable) :
    (fisbStep s).io.capWr = s.io.capWr ++ (if s.cfg.captureRaw then [captureRecord s.par .raw s.corr] else []) ++
      (if s.cfg.captureFail then [captureRecord s.par .fail s.corr] else []) ∧
    (fisbStep s).io.outWr = s.io.outWr ++
      (if s.cfg.failFisb then failureLine s.par (fisbDecode s.cfg s.par s.corr) else []) := by
  have hline : failLineOn s.cfg (fisbDecode s.cfg s.par s.corr).htype = s.cfg.failFisb := by
    rw [fisbDecode_htype, htype]; rfl
  rw [fisbStep_failure (fisbOutcome_of_uncorrectable h), captureRecord_fisbDecode, captureRecord_fisbDecode, hline]
  exact ⟨rfl, rfl⟩

namespace Packet

/-- Settles O42: the chain of hints is `hintBefore`, the answers are `blockAnswer`. -/
theorem fisbOutcome : Obligations.FisbOutcome := by
  intro s live htype
  refine ⟨fisbStep s, exec_cFisb live, fisbStep_eq s, ?_⟩
  rw [fisbStep_hint, fisbStep_status, fisbStep_data, fisbStep_corr, backToHdr_successLine,
    backToHdr_failureLine]
  refine ⟨⟨hintBefore s.cfg s.par (cbufOf s.corr), blockAnswer s.cfg s.par (cbufOf s.corr), rfl, fun i => ⟨?_, ?_⟩,
    fun h => ?_, fun d e nh ha he => ?_⟩, fisbDecode_status s.cfg s.par s.corr, fun h => ?_, fun h => ?_⟩
  · exact exec_cBlock live i _ (hintBefore_le _ _ _ _)
  · rw [hintBefore_succ]
    rcases blockAnswer s.cfg s.par (cbufOf s.corr) i with _ | ⟨d, e, nh⟩ <;> rfl
  · have hk := fisbDecode_decodedTo (c := s.corr) fun ⟨d, e, nh, ha, he⟩ => h d e nh ha he
    refine ⟨hk.hint, fun i => ?_⟩
    rw [hk.status i i.isLt, hk.data i i.isLt]
    exact ⟨fun d e nh ha => by rw [ha]; exact ⟨rfl, rfl⟩, fun ha => by rw [ha]; exact ⟨rfl, rfl⟩⟩
  · have hk := fisbDecode_skipped ha he
    exact ⟨hk.hint, hk.status0, hk.data0, fun j hj => ⟨hk.status j hj, hk.data j hj⟩⟩
  · obtain ⟨hcap, hout⟩ := fisbStep_ports_success h
    obtain ⟨h0, hlen⟩ := fisbDecode_complete h
    exact ⟨h0, payload_length hlen, hcap, hout⟩
  · obtain ⟨hcap, hout⟩ := fisbStep_ports_failure htype h
    exact ⟨fisbDecode_attempted h, hcap, hout⟩

end Packet

/-! ## What an earlier packet left -/

/-- Two decodes of one frame agree in hint and statuses, and in the data where every block is decoded or skipped. -/
theorem fisbDecode_agree {cfg : Cfg} {par : Params} {c c' : Corr} (h : cbufOf c' = cbufOf c) :
    (fisbDecode cfg par c').hint = (fisbDecode cfg par c).hint ∧
    (fisbDecode cfg par c').status = (fisbDecode cfg par c).status ∧
    ((∀ i : Fin 6, (fisbDecode cfg par c).status[i] ≠ .uncorrectable) →
      (fisbDecode cfg par c').data = (fisbDecode cfg par c).data) := by
  by_cases hs : TakesShortcut cfg par (cbufOf c)
  · obtain ⟨d, e, nh, ha, he⟩ := hs
    rw [fisbDecode_skip ha he, fisbDecode_skip (by rw [h]; exact ha) he]
    refine ⟨rfl, rfl, fun _ => ?_⟩
    simp [skipBlocks, storeBlock]
  · have hk := fisbDecode_decodedTo hs
    have hk' : DecodedTo cfg par (cbufOf c) c'.data 6 (fisbDecode cfg par c') := by
      rw [← h] at hs ⊢; exact fisbDecode_decodedTo hs
    have hstatus : ∀ i : Fin 6, (fisbDecode cfg par c').status[i] = (fisbDecode cfg par c).status[i] := fun i =>
      (hk'.status i i.isLt).trans (hk.status i i.isLt).symm
    refine ⟨hk'.hint.trans hk.hint.symm, Vector.ext fun i hi => hstatus ⟨i, hi⟩, fun hall => Vector.ext fun i hi => ?_⟩
    obtain ⟨d, e, nh, ha, -, hd⟩ := hk.answer (hall ⟨i, hi⟩)
    obtain ⟨d', e', nh', ha', -, hd'⟩ := hk'.answer (i := ⟨i, hi⟩) (by rw [hstatus]; exact hall ⟨i, hi⟩)
    obtain ⟨rfl, -⟩ := Prod.mk.inj (Option.some.inj (ha'.symm.trans ha))
    exact hd'.trans hd.symm

/-- `C.COMPLETE` reads CORR only for its records and lines. -/
theorem completeStep_io_congr {s : State} {c c' : Corr}
    (hsuccess : ∀ d, successLine s.par c' d = successLine s.par c d) (hfailure : failureLine s.par c' = failureLine s.par c)
    (hcap : ∀ k, captureRecord s.par k c' = captureRecord s.par k c) (htype : c'.htype = c.htype) (o : Completion) :
    (completeStep o { s with corr := c' }).io = (completeStep o { s with corr := c }).io := by
  cases o with
  | success d => simp only [completeStep_success, hcap, hsuccess]
  | failure => simp only [completeStep_failure, hcap, hfailure, htype]

/-- Of what a decode writes, the lines of a FIS-B packet read the statuses only. -/
theorem fisb_lines_withResults {c : Corr} (hf : c.htype = .F) (par : Params) (h : Nat) (da : Vector (List Byte) 6)
    (ast : BStatus) (ad : List Byte) :
    (∀ d, successLine par (withResults h c.status da ast ad c) d = successLine par c d) ∧
    failureLine par (withResults h c.status da ast ad c) = failureLine par c := by
  have hf' : (withResults h c.status da ast ad c).htype = .F := hf
  refine ⟨fun d => ?_, ?_⟩
  · unfold successLine; rw [hf, hf']; rfl
  · unfold failureLine; rw [hf, hf']; rfl

/-- Of what a decode writes, the lines of an ADS-B packet read its status only. -/
theorem adsb_lines_withResults {c : Corr} (ha : c.htype = .A) (par : Params) (h : Nat) (st : Vector BStatus 6)
    (da : Vector (List Byte) 6) (ad : List Byte) :
    (∀ d, successLine par (withResults h st da c.astatus ad c) d = successLine par c d) ∧
    failureLine par (withResults h st da c.astatus ad c) = failureLine par c := by
  have ha' : (withResults h st da c.astatus ad c).htype = .A := ha
  refine ⟨fun d => ?_, ?_⟩
  · unfold successLine; rw [ha, ha']; rfl
  · unfold failureLine; rw [ha, ha']; rfl

theorem withResults_withResults (h h' : Nat) (st st' : Vector BStatus 6) (da da' : Vector (List Byte) 6)
    (ast ast' : BStatus) (ad ad' : List Byte) (c : Corr) :
    withResults h st da ast ad (withResults h' st' da' ast' ad' c) = withResults h st da ast ad c := rfl

section OtherResults
variable (h : Nat) (st : Vector BStatus 6) (da : Vector (List Byte) 6) (ast : BStatus) (ad : List Byte)

/-- The decode of a frame after another packet: as without it, but for the data and the ADS-B result. -/
theorem fisbDecode_otherResults (cfg : Cfg) (par : Params) (c : Corr) :
    ∃ da', fisbDecode cfg par (withResults h st da ast ad c) =
      withResults (fisbDecode cfg par c).hint (fisbDecode cfg par c).status da' ast ad (fisbDecode cfg par c) := by
  obtain ⟨hhint, hstatus, -⟩ :=
    fisbDecode_agree (cfg := cfg) (par := par) (c := c) (c' := withResults h st da ast ad c) rfl
  have hother := fisbDecode_eq_withResults cfg par (withResults h st da ast ad c)
  rw [hhint, hstatus, withResults_withResults] at hother
  have hsame := congrArg (withResults (fisbDecode cfg par c).hint (fisbDecode cfg par c).status
    (fisbDecode cfg par (withResults h st da ast ad c)).data ast ad) (fisbDecode_eq_withResults cfg par c)
  rw [withResults_withResults] at hsame
  exact ⟨_, hother.trans hsame.symm⟩

/-- `C.FISB` of a FIS-B frame after another packet. -/
theorem fisbStep_otherResults {s : State} (hf : s.corr.htype = .F) :
    (fisbStep { s with corr := withResults h st da ast ad s.corr }).io = (fisbStep s).io ∧
    (fisbStep { s with corr := withResults h st da ast ad s.corr }).corr.status = (fisbStep s).corr.status ∧
    (fisbStep { s with corr := withResults h st da ast ad s.corr }).corr.hint = (fisbStep s).corr.hint := by
  obtain ⟨hhint, hstatus, hdata⟩ :=
    fisbDecode_agree (cfg := s.cfg) (par := s.par) (c := s.corr) (c' := withResults h st da ast ad s.corr) rfl
  obtain ⟨da', hr⟩ := fisbDecode_otherResults h st da ast ad s.cfg s.par s.corr
  obtain ⟨hsuccess, hfailure⟩ := fisb_lines_withResults ((fisbDecode_htype s.cfg s.par s.corr).trans hf) s.par
    (fisbDecode s.cfg s.par s.corr).hint da' ast ad
  refine ⟨?_, by rw [fisbStep_status, fisbStep_status, hstatus], by rw [fisbStep_hint, fisbStep_hint, hhint]⟩
  rw [fisbStep_io, fisbStep_io s]
  by_cases hu : ∃ i : Fin 6, (fisbDecode s.cfg s.par s.corr).status[i] = .uncorrectable
  · obtain ⟨hcap, hout⟩ := fisbStep_ports_failure hf hu
    obtain ⟨hcap', hout'⟩ := fisbStep_ports_failure (s := { s with corr := withResults h st da ast ad s.corr }) hf
      (by rw [hstatus]; exact hu)
    rw [hcap, hout, hcap', hout', hr, hfailure]
    rfl
  · have hall : ∀ i : Fin 6, (fisbDecode s.cfg s.par s.corr).status[i] ≠ .uncorrectable := fun i hi => hu ⟨i, hi⟩
    obtain ⟨hcap, hout⟩ := fisbStep_ports_success hall
    obtain ⟨hcap', hout'⟩ := fisbStep_ports_success (s := { s with corr := withResults h st da ast ad s.corr })
      (by rw [hstatus]; exact hall)
    rw [hcap, hout, hcap', hout', hdata hall, hr, hsuccess]
    rfl

/-- `C.ADSB` of an ADS-B frame after another packet. -/
theorem adsbStep_otherResults {s : State} (ha : s.corr.htype = .A) :
    (adsbStep { s with corr := withResults h st da ast ad s.corr }).io = (adsbStep s).io ∧
    (adsbStep { s with corr := withResults h st da ast ad s.corr }).corr.astatus = (adsbStep s).corr.astatus ∧
    (adsbStep { s with corr := withResults h st da ast ad s.corr }).corr.status = (adsbStep s).corr.status ∧
    (adsbStep { s with corr := withResults h st da ast ad s.corr }).corr.hint = (adsbStep s).corr.hint := by
  cases hs : adsbSearch s.par (cbufOf s.corr) with
  | some r =>
    obtain ⟨d, e⟩ := r
    obtain ⟨hsuccess, hfailure⟩ := adsb_lines_withResults
      (c := { packetStart s.corr with astatus := .decoded e, adata := d }) ha s.par 0 (Vector.replicate 6 .unset) da d
    have hio := completeStep_io_congr (s := s) hsuccess hfailure (fun _ => rfl) rfl (.success d)
    simp only [completeStep_success] at hio
    rw [adsbStep_success hs, adsbStep_success (s := { s with corr := withResults h st da ast ad s.corr }) hs]
    exact ⟨hio, rfl, rfl, rfl⟩
  | none =>
    obtain ⟨hsuccess, hfailure⟩ := adsb_lines_withResults
      (c := { packetStart s.corr with astatus := .uncorrectable }) ha s.par 0 (Vector.replicate 6 .unset) da ad
    have hio := completeStep_io_congr (s := s) hsuccess hfailure (fun _ => rfl) rfl .failure
    simp only [completeStep_failure] at hio
    rw [adsbStep_failure hs, adsbStep_failure (s := { s with corr := withResults h st da ast ad s.corr }) hs]
    exact ⟨hio, rfl, rfl, rfl⟩

end OtherResults

/-- Settles O43: the other packet's CORR is `withResults` of this one. -/
theorem decodeIgnoresEarlierPacket : Obligations.DecodeIgnoresEarlierPacket := by
  intro s h st da ast ad live u hu
  obtain rfl : u = { s with corr := withResults h st da ast ad s.corr } := hu
  refine ⟨fun hf => ?_, fun ha => ?_⟩
  · obtain ⟨hio, hstatus, hhint⟩ := fisbStep_otherResults h st da ast ad hf
    exact ⟨_, _, exec_cFisb live, exec_cFisb (by exact live), hio.symm, hstatus.symm, hhint.symm⟩
  · obtain ⟨hio, hastatus, hstatus, hhint⟩ := adsbStep_otherResults h st da ast ad ha
    exact ⟨_, _, exec_cAdsb live, exec_cAdsb (by exact live), hio.symm, hastatus.symm, hstatus.symm, hhint.symm⟩

end Sys2Proof.Machine
end

section
/-! The lines of `OUT` as texts (44_output.md R183, R184): no part of a line holds a newline, so the one at its end is the
only one. -/

namespace Sys2Proof.Machine

/-! ## Texts without a newline -/

/-- A text that holds no newline. -/
def NoNewline (l : List Byte) : Prop := (0x0A : Byte) ∉ l

@[simp] theorem noNewline_append (a b : List Byte) : NoNewline (a ++ b) ↔ NoNewline a ∧ NoNewline b := by
  simp only [NoNewline, List.mem_append, not_or]

theorem noNewline_map {α : Type} {f : α → Byte} {l : List α} (h : ∀ a, f a ≠ 0x0A) : NoNewline (l.map f) := fun hm =>
  have ⟨a, _, ha⟩ := List.mem_map.mp hm
  h a ha

@[simp] theorem noNewline_ascii (l : List Char) : NoNewline (ascii l) ↔ ∀ c ∈ l, BitVec.ofNat 8 c.toNat ≠ 0x0A := by
  simp [NoNewline, ascii]

@[simp] theorem noNewline_dec (v : Nat) : NoNewline (dec v) := not_newline_of_isDigit (dec_isDigit v)

@[simp] theorem noNewline_decPad (v w : Nat) : NoNewline (decPad v w) := not_newline_of_isDigit (decPad_isDigit v w)

theorem digitByte_ne_newline (d : Nat) : digitByte d ≠ 0x0A := by
  intro h
  have hd := isDigit_digitByte d
  rw [h] at hd
  exact absurd hd (by decide)

theorem nibbleByte_ne_newline {v : Nat} (h : v < 16) : nibbleByte v ≠ 0x0A := by
  unfold nibbleByte
  split <;> bv_omega

@[simp] theorem noNewline_hex (l : List Byte) : NoNewline (hex l) := by
  intro h
  obtain ⟨b, -, hb⟩ := List.mem_flatMap.mp h
  have hlt : b.toNat < 256 := b.isLt
  rcases List.mem_pair.mp hb with hb | hb
  · exact nibbleByte_ne_newline (by omega) hb.symm
  · exact nibbleByte_ne_newline (by omega) hb.symm

@[simp] theorem noNewline_levelText (l : Nat) : NoNewline (levelText l) := by
  simp [levelText]

@[simp] theorem noNewline_timeText (s u : Nat) : NoNewline (timeText s u) := by
  simp [timeText]

/-- Whatever RSSI is reported, its text is a sign, digits and a dot (44_output.md R181). -/
theorem noNewline_rssiBytes (r : RssiText) : NoNewline (rssiBytes r) := by
  have hsign : NoNewline (if r.neg then ascii ['-'] else []) := by split <;> simp [NoNewline, ascii]
  have hdigits : NoNewline ((r.lead :: r.more).map fun d => digitByte d.val) :=
    noNewline_map fun d => digitByte_ne_newline d.val
  have hfrac : NoNewline ([r.frac].map fun d => digitByte d.val) := noNewline_map fun d => digitByte_ne_newline d.val
  have hdot : NoNewline (ascii ['.']) := by simp
  simp only [rssiBytes, noNewline_append]
  exact ⟨⟨⟨hsign, hdigits⟩, hdot⟩, hfrac⟩

@[simp] theorem noNewline_rssiField (par : Params) (c : Corr) : NoNewline (rssiField par c) := by
  unfold rssiField
  split <;> exact noNewline_rssiBytes _

@[simp] theorem noNewline_statusesText (st : Vector BStatus 6) : NoNewline (statusesText st) := by
  simp [statusesText]

/-- Of the fields that the lines have in common only the statuses differ from line to line. -/
@[simp] theorem noNewline_lineFields (par : Params) (c : Corr) (be : List Byte) :
    NoNewline (lineFields par c be) ↔ NoNewline be := by
  simp [lineFields]

/-! ## The lines -/

/-- A line: one newline byte, at its end (44_output.md R184). -/
def IsLine (l : List Byte) : Prop := ∃ text : List Byte, l = text ++ [0x0A] ∧ (0x0A : Byte) ∉ text

theorem isLine_of_noNewline {text : List Byte} (h : NoNewline text) : IsLine (text ++ [0x0A]) := ⟨text, rfl, h⟩

theorem isLine_successLine (par : Params) (c : Corr) (d : List Byte) : IsLine (successLine par c d) := by
  unfold successLine
  cases c.htype
  case F => exact isLine_of_noNewline (by simp)
  case A => exact isLine_of_noNewline (by simp)

/-- The failure line repeats the header, and an accepted header holds no newline. -/
theorem isLine_failureLine (par : Params) {c : Corr} {ty : PType} (h : GoodHeader ty c.hbuf) :
    IsLine (failureLine par c) := by
  have hbuf : NoNewline c.hbuf := h.no_newline
  unfold failureLine
  cases c.htype
  case F => exact isLine_of_noNewline (by simp [hbuf])
  case A => exact isLine_of_noNewline (by simp [hbuf])

/-- A CORR with nothing to hand over has then exactly what it emits. -/
theorem emitOut_outWr_of_empty {s : State} (h : s.io.outWr = []) (b : List Byte) : (emitOut b s).io.outWr = b := by
  rw [emitOut_io, h, List.nil_append]

/-- Settles O48: each operation appends one line to what CORR has to hand over. -/
theorem linesHoldOneNewline : Obligations.LinesHoldOneNewline := by
  intro s t d ty live hgood hempty hexec
  rcases hexec with h | h
  · rw [exec_cLine live] at h
    obtain rfl := Host.Outcome.next.inj h
    rw [emitOut_outWr_of_empty hempty]
    exact isLine_successLine s.par s.corr d
  · rw [exec_cFailline live] at h
    obtain rfl := Host.Outcome.next.inj h
    rw [emitOut_outWr_of_empty hempty]
    exact isLine_failureLine s.par hgood

end Sys2Proof.Machine
end

section
/-! Records and lines in progress: the transfers of both agents, and the bound of `CH` (20_memory.md R62, R63; 44_output.md
R187; 60_exceptions.md R196). -/

namespace Sys2Proof.Machine

/-! ## DEMOD's transfer into `CH` -/

/-- The bytes of DEMOD's record that the next transfer moves: within what the host lets it and the room of `CH`. -/
def chTransfer (limit : Option Nat) (s : State) : Nat := atMost limit (atMost (chRoom s) s.io.chWr.length)

theorem atMost_le_limit {limit : Option Nat} {l n : Nat} (h : limit = some l) : atMost limit n ≤ l := by
  subst h
  exact Nat.min_le_left l n

/-- A transfer moves all there is or reaches its limit. -/
theorem atMost_eq (limit : Option Nat) (n : Nat) : atMost limit n = n ∨ limit = some (atMost limit n) := by
  cases limit with
  | none => exact .inl rfl
  | some k => rcases Nat.le_total k n with h | h <;> simp [h]

theorem chRoom_of_cap {s : State} {cap : Nat} (h : s.par.pipeCap = some cap) :
    chRoom s = some (cap - s.io.ch.length) := by
  rw [chRoom, h, Option.map_some]

theorem chTransfer_le (limit : Option Nat) (s : State) : chTransfer limit s ≤ s.io.chWr.length :=
  (atMost_le _ _).trans (atMost_le _ _)

theorem chTransfer_le_limit {limit : Option Nat} {l : Nat} (s : State) (h : limit = some l) : chTransfer limit s ≤ l :=
  atMost_le_limit h

theorem chTransfer_le_room (limit : Option Nat) {s : State} {cap : Nat} (h : s.par.pipeCap = some cap) :
    chTransfer limit s ≤ cap - s.io.ch.length :=
  (atMost_le _ _).trans (atMost_le_limit (chRoom_of_cap h))

/-- The transfer is the largest that record, host and room let: it reaches one of the three bounds. -/
theorem chTransfer_eq (limit : Option Nat) (s : State) : chTransfer limit s = s.io.chWr.length ∨
    limit = some (chTransfer limit s) ∨ ∃ cap, s.par.pipeCap = some cap ∧ chTransfer limit s = cap - s.io.ch.length := by
  rcases atMost_eq limit (atMost (chRoom s) s.io.chWr.length) with h | h
  · rcases atMost_eq (chRoom s) s.io.chWr.length with hr | hr
    · exact .inl (h.trans hr)
    · obtain ⟨cap, hcap, hroom⟩ := Option.map_eq_some_iff.mp hr
      exact .inr (.inr ⟨cap, hcap, h.trans hroom.symm⟩)
  · exact .inr (.inl h)

theorem pumpCh_broken {s : State} (limit : Option Nat) (h : s.io.chBroken = true) :
    pumpCh limit s = some (raiseFault .demod .write s) := if_pos h

theorem pumpCh_moves {limit : Option Nat} {s : State} (h : s.io.chBroken = false) (hk : 0 < chTransfer limit s) :
    pumpCh limit s = some { s with io := { s.io with
      ch := s.io.ch ++ s.io.chWr.take (chTransfer limit s), chWr := s.io.chWr.drop (chTransfer limit s) } } := by
  unfold pumpCh
  rw [h]
  exact if_neg (Nat.ne_of_gt hk)

/-! ## CORR's transfers -/

/-- Capture records go first (44_output.md R187). -/
theorem pumpCorr_record {s : State} {r : CapRec} {rest : List CapRec} (h : s.io.capWr = r :: rest) (limit : Option Nat) :
    pumpCorr limit s = pumpCap limit s := by
  rw [pumpCorr, h]; rfl

theorem pumpCorr_line {s : State} (h : s.io.capWr = []) (limit : Option Nat) : pumpCorr limit s = pumpOut limit s := by
  rw [pumpCorr, h]; rfl

/-- A step whose transfer is blocked leaves the state as it is. -/
theorem settle_ofTransfer (s : State) (o : Option State) : settle s (ofTransfer o) = .next (o.getD s) := by
  cases o <;> rfl

section Record
variable {limit : Option Nat} {s : State} {r : CapRec} {rest : List CapRec}

theorem pumpCap_refused (h : s.io.capWr = r :: rest) (hr : s.io.capRefused = true) :
    pumpCap limit s = some (raiseFault .corr .write s) := by
  simp [pumpCap, h, hr]

theorem pumpCap_stalled (h : s.io.capWr = r :: rest) (hr : s.io.capRefused = false) (hs : s.io.capStall = true) :
    pumpCap limit s = none := by
  simp [pumpCap, h, hr, hs]

/-- A record whose bytes left are within the limit is complete. -/
theorem pumpCap_whole (h : s.io.capWr = r :: rest) (hr : s.io.capRefused = false) (hs : s.io.capStall = false)
    (hk : ∀ k, limit = some k → r.bytes.length ≤ s.io.capSent + k) :
    pumpCap limit s = some { s with io := { s.io with cap := s.io.cap ++ [r], capWr := rest, capSent := 0 } } := by
  have hall : atMost limit (r.bytes.length - s.io.capSent) = r.bytes.length - s.io.capSent := by
    cases limit with
    | none => rfl
    | some k =>
      have := hk k rfl
      rw [atMost_some]
      omega
  simp [pumpCap, h, hr, hs, hall]

/-- Of a longer record as much is handed over as the limit says; a limit of 0 leaves the state as it is. -/
theorem pumpCap_part {k : Nat} (h : s.io.capWr = r :: rest) (hr : s.io.capRefused = false) (hs : s.io.capStall = false)
    (hk : s.io.capSent + k < r.bytes.length) :
    (pumpCap (some k) s).getD s = { s with io := { s.io with capSent := s.io.capSent + k } } := by
  have hmin : min k (r.bytes.length - s.io.capSent) = k := by omega
  have hne : k ≠ r.bytes.length - s.io.capSent := by omega
  rcases Nat.eq_zero_or_pos k with rfl | hpos
  · have hnone : pumpCap (some 0) s = none := by simp [pumpCap, h, hr, hs, hne]
    rw [hnone]; rfl
  · simp [pumpCap, h, hr, hs, hmin, hne, Nat.ne_of_gt hpos]

end Record

theorem pumpOut_refused {s : State} (limit : Option Nat) (h : s.io.outRefused = true) :
    pumpOut limit s = some (raiseFault .corr .write s) := if_pos h

theorem pumpOut_stalled {s : State} (limit : Option Nat) (hr : s.io.outRefused = false) (hs : s.io.outStall = true) :
    pumpOut limit s = none := by
  simp [pumpOut, hr, hs]

theorem take_atMost {α : Type} (limit : Option Nat) (l : List α) :
    l.take (atMost limit l.length) = l.take (limit.getD l.length) := by
  cases limit with
  | none => rfl
  | some k => exact List.take_eq_take_min.symm

theorem drop_atMost {α : Type} (limit : Option Nat) (l : List α) :
    l.drop (atMost limit l.length) = l.drop (limit.getD l.length) := by
  cases limit with
  | none => rfl
  | some k => exact List.drop_eq_drop_min.symm

/-- Of a line as much is handed over as the limit says; where that is nothing the state stays as it is. -/
theorem pumpOut_moves {s : State} (limit : Option Nat) (hr : s.io.outRefused = false) (hs : s.io.outStall = false) :
    (pumpOut limit s).getD s = { s with io := { s.io with
      out := s.io.out ++ s.io.outWr.take (limit.getD s.io.outWr.length),
      outWr := s.io.outWr.drop (limit.getD s.io.outWr.length) } } := by
  rw [← take_atMost, ← drop_atMost]
  unfold pumpOut
  rw [hr, hs]
  by_cases hk : atMost limit s.io.outWr.length = 0
  · simp [hk]
  · simp [hk]

/-! ## The capacity of `CH` -/

theorem afterRead_ch_length_le (k : Nat) (sc : List HostAct) (s : State) :
    (afterRead k sc s).io.ch.length ≤ s.io.ch.length := by
  unfold afterRead corrInput
  cases s.io.alone <;> simp

theorem dropInput_ch_length_le (k : Nat) (s : State) : (dropInput k s).io.ch.length ≤ s.io.ch.length := by
  unfold dropInput
  cases s.io.alone <;> simp

theorem headerStep_ch (b : List Byte) (s : State) : (headerStep b s).io.ch = s.io.ch := by
  obtain ⟨-, -, -, -, hio | hio⟩ := headerStep_frame b s <;> rw [hio]
  rfl

/-- What CORR reads it takes out of `CH`, and it puts nothing in. -/
theorem CorrEffect.ch_length_le {s t : State} (h : CorrEffect s t) : t.io.ch.length ≤ s.io.ch.length := by
  cases h with
  | transfer limit h =>
    rcases pumpCorr_cases h with rfl | e
    · exact Nat.le_refl _
    · rw [e]
  | header hc hn => rw [headerStep_ch]; exact afterRead_ch_length_le _ _ _
  | sample v hc hn hv => exact afterRead_ch_length_le 4 s.script s
  | oddSample hc hn hl => exact afterRead_ch_length_le _ _ _
  | partialRead k hc hn hi => exact dropInput_ch_length_le _ _
  | headerEof hc hi he hb => rw [headerStep_ch]
  | fisb hc ht =>
    obtain ⟨-, -, -, -, a, b, hio⟩ := fisbStep_frame s
    rw [hio]
  | adsb hc ht =>
    obtain ⟨-, -, -, -, a, b, hio⟩ := adsbStep_frame s
    rw [hio]
  | _ => exact Nat.le_refl _

theorem DemodEffect.ch_length_le {s t : State} {cap : Nat} (h : DemodEffect s t) (hp : s.par.pipeCap = some cap)
    (hs : s.io.ch.length ≤ cap) : t.io.ch.length ≤ cap := by
  cases h with
  | transfer limit hw h =>
    rcases pumpCh_cases h with ⟨-, rfl⟩ | ⟨-, k, -, -, hroom, rfl⟩
    · exact hs
    · have := hroom cap hp
      simp only [List.length_append, List.length_take]
      omega
  | pair b0 b1 b2 b3 rest hw hb =>
    obtain ⟨rec, hio, -⟩ := iqStep_frame (le16 b0 b1) (le16 b2 b3) { s with demod := { s.demod with ibuf := rest } }
    rw [hio]
    exact hs
  | _ => exact hs

theorem abortAgent_ch (a : Agent) (s : State) : (abortAgent a s).io.ch = s.io.ch := by
  cases a <;> (unfold abortAgent; simp only; split <;> rfl)

theorem hostPort_ch (p : Port) (r st : Option Bool) (io : Io) : (hostPort p r st io).ch = io.ch := by
  cases p <;> rfl

/-- No step overfills `CH` (20_memory.md R63). -/
theorem step_ch_length_le {s t : State} {cap : Nat} (hp : s.par.pipeCap = some cap) (hs : s.io.ch.length ≤ cap)
    (h : step s = .next t) : t.io.ch.length ≤ cap := by
  obtain ⟨sc, -, rfl | ⟨-, -, he⟩ | ⟨-, he⟩ | ⟨a, -, rfl⟩ | ⟨p, r, st, rfl⟩⟩ := step_effects h
  · exact hs
  · exact he.ch_length_le hp hs
  · exact he.ch_length_le.trans hs
  · rw [abortAgent_ch]; exact hs
  · rw [hostPort_ch]; exact hs

/-! ## The steps that hand bytes over -/

/-- A step of a DEMOD with a record in progress, its `CH` open (20_memory.md R62, R63). -/
theorem step_demod_record {limit : Option Nat} {sc : List HostAct} {s : State}
    (hrun : HostRuns .demod limit sc s ∨ limit = none ∧ DemodMoves sc s) (live : DemodLive s) (ha : s.io.alone = false)
    (hw : s.io.chWr ≠ []) (hopen : s.io.chBroken = false) :
    (0 < chTransfer limit s → step s = .next { s with script := sc, io := { s.io with
      ch := s.io.ch ++ s.io.chWr.take (chTransfer limit s), chWr := s.io.chWr.drop (chTransfer limit s) } }) ∧
    (chTransfer limit s = 0 → (∀ t, step s = .next t → t.demod = s.demod ∧ t.io.chWr = s.io.chWr) ∧
      (s.script ≠ [] → step s = .next { s with script := sc }) ∧
      (s.script = [] → step s = settle s (corrMove none s))) := by
  refine ⟨fun hk => ?_, fun hk => ?_⟩
  · exact step_demod_writes hrun live ha hw (pumpCh_moves (s := { s with script := sc }) hopen hk)
  · have hblocked : demodMove limit { s with script := sc } = .blocked := by
      rw [demodMove_writes (s := { s with script := sc }) live ha hw,
        (pumpCh_none_iff limit { s with script := sc }).mpr ⟨hopen, hk⟩]
      rfl
    obtain ⟨hkept, hscript, hfree⟩ := step_demod_waits hrun hblocked
    exact ⟨fun t ht => have ⟨hd, _, hwr⟩ := hkept t ht; ⟨hd, hwr⟩, hscript, hfree⟩

section CorrWrites
variable {limit : Option Nat} {sc : List HostAct} {s : State}

/-- A step of a CORR with something to hand over is one transfer, or keeps the state. -/
theorem step_corr_transfer (hrun : HostRuns .corr limit sc s ∨ limit = none ∧ CorrMoves sc s) (live : CorrLive s)
    (hw : s.io.capWr ≠ [] ∨ s.io.outWr ≠ []) :
    step s = .next ((pumpCorr limit { s with script := sc }).getD { s with script := sc }) := by
  rw [step_corr_writes hrun live hw, settle_ofTransfer]

/-- A step of a CORR with a capture record in progress (44_output.md R187; 60_exceptions.md R196). -/
theorem step_corr_record (hrun : HostRuns .corr limit sc s ∨ limit = none ∧ CorrMoves sc s) (live : CorrLive s)
    {r : CapRec} {rest : List CapRec} (hcap : s.io.capWr = r :: rest) :
    (s.io.capRefused = true → step s = .next (raiseFault .corr .write { s with script := sc })) ∧
    (s.io.capRefused = false → s.io.capStall = true → step s = .next { s with script := sc }) ∧
    (s.io.capRefused = false → s.io.capStall = false →
      ((∀ k, limit = some k → r.bytes.length ≤ s.io.capSent + k) →
        step s = .next { s with script := sc, io := { s.io with
          cap := s.io.cap ++ [r], capWr := rest, capSent := 0 } }) ∧
      (∀ k, limit = some k → s.io.capSent + k < r.bytes.length →
        step s = .next { s with script := sc, io := { s.io with capSent := s.io.capSent + k } })) := by
  have hcap' : ({ s with script := sc } : State).io.capWr = r :: rest := hcap
  rw [step_corr_transfer hrun live (.inl (by simp [hcap])), pumpCorr_record hcap']
  refine ⟨fun hr => ?_, fun hr hs => ?_, fun hr hs => ⟨fun hk => ?_, ?_⟩⟩
  · rw [pumpCap_refused hcap' hr]; rfl
  · rw [pumpCap_stalled hcap' hr hs]; rfl
  · rw [pumpCap_whole hcap' hr hs hk]; rfl
  · rintro k rfl hk
    rw [pumpCap_part hcap' hr hs hk]

/-- A step of a CORR with a line in progress and no capture record left (44_output.md R187; 60_exceptions.md R196). -/
theorem step_corr_line (hrun : HostRuns .corr limit sc s ∨ limit = none ∧ CorrMoves sc s) (live : CorrLive s)
    (hcap : s.io.capWr = []) (hw : s.io.outWr ≠ []) :
    (s.io.outRefused = true → step s = .next (raiseFault .corr .write { s with script := sc })) ∧
    (s.io.outRefused = false → s.io.outStall = true → step s = .next { s with script := sc }) ∧
    (s.io.outRefused = false → s.io.outStall = false → ∀ k, k = limit.getD s.io.outWr.length →
      step s = .next { s with script := sc, io := { s.io with
        out := s.io.out ++ s.io.outWr.take k, outWr := s.io.outWr.drop k } }) := by
  have hcap' : ({ s with script := sc } : State).io.capWr = [] := hcap
  rw [step_corr_transfer hrun live (.inr hw), pumpCorr_line hcap']
  refine ⟨fun hr => ?_, fun hr hs => ?_, fun hr hs k hk => ?_⟩
  · rw [pumpOut_refused (s := { s with script := sc }) limit hr]; rfl
  · rw [pumpOut_stalled (s := { s with script := sc }) limit hr hs]; rfl
  · rw [pumpOut_moves (s := { s with script := sc }) limit hr hs, hk]

end CorrWrites

/-- Settles O53: the bytes DEMOD hands over are `chTransfer`; CORR's ports and the bound of `CH` each by their own rule. -/
theorem recordWriteBlocksAndFaults : Obligations.RecordWriteBlocksAndFaults := by
  refine ⟨fun s sc limit hrun live ha hw => ⟨fun hbroken => ?_, fun hopen => ?_⟩,
    fun s sc limit hrun live => ⟨fun r rest hcap => ?_, fun hcap hw => ?_⟩, fun s t cap hp hs h => ?_⟩
  · exact step_demod_writes hrun live ha hw (pumpCh_broken limit (by exact hbroken))
  · exact ⟨chTransfer limit s, chTransfer_le limit s, fun l => chTransfer_le_limit s,
      fun cap => chTransfer_le_room limit, chTransfer_eq limit s, step_demod_record hrun live ha hw hopen⟩
  · exact step_corr_record hrun live hcap
  · exact step_corr_line hrun live hcap hw
  · exact step_ch_length_le hp hs h

end Sys2Proof.Machine
end

section
/-! Tokens and operations: decoding and encoding are inverse to each other (30_encoding.md R73 to R79). -/

namespace Sys2Proof.Machine

/-! ## Whole tokens -/

theorem decode_halfBytes (i q : Half) : decode (.pair (halfBytes i ++ halfBytes q)) = .ok (.dIq i q) := by
  rw [show halfBytes i ++ halfBytes q = [_, _, _, _] from rfl, decode_pair, le16_halfBytes, le16_halfBytes]

theorem decode_sampleBytes (v : Sample) : decode (.sample (sampleBytes v)) = .ok (.cSmp v) := by
  rw [sampleBytes, decode_sample, le32_sampleBytes]

theorem headerOf_iff {t : PType} {h : List Byte} :
    headerOf t h = true ↔ h.length = 36 ∧ typeOfByte (h.getD 18 0) = some t := by
  simp only [headerOf, Bool.and_eq_true, beq_iff_eq, typeOfByte_eq_some]
  refine and_congr_right fun hl => ?_
  have h18 : 18 < h.length := by omega
  rw [List.getElem?_eq_getElem h18, List.getD_eq_getElem h 0 h18, Option.some.injEq]

/-! ## What a token that decodes is -/

theorem decode_pair_eq_ok {l : List Byte} {i : Instr} (h : decode (.pair l) = .ok i) :
    ∃ b0 b1 b2 b3, l = [b0, b1, b2, b3] ∧ i = .dIq (le16 b0 b1) (le16 b2 b3) := by
  by_cases hl : l.length = 4
  · obtain ⟨b0, b1, b2, b3, rfl⟩ := four_bytes hl
    exact ⟨b0, b1, b2, b3, rfl, (Except.ok.inj h).symm⟩
  · rw [decode_pair_short hl] at h
    cases h

theorem decode_sample_eq_ok {l : List Byte} {i : Instr} (h : decode (.sample l) = .ok i) :
    ∃ b0 b1 b2 b3, l = [b0, b1, b2, b3] ∧ i = .cSmp (le32 b0 b1 b2 b3) := by
  by_cases hl : l.length = 4
  · obtain ⟨b0, b1, b2, b3, rfl⟩ := four_bytes hl
    exact ⟨b0, b1, b2, b3, rfl, (Except.ok.inj h).symm⟩
  · rw [decode_sample_short hl] at h
    cases h

theorem decode_header_eq_ok {l : List Byte} {i : Instr} :
    decode (.header l) = .ok i ↔ ∃ t, headerOf t l = true ∧ i = hdrOp t l := by
  constructor
  · intro h
    by_cases hl : l.length = 36
    · cases ht : typeOfByte (l.getD 18 0) with
      | none => rw [decode_header_type hl ht] at h; cases h
      | some t =>
        rw [decode_header_ok hl ht] at h
        exact ⟨t, headerOf_iff.mpr ⟨hl, ht⟩, (Except.ok.inj h).symm⟩
    · rw [decode_header_length hl] at h
      cases h
  · rintro ⟨t, ht, rfl⟩
    obtain ⟨hl, ht⟩ := headerOf_iff.mp ht
    exact decode_header_ok hl ht

@[simp] theorem encode_hdrOp (t : PType) (h : List Byte) : encode (hdrOp t h) = some (.header h) := by
  cases t <;> rfl

@[simp] theorem hdrOp_wellFormed (par : Params) (t : PType) (h : List Byte) :
    (hdrOp t h).wellFormed par = headerOf t h := by
  cases t <;> rfl

/-- A chunk tag is well formed iff it is in the ranges of 30_encoding.md R75. -/
theorem tagOk_iff {bufPairs sec usec len : Nat} : tagOk bufPairs sec usec len = true ↔
    sec < 10000000000 ∧ usec ≤ 999999 ∧ 1 ≤ len ∧ len ≤ 4 * bufPairs := by
  simp only [tagOk, timeInRange, Bool.and_eq_true, decide_eq_true_eq]
  omega

/-! ## The round trips -/

/-- Settles O5: of the operations that have a token, only the headers need their operand to be well formed. -/
theorem decodeInvertsEncode : Obligations.DecodeInvertsEncode := by
  intro par i tk hwf he
  cases i with
  | dChunk sec usec len => cases he; exact decode_tag sec usec len
  | dIq i q => cases he; exact decode_halfBytes i q
  | dEof => cases he; exact decode_inEof
  | cHdrF h => cases he; exact decode_header_eq_ok.mpr ⟨.F, hwf, rfl⟩
  | cHdrA h => cases he; exact decode_header_eq_ok.mpr ⟨.A, hwf, rfl⟩
  | cSmp v => cases he; exact decode_sampleBytes v
  | cEof pos => cases he; exact decode_corrEof pos
  | _ => cases he

/-- A token that decodes is the encoding of its operation. -/
theorem encode_of_decode {tk : Token} {i : Instr} (h : decode tk = .ok i) : encode i = some tk := by
  cases tk with
  | tag sec usec len => cases h; rfl
  | pair l =>
    obtain ⟨b0, b1, b2, b3, rfl, rfl⟩ := decode_pair_eq_ok h
    rw [encode, halfBytes_le16, halfBytes_le16]; rfl
  | inEof => cases h; rfl
  | header l =>
    obtain ⟨t, -, rfl⟩ := decode_header_eq_ok.mp h
    exact encode_hdrOp t l
  | sample l =>
    obtain ⟨b0, b1, b2, b3, rfl, rfl⟩ := decode_sample_eq_ok h
    rw [encode, sampleBytes_le32]
  | corrEof pos => cases h; rfl

/-- Whatever the parameters, any token but a chunk tag decodes to a well-formed operation. -/
theorem wellFormed_of_decode {tk : Token} {i : Instr} (h : decode tk = .ok i)
    (hne : ∀ sec usec len, tk ≠ .tag sec usec len) (par : Params) : i.wellFormed par = true := by
  cases tk with
  | tag sec usec len => exact absurd rfl (hne sec usec len)
  | pair l => obtain ⟨b0, b1, b2, b3, -, rfl⟩ := decode_pair_eq_ok h; rfl
  | inEof => cases h; rfl
  | header l =>
    obtain ⟨t, ht, rfl⟩ := decode_header_eq_ok.mp h
    rwa [hdrOp_wellFormed]
  | sample l => obtain ⟨b0, b1, b2, b3, -, rfl⟩ := decode_sample_eq_ok h; rfl
  | corrEof pos => cases h; rfl

/-- Settles O6: by the kind of token; four bytes are always a pair and a sample word. -/
theorem encodeInvertsDecode : Obligations.EncodeInvertsDecode := by
  refine ⟨fun par tk i h => ⟨encode_of_decode h, fun hne => wellFormed_of_decode h hne par, ?_⟩, fun b hb => ?_⟩
  · rintro sec usec len rfl
    cases h
    exact tagOk_iff
  · obtain ⟨b0, b1, b2, b3, rfl⟩ := four_bytes hb
    exact ⟨⟨_, _, decode_pair b0 b1 b2 b3⟩, _, decode_sample b0 b1 b2 b3⟩

/-- Settles O7: pairs and sample words by evaluation, headers by their length and type byte. -/
theorem writtenWordsDecode : Obligations.WrittenWordsDecode := by
  refine ⟨by decide, by decide, by decide, by decide, decode_tag _ _ _, ?_, ?_, decode_header_type rfl rfl⟩
  · rintro h rfl
    exact decode_header_ok (t := .A) rfl rfl
  · rintro h rfl
    exact decode_header_ok (t := .F) rfl rfl

end Sys2Proof.Machine
end

section
/-! How a step comes to its operation: what DEMOD makes of its chunk and of `IN`, and CORR of its input (30_encoding.md
R73; 40_demodulator.md R103, R107; 42_slicer_deinterleaver.md R133 to R135; 60_exceptions.md R193, R194, R198). -/

namespace Sys2Proof.Machine

/-! ## A step of DEMOD that reads -/

section DemodStep
variable {s u : State} {sc : List HostAct} {i : Instr}

theorem step_demod_run (hm : DemodMoves sc s) (hr : DemodReads s) (h : demodRead { s with script := sc } = .run i u) :
    step s = exec i u := by
  have hmove : demodMove none { s with script := sc } = .run i u := (demodMove_read (by exact hr) none).trans h
  rw [step_demod hm (by rw [hmove]; nofun) (by rw [hmove]; nofun), hmove, settle]

theorem step_demod_done (hm : DemodMoves sc s) (hr : DemodReads s) (h : demodRead { s with script := sc } = .done u) :
    step s = .next u := by
  have hmove : demodMove none { s with script := sc } = .done u := (demodMove_read (by exact hr) none).trans h
  rw [step_demod hm (by rw [hmove]; nofun) (by rw [hmove]; nofun), hmove, settle]

end DemodStep

/-! ## What DEMOD reads -/

section DemodRead
variable {s : State}

/-- While bytes of the chunk are left, the next four of them, or as many as there are, are the next token. -/
theorem demodRead_bytes (h : s.demod.ibuf ≠ []) : demodRead s =
    runToken (.pair (s.demod.ibuf.take 4)) { s with demod := { s.demod with ibuf := s.demod.ibuf.drop 4 } } := by
  cases hb : s.demod.ibuf with
  | nil => exact absurd hb h
  | cons b bs => simp only [demodRead, hb]

theorem demodRead_pair {bytes rest : List Byte} {i : Instr} (hb : s.demod.ibuf = bytes ++ rest) (hl : bytes.length = 4)
    (hd : decode (.pair bytes) = .ok i) : demodRead s = .run i { s with demod := { s.demod with ibuf := rest } } := by
  have hne : s.demod.ibuf ≠ [] := hb ▸ List.append_ne_nil_of_left_ne_nil (List.ne_nil_of_length_pos (by omega)) rest
  rw [demodRead_bytes hne, hb, ← hl, List.take_left, List.drop_left, runToken_ok hd]

/-- Fewer than four bytes left of a chunk are `F_SHORT_READ` (60_exceptions.md R193). -/
theorem demodRead_short (hne : s.demod.ibuf ≠ []) (hl : s.demod.ibuf.length ≤ 3) : demodRead s =
    .done (raiseFault .demod .shortRead { s with demod := { s.demod with ibuf := [] } }) := by
  rw [demodRead_bytes hne, List.take_of_length_le (by omega), List.drop_of_length_le (by omega),
    runToken_error (decode_pair_short (by omega)), takeReject]

theorem demodRead_chunk {sec usec : Nat} {bytes : List Byte} {rest : List InEvent} (hb : s.demod.ibuf = [])
    (hq : s.io.inq = .chunk sec usec bytes :: rest) : demodRead s = .run (.dChunk sec usec bytes.length)
      { s with demod := { s.demod with ibuf := bytes }, io := { s.io with inq := rest } } := by
  simp only [demodRead, hb, hq, runToken_ok (decode_tag _ _ _)]

theorem demodRead_eof {rest : List InEvent} (hb : s.demod.ibuf = []) (hq : s.io.inq = .eof :: rest) :
    demodRead s = .run .dEof { s with io := { s.io with inq := rest } } := by
  simp only [demodRead, hb, hq, runToken_ok decode_inEof]

theorem demodRead_error {rest : List InEvent} (hb : s.demod.ibuf = []) (hq : s.io.inq = .error :: rest) :
    demodRead s = .done (raiseFault .demod .read { s with io := { s.io with inq := rest } }) := by
  simp only [demodRead, hb, hq]

theorem demodRead_blocked (hb : s.demod.ibuf = []) (hq : s.io.inq = []) : demodRead s = .blocked := by
  simp only [demodRead, hb, hq]

end DemodRead

/-- Settles O1: DEMOD's read is the run of the pair's operation. -/
theorem stepRunsDecodedPair : Obligations.StepRunsDecodedPair := fun _ _ _ _ _ hm hr hb hl hd =>
  step_demod_run hm hr (demodRead_pair hb hl hd)

/-- Settles O2: one clause for each head of the queue, one for a chunk's left-over bytes. -/
theorem stepRunsDemodEvents : Obligations.StepRunsDemodEvents := by
  refine fun s sc hm hr => ⟨fun hb => ⟨fun sec usec bytes rest hq => ?_, fun rest hq => ?_, fun rest hq => ?_,
    fun hq => ?_⟩, fun h1 h3 => ?_⟩
  · exact step_demod_run hm hr (demodRead_chunk hb hq)
  · exact step_demod_run hm hr (demodRead_eof hb hq)
  · exact step_demod_done hm hr (demodRead_error hb hq)
  · have hblocked : demodMove none { s with script := sc } = .blocked :=
      (demodMove_read (by exact hr) none).trans (demodRead_blocked hb hq)
    obtain ⟨hkept, hscript, hfree⟩ := step_demod_waits (.inr ⟨rfl, hm⟩) hblocked
    exact ⟨fun t ht => (hkept t ht).1, hscript, hfree⟩
  · exact step_demod_done hm hr (demodRead_short (List.ne_nil_of_length_pos h1) h3)

/-! ## A step of CORR -/

section CorrStep
variable {s u : State} {sc : List HostAct} {i : Instr}

theorem step_corr_run (hm : CorrMoves sc s) (h : corrMove none { s with script := sc } = .run i u) :
    step s = exec i u := by
  rw [step_corr hm (by rw [h]; nofun), h, settle]

theorem step_corr_done (hm : CorrMoves sc s) (h : corrMove none { s with script := sc } = .done u) :
    step s = .next u := by
  rw [step_corr hm (by rw [h]; nofun), h, settle]

theorem step_corr_waits (hm : CorrMoves sc s) (h : corrMove none { s with script := sc } = .blocked) :
    step s = .next { s with script := sc } := by
  rw [step_corr hm (by rw [h]; nofun), h, settle]

end CorrStep

/-! ## What CORR reads -/

section CorrRead
variable {k : Nat} {mk : List Byte → Token} {onEof : State → Move} {s : State}

/-- A whole token is read: its bytes are the first `k` of what CORR has taken and what is there. -/
theorem corrRead_whole (hr : s.corr.rbuf.length ≤ k) (hk : k ≤ (s.corr.rbuf ++ corrInput s).length) :
    corrRead k mk onEof s = runToken (mk ((s.corr.rbuf ++ corrInput s).take k)) (afterRead k s.script s) := by
  have hneed : k - s.corr.rbuf.length ≤ (corrInput s).length := by rw [List.length_append] at hk; omega
  rw [List.take_append, List.take_of_length_le hr, ← afterRead_eq]
  exact if_pos hneed

section EmptyInput
variable (hr : s.corr.rbuf.length < k) (hi : corrInput s = [])
include hr hi

theorem corrRead_more (he : corrInputEnd s = .more) : corrRead k mk onEof s = .blocked := by
  simp [corrRead, hi, he, Nat.sub_ne_zero_of_lt hr]

theorem corrRead_eof (he : corrInputEnd s = .eof) : corrRead k mk onEof s = onEof s := by
  simp [corrRead, hi, he, Nat.sub_ne_zero_of_lt hr]

theorem corrRead_error (he : corrInputEnd s = .error) :
    corrRead k mk onEof s = .done (raiseFault .corr .read s) := by
  simp [corrRead, hi, he, Nat.sub_ne_zero_of_lt hr]

end EmptyInput

theorem dropInput_all (s : State) : dropInput (corrInput s).length s =
    { s with io := if s.io.alone then { s.io with cin := [] } else { s.io with ch := [] } } := by
  unfold dropInput corrInput
  cases s.io.alone <;> simp

/-- Of a token that is not all there the bytes that are there are taken (log 24). -/
theorem corrRead_partial (hk : (s.corr.rbuf ++ corrInput s).length < k) (hi : corrInput s ≠ []) :
    corrRead k mk onEof s = .done { s with
      corr := { s.corr with rbuf := s.corr.rbuf ++ corrInput s },
      io := if s.io.alone then { s.io with cin := [] } else { s.io with ch := [] } } := by
  have hneed : ¬k - s.corr.rbuf.length ≤ (corrInput s).length := by rw [List.length_append] at hk; omega
  simp [corrRead, hneed, hi, dropInput_all]

end CorrRead

theorem headerEof_boundary {s : State} (h : s.corr.rbuf = []) : headerEof s = .run (.cEof .boundary) s := by
  rw [headerEof, h]
  exact runToken_ok (decode_corrEof _)

/-- EOF inside a header is `F_HDR_LEN` (60_exceptions.md R194). -/
theorem headerEof_inside {s : State} (h1 : 1 ≤ s.corr.rbuf.length) (h36 : s.corr.rbuf.length < 36) :
    headerEof s = .done (raiseFault .corr .hdrLen s) := by
  have hne : ¬s.corr.rbuf.isEmpty = true := by simpa using List.ne_nil_of_length_pos h1
  rw [headerEof, if_neg hne, runToken_error (decode_header_length (by omega)), takeReject]

theorem sampleEof_eq (s : State) : sampleEof s = .run (.cEof .midframe) s := runToken_ok (decode_corrEof _)

/-! ## CORR's move by `CSTATE` -/

section CorrMove
variable {s : State}

theorem corrMove_hdr (hc : CorrReads .hdr s) (sc : List HostAct) :
    corrMove none { s with script := sc } = corrRead 36 .header headerEof { s with script := sc } :=
  corrMove_reads (s := { s with script := sc }) hc none

theorem corrMove_samples (hc : CorrReads .samples s) (sc : List HostAct) :
    corrMove none { s with script := sc } = corrRead 4 .sample sampleEof { s with script := sc } :=
  corrMove_reads (s := { s with script := sc }) hc none

/-- A CORR that reads stands before a header or a sample word; `P` is said of the number of bytes of that token. -/
theorem corrMove_token {P : Nat → Prop} (h : CorrReads .hdr s ∧ P 36 ∨ CorrReads .samples s ∧ P 4)
    (sc : List HostAct) : ∃ k mk onEof, P k ∧
      corrMove none { s with script := sc } = corrRead k mk onEof { s with script := sc } := by
  rcases h with ⟨hc, hp⟩ | ⟨hc, hp⟩
  · exact ⟨36, .header, headerEof, hp, corrMove_hdr hc sc⟩
  · exact ⟨4, .sample, sampleEof, hp, corrMove_samples hc sc⟩

theorem corrMove_fisb (hc : CorrReads .decode s) (ht : s.corr.htype = .F) (sc : List HostAct) :
    corrMove none { s with script := sc } = .run .cFisb { s with script := sc } := by
  rw [corrMove_reads (s := { s with script := sc }) hc none]
  simp only [ht]

theorem corrMove_adsb (hc : CorrReads .decode s) (ht : s.corr.htype = .A) (sc : List HostAct) :
    corrMove none { s with script := sc } = .run .cAdsb { s with script := sc } := by
  rw [corrMove_reads (s := { s with script := sc }) hc none]
  simp only [ht]

end CorrMove

/-! ## Tokens and events of CORR -/

/-- Settles O3: a header and a sample word are each read whole by `corrRead`. -/
theorem stepRunsDecodedCorrToken : Obligations.StepRunsDecodedCorrToken := by
  refine fun s sc i hm => ⟨fun hc hr hk hd => ?_, fun hc hr hk hd => ?_⟩
  · have hread := corrRead_whole (mk := .header) (onEof := headerEof) (s := { s with script := sc }) hr hk
    exact step_corr_run hm ((corrMove_hdr hc sc).trans (hread.trans (runToken_ok hd)))
  · have hread := corrRead_whole (mk := .sample) (onEof := sampleEof) (s := { s with script := sc }) hr hk
    exact step_corr_run hm ((corrMove_samples hc sc).trans (hread.trans (runToken_ok hd)))

/-- CORR at the end of its input (42_slicer_deinterleaver.md R133 to R135; 60_exceptions.md R194). -/
theorem step_corr_eof {s : State} {sc : List HostAct} (hm : CorrMoves sc s) (hi : corrInput s = [])
    (he : corrInputEnd s = .eof) :
    (CorrReads .hdr s → s.corr.rbuf = [] → step s = exec (.cEof .boundary) { s with script := sc }) ∧
    (CorrReads .hdr s → 1 ≤ s.corr.rbuf.length → s.corr.rbuf.length < 36 →
      step s = .next (raiseFault .corr .hdrLen { s with script := sc })) ∧
    (CorrReads .samples s → s.corr.rbuf.length < 4 → step s = exec (.cEof .midframe) { s with script := sc }) := by
  have hheader (hc : CorrReads .hdr s) (hr : s.corr.rbuf.length < 36) :
      corrMove none { s with script := sc } = headerEof { s with script := sc } :=
    (corrMove_hdr hc sc).trans (corrRead_eof hr hi he)
  have hsample (hc : CorrReads .samples s) (hr : s.corr.rbuf.length < 4) :
      corrMove none { s with script := sc } = sampleEof { s with script := sc } :=
    (corrMove_samples hc sc).trans (corrRead_eof hr hi he)
  refine ⟨fun hc hb => ?_, fun hc h1 h36 => ?_, fun hc hr => ?_⟩
  · exact step_corr_run hm ((hheader hc (by simp [hb])).trans (headerEof_boundary hb))
  · exact step_corr_done hm ((hheader hc h36).trans (headerEof_inside h1 h36))
  · exact step_corr_run hm ((hsample hc hr).trans (sampleEof_eq _))

/-- Settles O4: the ends of the input, the reads that cannot be completed, and the decode of a complete frame. -/
theorem stepRunsCorrEvents : Obligations.StepRunsCorrEvents := by
  refine fun s sc hm => ⟨step_corr_eof hm, fun ha hcin hend hr => ?_, fun hi he hr => ?_, fun hi hk => ?_,
    fun hc ht => step_corr_run hm (corrMove_fisb hc ht sc), fun hc ht => step_corr_run hm (corrMove_adsb hc ht sc)⟩
  · have hi : corrInput s = [] := (if_pos ha).trans hcin
    have he : corrInputEnd s = .error := (if_pos ha).trans hend
    obtain ⟨k, mk, onEof, hr, hmove⟩ := corrMove_token (P := (s.corr.rbuf.length < ·)) hr sc
    exact step_corr_done hm (hmove.trans (corrRead_error hr hi he))
  · obtain ⟨k, mk, onEof, hr, hmove⟩ := corrMove_token (P := (s.corr.rbuf.length < ·)) hr sc
    exact step_corr_waits hm (hmove.trans (corrRead_more hr hi he))
  · obtain ⟨k, mk, onEof, hk, hmove⟩ := corrMove_token (P := ((s.corr.rbuf ++ corrInput s).length < ·)) hk sc
    exact step_corr_done hm (hmove.trans (corrRead_partial hk hi))

end Sys2Proof.Machine
end

section
/-! DEMOD's sensing operations: the discriminator, the energy window and the gate (40_demodulator.md R99 to R101). -/

namespace Sys2Proof.Machine

/-- Settles O13, by the discriminator's exactness on every pair of registers and inputs. -/
theorem discriminatorExact : Obligations.DiscriminatorExact := by
  intro s i q live
  exact ⟨discriminate s.demod i q, exec_dDisc live i q, discriminate_toInt s.demod i q⟩

/-- A slide of the window adds the newest sample's magnitude to `SUM` and takes the oldest one's from it, exactly. -/
theorem energyStep_sum_add_oldest {d : Demod} (h : WindowInv d) {v : Sample} (hv : v.toInt.natAbs ≤ maxMagnitude) :
    (energyStep v d).sum.toNat + (windowSample d 71).toInt.natAbs = d.sum.toNat + v.toInt.natAbs := by
  obtain ⟨-, hsum'⟩ := h.energyStep hv
  obtain ⟨-, hsum⟩ := h
  rw [hsum', hsum, windowSample_oldest]
  exact windowTotal_energyStep v d

/-- Settles O14: the energy step keeps the window's invariant and moves every sample one place. -/
theorem energyWindowSlides : Obligations.EnergyWindowSlides := by
  intro s v live hwin hv
  exact ⟨_, exec_dEnergy live v, rfl, hwin.energyStep hv, energyStep_sum_add_oldest hwin hv,
    windowSample_energyStep_zero v s.demod, fun _ hd => windowSample_energyStep_succ v s.demod hd⟩

/-- The gate that a sum gives: open from 72 times the threshold plus one upwards (40_demodulator.md R101). -/
theorem gateOf_levelOf_iff (sum : Word64) (threshold : BitVec 32) :
    gateOf (levelOf sum) threshold = true ↔ 72 * (threshold.toNat + 1) ≤ sum.toNat := by
  rw [gateOf_eq_true, levelOf_toNat]
  omega

/-- Settles O15, from the two readings of a sum: its quotient by 72, and whether that exceeds the threshold. -/
theorem gateOpensAboveThreshold : Obligations.GateOpensAboveThreshold := by
  intro s live
  have hlevel := levelOf_toNat s.demod.sum
  exact ⟨levelOf s.demod.sum, gateOf (levelOf s.demod.sum) s.cfg.levelThreshold, exec_dGate live, by omega, by omega,
    gateOf_levelOf_iff _ _⟩

end Sys2Proof.Machine
end

section
/-! The per-pair step `D.IQ`: what every pair does, what a pair does inside a frame, below the threshold, and with a
candidate pending (40_demodulator.md R97 to R105; 41_sync_detector.md R113 to R121). -/

namespace Sys2Proof.Machine

/-! ## What search and capture may write -/

/-- `t` differs from `s` at most in DEMOD's search and frame registers and in what DEMOD has to hand over. -/
def WritesFrameOnly (s t : State) : Prop :=
  t = { s with
    demod := { s.demod with
      ra := t.demod.ra, rb := t.demod.rb, ctl := t.demod.ctl, ftype := t.demod.ftype, flen := t.demod.flen,
      fcnt := t.demod.fcnt, frameRev := t.demod.frameRev, fhdr := t.demod.fhdr, stamps := t.demod.stamps },
    io := { s.io with chWr := t.io.chWr } }

theorem WritesFrameOnly.trans {s t u : State} (h : WritesFrameOnly s t) (h' : WritesFrameOnly t u) :
    WritesFrameOnly s u := by
  unfold WritesFrameOnly at h
  rw [h] at h'
  exact h'

theorem WritesFrameOnly.ret_eq {s t : State} (h : WritesFrameOnly s t) : t.ret = s.ret := by
  unfold WritesFrameOnly at h
  rw [h]

theorem captureStep_writesFrameOnly (v : Sample) (s : State) : WritesFrameOnly s (captureStep v s) := by
  by_cases hf : s.demod.fcnt + 1 = s.demod.flen
  · rw [captureStep_full hf]; rfl
  · rw [captureStep_more hf]; rfl

theorem arbitrateStep_writesFrameOnly (cand : Option Cand) (v : Sample) (s : State) :
    WritesFrameOnly s (arbitrateStep cand v s) := by
  rcases arbitrateStep_cases cand v s with
    ⟨p, -, ⟨c, -, -, e⟩ | ⟨-, e⟩⟩ | ⟨-, ⟨-, e⟩ | ⟨c, -, -, e⟩ | ⟨c, -, -, e⟩⟩ <;> rw [e] <;> rfl

theorem shiftStep_writesFrameOnly (p : Phase) (v : Sample) (s : State) :
    WritesFrameOnly s { s with demod := shiftStep p v s.demod } := by
  cases p <;> rfl

/-- A pair's whole effect: what its sensing part does, the search and frame registers, and the two counters. -/
theorem iqStep_advances_sensed (i q : Half) (s : State) : ∃ w,
    WritesFrameOnly { s with demod := senseStep s.cfg i q s.demod } w ∧ iqStep i q s = advancePair w := by
  by_cases he : s.demod.ctl = .emitting
  · exact ⟨_, captureStep_writesFrameOnly _ _, iqStep_emitting he⟩
  · obtain ⟨cand, x, -, hx, e⟩ := iqStep_search_cases (i := i) (q := q) he
    have hshift := shiftStep_writesFrameOnly (phaseOf s.demod.n) (discriminate s.demod i q)
      { s with demod := senseStep s.cfg i q s.demod }
    have hprobe : WritesFrameOnly { s with demod := shiftedDemod s.cfg i q s.demod } { s with demod := x } := by
      rcases hx with ⟨-, rfl⟩ | ⟨c, -, -, -, rfl⟩ <;> rfl
    exact ⟨_, (hshift.trans hprobe).trans (arbitrateStep_writesFrameOnly _ _ _), e⟩

/-! ## A pair outside a frame is its operations, one after the other -/

/-- Outside a frame `D.IQ` is the operations before arbitration, `D.ARBITRATE`, and the two counters. -/
theorem iqStep_runs_operations {i q : Half} {s : State} (live : DemodLive s) (h : s.demod.ctl ≠ .emitting) :
    ∃ u cand w, PairProbed i q s u (discriminate s.demod i q) cand ∧
      exec (.dArbitrate cand (discriminate s.demod i q)) u = .next w ∧
      iqStep i q s =
        { w with ret := s.ret, demod := { w.demod with n := w.demod.n + 1, cidx := w.demod.cidx + 1 } } := by
  obtain ⟨cand, x, hp, hx, e⟩ := iqStep_search_cases (i := i) (q := q) h
  obtain ⟨r, hprobed⟩ := pairProbed_of_probeIfOpen live hp
  have hctl : x.ctl = s.demod.ctl := by
    rcases hx with ⟨-, rfl⟩ | ⟨c, -, -, -, rfl⟩ <;> simp [shiftedDemod, senseStep]
  have hlive : DemodLive { s with demod := x, ret := r } := (congrArg DState.live hctl).trans live
  have hret := (arbitrateStep_writesFrameOnly cand (discriminate s.demod i q) { s with demod := x }).ret_eq
  refine ⟨_, cand, _, hprobed, exec_dArbitrate hlive _ _, ?_⟩
  rw [arbitrateStep_ret cand _ r { s with demod := x }, e]
  generalize arbitrateStep cand (discriminate s.demod i q) { s with demod := x } = w at hret ⊢
  simp only at hret
  rw [← hret]
  rfl

/-- Settles O9: the fields that search and capture leave as the sensing part made them, and the operations outside a
frame. -/
theorem iqSensesAndAdvances : Obligations.IqSensesAndAdvances := by
  intro s i q live
  obtain ⟨w, hw, hadvance⟩ := iqStep_advances_sensed i q s
  obtain ⟨rec, hio, hcorr, hcfg, hpar, hscript⟩ := iqStep_frame i q s
  have hops (hc : s.demod.ctl ≠ .emitting) := iqStep_runs_operations (i := i) (q := q) live hc
  have hgate := gateOf_eq_true (senseStep s.cfg i q s.demod).level s.cfg.levelThreshold
  refine ⟨_, discriminate s.demod i q, exec_dIq live i q, exec_dDisc live i q, ?_⟩
  rw [hadvance] at hio hcorr hcfg hpar hscript hops ⊢
  unfold WritesFrameOnly at hw
  rw [hw] at hio hcorr hcfg hpar hscript hops ⊢
  exact ⟨rfl, rfl, rfl, rfl, rfl, rfl, rfl, rfl, rfl, rfl, rfl, rfl, rfl, rfl, hgate, hcorr, hcfg, hpar, rfl, hscript,
    ⟨rec, hio⟩, hops⟩

/-! ## A pair inside a frame -/

/-- Settles O10: a pair inside a frame is sensed and captured; the capture fills the frame or does not. -/
theorem iqInFrameOnlyCaptures : Obligations.IqInFrameOnlyCaptures := by
  intro s i q hc
  have live := demodLive_of_emitting hc
  refine ⟨_, discriminate s.demod i q, exec_dIq live i q, exec_dDisc live i q, ?_⟩
  rw [iqStep_emitting hc]
  by_cases hf : s.demod.fcnt + 1 = s.demod.flen
  · rw [captureStep_full (by exact hf)]
    exact ⟨rfl, rfl, rfl, rfl, rfl, rfl, fun hn => absurd hf hn, fun _ => ⟨rfl, rfl, rfl⟩⟩
  · rw [captureStep_more (by exact hf)]
    exact ⟨rfl, rfl, rfl, rfl, rfl, rfl, fun _ => ⟨hc, rfl, rfl, rfl⟩, fun h => absurd h hf⟩

/-! ## A pair at or below the threshold -/

/-- A register after a shift: bit 0 says whether the sample is strictly positive, every other bit is the one below it
(41_sync_detector.md R113). -/
theorem shiftReg_bits (r : Word64) (v : Sample) : ((shiftReg r v).getLsbD 0 = true ↔ 0 < v.toInt) ∧
    ∀ k, k < 63 → (shiftReg r v).getLsbD (k + 1) = r.getLsbD k := by
  unfold shiftReg
  refine ⟨?_, fun k hk => ?_⟩
  · cases hb : sampleBit v <;> simpa [sampleBit] using hb
  · have hlt : k + 1 < 64 := by omega
    cases sampleBit v <;> simp [hlt, -BitVec.getLsbD_eq_getElem]

/-- The gate of a pair is closed where the level it leaves does not exceed the threshold. -/
theorem shiftedDemod_gate_closed {i q : Half} {s : State}
    (h : (iqStep i q s).demod.level.toNat ≤ s.cfg.levelThreshold.toNat) :
    (shiftedDemod s.cfg i q s.demod).gate = false := by
  obtain ⟨-, -, hlevel, -⟩ := iqStep_sameSense i q s
  obtain ⟨-, -, -, hgate⟩ := shiftedDemod_sameSense s.cfg i q s.demod
  rw [hlevel] at h
  rw [hgate, ← Bool.not_eq_true, senseStep, gateStep_gate, gateOf_eq_true]
  exact Nat.not_lt.mpr h

/-- A pair outside a frame whose gate is closed: its bit is shifted in and the arbitration has no candidate. -/
theorem iqStep_gate_closed {i q : Half} {s : State} (hc : s.demod.ctl ≠ .emitting)
    (hg : (shiftedDemod s.cfg i q s.demod).gate = false) :
    iqStep i q s = advancePair (arbitrateStep none (discriminate s.demod i q)
      { s with demod := shiftedDemod s.cfg i q s.demod }) := by
  obtain ⟨cand, x, hp, -, e⟩ := iqStep_search_cases (i := i) (q := q) hc
  obtain ⟨rfl, rfl⟩ := Prod.mk.inj ((probeIfOpen_closed hg).symm.trans hp)
  exact e

theorem phaseOf_even {n : Nat} (h : n % 2 = 0) : phaseOf n = .A := if_pos h

theorem phaseOf_odd {n : Nat} (h : n % 2 = 1) : phaseOf n = .B := if_neg (by omega)

theorem shiftedDemod_even {cfg : Cfg} {i q : Half} {d : Demod} (h : d.n % 2 = 0) :
    (shiftedDemod cfg i q d).ra = shiftReg d.ra (discriminate d i q) ∧ (shiftedDemod cfg i q d).rb = d.rb := by
  rw [shiftedDemod, phaseOf_even h]
  exact ⟨rfl, rfl⟩

theorem shiftedDemod_odd {cfg : Cfg} {i q : Half} {d : Demod} (h : d.n % 2 = 1) :
    (shiftedDemod cfg i q d).rb = shiftReg d.rb (discriminate d i q) ∧ (shiftedDemod cfg i q d).ra = d.ra := by
  rw [shiftedDemod, phaseOf_odd h]
  exact ⟨rfl, rfl⟩

/-- A searching DEMOD without a candidate goes on as it is. -/
theorem arbitrateStep_search_none {s : State} (h : s.demod.ctl = .search) (v : Sample) : arbitrateStep none v s = s := by
  simp only [arbitrateStep, h, arbitrateSearch]

/-- A pending candidate without a rival is selected, and its frame begins with the present sample. -/
theorem arbitrateStep_pending_none {s : State} {p : Cand} (h : s.demod.ctl = .pending p) (v : Sample) :
    arbitrateStep none v s = { s with demod := { selectStep p s.demod with frameRev := [v], fcnt := 1 } } := by
  simp only [arbitrateStep, h, arbitratePending, captureStep_select]

/-- Settles O11: inside a frame nothing is probed; outside one, the closed gate leaves the arbitration no candidate. -/
theorem iqGateClosedNoCandidate : Obligations.IqGateClosedNoCandidate := by
  intro s t i q live ht hlevel
  cases (exec_dIq live i q).symm.trans ht
  have hg := shiftedDemod_gate_closed hlevel
  have hstamps : (shiftedDemod s.cfg i q s.demod).stamps = s.demod.stamps := by simp [shiftedDemod, senseStep]
  have hctl : (shiftedDemod s.cfg i q s.demod).ctl = s.demod.ctl := by simp [shiftedDemod, senseStep]
  refine ⟨discriminate s.demod i q, exec_dDisc live i q, ?_⟩
  rcases demodLive_cases live with hc | ⟨p, hc⟩ | hc
  · rw [iqStep_gate_closed (by rw [hc]; nofun) hg, arbitrateStep_search_none (by exact hctl.trans hc)]
    refine ⟨hstamps, fun _ => ⟨hctl.trans hc, rfl, fun heven => ?_, fun hodd => ?_⟩, fun p hp => ?_⟩
    · obtain ⟨hra, hrb⟩ := shiftedDemod_even (cfg := s.cfg) (i := i) (q := q) heven
      exact ⟨hrb, hra ▸ shiftReg_bits _ _⟩
    · obtain ⟨hrb, hra⟩ := shiftedDemod_odd (cfg := s.cfg) (i := i) (q := q) hodd
      exact ⟨hra, hrb ▸ shiftReg_bits _ _⟩
    · exact absurd (hc.symm.trans hp) nofun
  · rw [iqStep_gate_closed (by rw [hc]; nofun) hg, arbitrateStep_pending_none (by exact hctl.trans hc)]
    refine ⟨hstamps, fun hs => absurd (hc.symm.trans hs) nofun, fun p' hp => ?_⟩
    obtain rfl := DState.pending.inj (hc.symm.trans hp)
    exact ⟨rfl, rfl⟩
  · rw [iqStep_emitting hc]
    refine ⟨?_, fun hs => absurd (hc.symm.trans hs) nofun, fun p hp => absurd (hc.symm.trans hp) nofun⟩
    by_cases hf : s.demod.fcnt + 1 = s.demod.flen
    · rw [captureStep_full (by exact hf)]; rfl
    · rw [captureStep_more (by exact hf)]; rfl

/-! ## A pair with a candidate pending -/

theorem better_iff (c p : Cand) :
    better c p = true ↔ c.err < p.err ∨ (c.err = p.err ∧ p.corr.toInt < c.corr.toInt) := by
  simp [better]

theorem frameLen_eq (t : PType) : frameLen t = (match t with | .F => 8835 | .A => 771) := by
  cases t <;> rfl

/-- Settles O12: with a candidate pending the arbitration selects the better rival, or the candidate. -/
theorem iqPendingSelectsWinner : Obligations.IqPendingSelectsWinner := by
  intro s p i q hc
  have live := demodLive_of_pending hc
  obtain ⟨cand, x, hp, hx, e⟩ := iqStep_search_cases (i := i) (q := q) (s := s) (by rw [hc]; nofun)
  obtain ⟨r, hprobed⟩ := pairProbed_of_probeIfOpen live hp
  have hctl : x.ctl = .pending p := by
    rcases hx with ⟨-, rfl⟩ | ⟨c, -, -, -, rfl⟩ <;> simp [shiftedDemod, senseStep, hc]
  refine ⟨_, _, _, cand, exec_dIq live i q, hprobed, ?_⟩
  rw [e]
  rcases arbitrateStep_cases cand (discriminate s.demod i q) { s with demod := x } with
    ⟨p', hp', hwin⟩ | ⟨hn, -⟩
  · obtain rfl := DState.pending.inj (hctl.symm.trans hp')
    rcases hwin with ⟨c, rfl, hb, ew⟩ | ⟨hb, ew⟩
    · rw [ew]
      refine ⟨rfl, rfl, rfl, frameLen_eq _, rfl, fun c' hc' _ => ?_, fun hnone => ?_⟩
      · cases hc'; exact ⟨rfl, rfl, rfl, rfl⟩
      · exact absurd ((better_iff _ _).mp hb) (hnone c rfl)
    · rw [ew]
      refine ⟨rfl, rfl, rfl, frameLen_eq _, rfl, fun c' hc' hbetter => ?_, fun _ => ⟨rfl, rfl, rfl, rfl⟩⟩
      exact absurd ((hb c' hc').symm.trans ((better_iff _ _).mpr hbetter)) nofun
  · exact absurd hctl (hn p)

end Sys2Proof.Machine
end

section
/-! The sync detector's operations on one phase: the sync words and distances, `D.SHIFT`, `D.PROBE`, `D.CORRELATE`
(41_sync_detector.md R111 to R115; 70_reset_and_hazards.md R223). -/

namespace Sys2Proof.Machine

/-! ## The sync distance of a register not yet full -/

/-- The 1 bits of a sync word that a register has not been shifted up to all count into the distance. -/
theorem syncWord_high_bits_le_syncDistance (t : PType) {k : Nat} {r : Word64} (h : BitsSinceClear k r) :
    ((List.range 36).filter fun i => decide (k ≤ i) && (syncWord t).getLsbD i).length ≤ syncDistance t r := by
  rw [syncDistance_eq]
  refine (List.monotone_filter_right _ fun i hi => ?_).length_le
  simp only [Bool.and_eq_true, decide_eq_true_eq] at hi
  obtain ⟨hk, hbit⟩ := hi
  rw [h i hk, hbit]
  rfl

/-- Settles O18: the words by evaluation, the distances by their count of bits; above the last bit shifted in each sync
word has five 1 bits. -/
theorem syncDistances : Obligations.SyncDistances := by
  refine ⟨rfl, rfl, by decide, fun r => ⟨syncDistance_add r, fun ty => syncDistance_eq ty r, fun h => ?_, fun h => ?_⟩⟩
  · exact Nat.lt_of_lt_of_le (by decide) (syncWord_high_bits_le_syncDistance .F h)
  · exact Nat.lt_of_lt_of_le (by decide) (syncWord_high_bits_le_syncDistance .A h)

/-! ## Shift and probe -/

/-- Settles O16, by what a shift makes of a register's bits. -/
theorem shiftMovesBits : Obligations.ShiftMovesBits := by
  intro s p v live
  refine ⟨shiftReg (phaseReg p s.demod) v, ?_, shiftReg_bits _ _⟩
  rw [exec_dShift live]
  cases p <;> rfl

theorem probe_match {cfg : Cfg} {p : Phase} {d : Demod} {t : PType} (h : matchType cfg (phaseReg p d) = some t) :
    probe cfg p d = (some (candidateOf cfg p t d), countStamp d) := by
  simp only [probe, h]

theorem probe_no_match {cfg : Cfg} {p : Phase} {d : Demod} (h : matchType cfg (phaseReg p d) = none) :
    probe cfg p d = (none, d) := by
  simp only [probe, h]

/-- Settles O17: the register matches an enabled type within distance 4, which is the only one, or no type. -/
theorem probeFindsMatch : Obligations.ProbeFindsMatch := by
  intro s p live
  rw [exec_dProbe live]
  refine ⟨fun ty hen hdist => ?_, fun hfar => ?_⟩
  · rw [probe_match (matchType_eq_some.mpr ⟨hen, hdist⟩)]
    rfl
  · rw [probe_no_match (matchType_eq_none.mpr hfar)]

/-! ## Correlation -/

/-- The signed sample that bit `k` of the sync word contributes to a correlation (41_sync_detector.md R115). -/
def corrTerm (t : PType) (d : Demod) (k : Nat) : Int :=
  if (syncWord t).getLsbD k then (windowSample d (2 * k)).toInt else -(windowSample d (2 * k)).toInt

theorem correlate_eq_corrTerms (t : PType) (d : Demod) :
    correlate t d = BitVec.ofInt 64 ((List.range 36).map (corrTerm t d)).sum := rfl

theorem corrTerm_natAbs_le (t : PType) (d : Demod) (k : Nat) : (corrTerm t d k).natAbs ≤ 2147483648 := by
  have := sample_bounds (windowSample d (2 * k))
  unfold corrTerm
  split <;> omega

theorem sum_map_natAbs_le {α : Type} (f : α → Int) (b : Nat) (l : List α) (h : ∀ a, (f a).natAbs ≤ b) :
    (l.map f).sum.natAbs ≤ l.length * b := by
  induction l with
  | nil => simp
  | cons a l ih =>
    have hhead := h a
    simp only [List.map_cons, List.sum_cons, List.length_cons, Nat.succ_mul]
    omega

/-- The correlation is exact: 36 samples of at most 2^31 in magnitude fit int64. -/
theorem correlate_toInt (t : PType) (d : Demod) :
    (correlate t d).toInt = ((List.range 36).map (corrTerm t d)).sum := by
  have hsum := sum_map_natAbs_le (corrTerm t d) _ (List.range 36) (corrTerm_natAbs_le t d)
  rw [List.length_range] at hsum
  rw [correlate_eq_corrTerms, BitVec.toInt_ofInt, Int.bmod_eq_of_le] <;> omega

/-- Settles O19, by the exactness of the correlation. -/
theorem correlationExact : Obligations.CorrelationExact := by
  intro s ty live _
  exact ⟨correlate ty s.demod, exec_dCorrelate live ty, correlate_toInt ty s.demod⟩

end Sys2Proof.Machine
end

section
/-! Arbitration and frame capture: `D.ARBITRATE`, `D.SELECT`, `D.CAPTURE`, `D.EMIT` (41_sync_detector.md R117 to R121;
20_memory.md R59). -/

namespace Sys2Proof.Machine

/-! ## Arbitration -/

/-- A searching DEMOD selects its candidate at once under `FIRST`. -/
theorem arbitrateStep_search_first {s : State} (h : s.demod.ctl = .search) (hp : s.cfg.phaseSelect = .first) (c : Cand)
    (v : Sample) : arbitrateStep (some c) v s = { s with demod := selectStep c s.demod } := by
  simp only [arbitrateStep, h, arbitrateSearch, hp]

/-- A searching DEMOD holds its candidate under `BEST`. -/
theorem arbitrateStep_search_best {s : State} (h : s.demod.ctl = .search) (hp : s.cfg.phaseSelect = .best) (c : Cand)
    (v : Sample) : arbitrateStep (some c) v s = { s with demod := { s.demod with ctl := .pending c } } := by
  simp only [arbitrateStep, h, arbitrateSearch, hp]

/-- A better rival is selected instead of the pending candidate. -/
theorem arbitrateStep_pending_better {s : State} {p c : Cand} (h : s.demod.ctl = .pending p) (hb : better c p = true)
    (v : Sample) : arbitrateStep (some c) v s = { s with demod := selectStep c s.demod } := by
  simp only [arbitrateStep, h, arbitratePending, hb, if_true]

/-- A rival that is not better is dropped. -/
theorem arbitrateStep_pending_not_better {s : State} {p c : Cand} (h : s.demod.ctl = .pending p) (hb : better c p = false)
    (v : Sample) : arbitrateStep (some c) v s = arbitrateStep none v s := by
  simp only [arbitrateStep, h, arbitratePending, hb, Bool.false_eq_true, if_false]

/-- Settles O20: by the control state, then by the arbitration rule or by the comparison of the two candidates. -/
theorem arbitrationChoosesWinner : Obligations.ArbitrationChoosesWinner := by
  intro s v
  refine ⟨fun hc => ?_, fun p hc => ?_⟩
  · have live := demodLive_of_search hc
    simp only [exec_dArbitrate live, exec_dSelect live]
    exact ⟨congrArg _ (arbitrateStep_search_none hc v), fun c =>
      ⟨fun hp => congrArg _ (arbitrateStep_search_first hc hp c v),
       fun hp => congrArg _ (arbitrateStep_search_best hc hp c v)⟩⟩
  · have live := demodLive_of_pending hc
    simp only [exec_dArbitrate live, exec_dSelect live]
    have hselected : DemodLive { s with demod := selectStep p s.demod } := demodLive_of_emitting (selectStep_ctl _ _)
    have hnone : arbitrateStep none v s = captureStep v { s with demod := selectStep p s.demod } :=
      (arbitrateStep_pending_none hc v).trans (captureStep_select v p s).symm
    refine ⟨_, _, rfl, exec_dCapture hselected v, congrArg _ hnone, fun c => ⟨fun hb => ?_, fun hb => ?_⟩⟩
    · exact congrArg _ (arbitrateStep_pending_better hc ((better_iff c p).mpr hb) v)
    · have hb' : better c p = false := Bool.eq_false_iff.mpr (mt (better_iff c p).mp hb)
      exact congrArg _ ((arbitrateStep_pending_not_better hc hb' v).trans hnone)

/-! ## Frames -/

/-- Settles O21, by the header of `D.HEADER` and the two frame lengths. -/
theorem selectStartsFrame : Obligations.SelectStartsFrame := by
  intro s c live
  have hlen : frameLen c.type = if c.type = .F then 8835 else 771 := by cases c.type <;> rfl
  refine ⟨headerBytes c, exec_dHeader live c, ?_⟩
  rw [← hlen]
  exact exec_dSelect live c

/-- Settles O22: the sample does not fill the frame, or fills it. -/
theorem captureAppendsOrEmits : Obligations.CaptureAppendsOrEmits := by
  intro s v live
  rw [exec_dCapture live]
  exact ⟨fun hmore => congrArg _ (captureStep_more hmore), fun hfull => congrArg _ (captureStep_full hfull)⟩

theorem frameRecord_length (d : Demod) : (frameRecord d).length = d.fhdr.length + 4 * d.frameRev.length := by
  simp [frameRecord]

/-- Byte `b` of sample `j` of a record, the samples counted in the order they were captured. -/
theorem frameRecord_sample_byte (d : Demod) {j b : Nat} (hj : j < d.frameRev.length) (hb : b < 4) :
    (frameRecord d).getD (d.fhdr.length + 4 * j + b) 0 = (d.frameRev.reverse.getD j 0).extractLsb' (8 * b) 8 := by
  rw [frameRecord, List.getD_append_right _ _ _ _ (by omega), Nat.add_assoc, Nat.add_sub_cancel_left]
  exact samplesBytes_getD _ (by simpa using hj) hb

/-- Settles O23: the record is the header, then the bytes of each sample. -/
theorem emitWritesRecord : Obligations.EmitWritesRecord := by
  intro s live
  have hlen := frameRecord_length s.demod
  refine ⟨frameRecord s.demod, exec_dEmit live, hlen, fun hhdr hframe => ?_, List.take_left, fun _ _ hj hb =>
    frameRecord_sample_byte s.demod hj hb⟩
  rw [hlen, hhdr, hframe]
  cases s.demod.ftype <;> rfl

end Sys2Proof.Machine
end

section
/-! The time base and the header: `D.CHUNK`, `D.EOF`, `D.STAMP`, and `D.HEADER` as `C.HDR` reads it (41_sync_detector.md
R123 to R126; 40_demodulator.md R107; 42_slicer_deinterleaver.md R133). -/

namespace Sys2Proof.Machine

/-- Settles O8, by what the two operations write. -/
theorem chunkLatchesAndEofEnds : Obligations.ChunkLatchesAndEofEnds := by
  intro s sec usec len live
  exact ⟨exec_dChunk live sec usec len, exec_dEof live⟩

/-! ## Stamps -/

/-- The offset of a stamp is the floor of (CIDX − 72)·0.48 (41_sync_detector.md R124). -/
theorem stampMicros_of_floor {csec cusec cidx : Nat} {off : Int} (hle : 100 * off ≤ ((cidx : Int) - 72) * 48)
    (hlt : ((cidx : Int) - 72) * 48 < 100 * off + 100) :
    stampMicros csec cusec cidx = (csec : Int) * 1000000 + cusec + off := by
  unfold stampMicros
  omega

theorem stampStated_iff (d : Demod) : stampStated d = true ↔
    (d.csec < 10000000000 ∧ d.cusec < 1000000) ∧
      0 ≤ stampMicros d.csec d.cusec d.cidx ∧ stampMicros d.csec d.cusec d.cidx < 10000000000000000 := by
  simp [stampStated, timeInRange, and_assoc]

/-- Outside replay mode the formula gives the stamp wherever it is stated. -/
theorem stampOf_stated {cfg : Cfg} {d : Demod} (hreplay : cfg.replayMode = false) (h : stampStated d = true) :
    stampOf cfg d = splitMicros (stampMicros d.csec d.cusec d.cidx) := by
  simp [stampOf, hreplay, h]

/-- Seconds and microseconds of a time that is not negative are the whole of it. -/
theorem splitMicros_recombine {total : Int} (h : 0 ≤ total) :
    ((splitMicros total).1 : Int) * 1000000 + (splitMicros total).2 = total ∧ (splitMicros total).2 < 1000000 := by
  simp only [splitMicros]
  omega

/-- Settles O24: the formula is stated there, and its split loses nothing. -/
theorem stampIsRefillPlusOffset : Obligations.StampIsRefillPlusOffset := by
  intro s off live hreplay hsec husec hle hlt hneg hmax
  have htotal := stampMicros_of_floor (csec := s.demod.csec) (cusec := s.demod.cusec) hle hlt
  have hstated : stampStated s.demod = true :=
    (stampStated_iff s.demod).mpr ⟨⟨hsec, by omega⟩, htotal ▸ hneg, htotal ▸ hmax⟩
  have hstamp := stampOf_stated hreplay hstated
  rw [htotal] at hstamp
  refine ⟨_, _, exec_dStamp live, ?_⟩
  rw [hstamp]
  exact splitMicros_recombine hneg

/-- Settles O25, by the range of every stamp. -/
theorem stampStaysInRange : Obligations.StampStaysInRange := by
  intro s live
  exact ⟨_, _, exec_dStamp live, stampOf_range s.cfg s.demod⟩

/-! ## The header between the agents -/

/-- `C.HDR` takes in a header that passes its checks (42_slicer_deinterleaver.md R133). -/
theorem headerStep_good {t : PType} {h : List Byte} (hg : GoodHeader t h) (s : State) :
    headerStep h s = { s with corr := acceptHeader t h s.corr } := by
  obtain ⟨hlen, htype, hform⟩ := hg
  have hbyte : typeOfByte (h.getD 18 0) = some t := by
    rw [List.getD_eq_getElem?_getD, htype]
    exact typeOfByte_eq_some.mpr rfl
  rw [headerStep, if_neg (not_not.mpr hlen), hbyte]
  exact if_pos hform

/-- Settles O26: the header of a candidate in its ranges is a good one, and its fields read back the candidate's. -/
theorem corrAcceptsDemodHeader : Obligations.CorrAcceptsDemodHeader := by
  intro d s c dlive clive hok
  obtain ⟨hgood, hsec, husec, hlevel, herr, -⟩ := headerBytes_good c hok
  refine ⟨headerBytes c, exec_dHeader dlive c, hgood, ?_⟩
  rw [exec_hdrOp clive, headerStep_good hgood, acceptHeader, hsec, husec, hlevel, herr]

end Sys2Proof.Machine
end

section
/-! CORR's intake, slicer and deinterleaver: `C.HDR`, `C.SMP` and `C.EOF`, the taps of a full frame and what `C.SLICE`,
`C.MIX` and `C.VARIANT` read from them, packing and deinterleaving (42_slicer_deinterleaver.md R133 to R141). -/

namespace Sys2Proof.Machine

/-! ## Taps of a full frame -/

/-- The last tap of the later window is still inside the frame. -/
theorem tap_lt_frameLen (w : Window) (t : PType) {k : Nat} (hk : k < payloadBits t) :
    2 * k + 2 + windowOffset w < frameLen t := by
  cases t <;> cases w <;> simp only [payloadBits, frameLen, windowOffset] at hk ⊢ <;> omega

/-- On a full frame every tap is three samples received: no position falls outside (42_slicer_deinterleaver.md R136). -/
theorem windowTaps_full_frame (w : Window) {t : PType} {cb : List Sample} (hlen : cb.length = frameLen t) {k : Nat}
    (hk : k < payloadBits t) : ∃ tap, (windowTaps w t cb)[k]? = some tap ∧
      cb[2 * k + windowOffset w]? = some tap.bef ∧ cb[2 * k + 1 + windowOffset w]? = some tap.cur ∧
      cb[2 * k + 2 + windowOffset w]? = some tap.aft := by
  have hlast := tap_lt_frameLen w t hk
  have hread (p : Nat) (hp : p < cb.length) : cb[p]? = some (cb.getD p 0) := by
    rw [List.getD_eq_getElem _ _ hp, List.getElem?_eq_getElem hp]
  exact ⟨_, windowTaps_getElem? w t cb hk, hread _ (by omega), hread _ (by omega), hread _ (by omega)⟩

theorem length_cbufOf {c : Corr} {n : Nat} (h : c.cbufRev.length = n) : (cbufOf c).length = n := by
  rw [cbufOf, List.length_reverse, h]

/-! ## Variants -/

/-- Under an index above 0 a bit is mixed by the schedule entry before it in counting from 0 (43_rs_decoder.md R151). -/
theorem scheduleEntry_of_pos {par : Params} {j : Nat} (hj : 1 ≤ j) : scheduleEntry par j = par.schedule[j - 1]? := by
  obtain ⟨i, rfl⟩ := Nat.exists_eq_add_of_le' hj
  rfl

/-- The neighbour of a tap's current sample that a schedule entry mixes in (42_slicer_deinterleaver.md R138). -/
def Tap.neighbour (d : Dir) (t : Tap) : Sample :=
  match d with
  | .before => t.bef
  | .after => t.aft

theorem tapBit_entry (e : ShiftEntry) (t : Tap) : tapBit (some e) t = mixBit t.cur (t.neighbour e.dir) e.pct := by
  obtain ⟨dir, pct⟩ := e
  cases dir <;> rfl

theorem variantBits_getElem? {par : Params} {w : Window} {j : Nat} {t : PType} {cb : List Sample} {k : Nat} {tap : Tap}
    (h : (windowTaps w t cb)[k]? = some tap) :
    (variantBits par w j t cb)[k]? = some (tapBit (scheduleEntry par j) tap) := by
  rw [variantBits, List.getElem?_map, h]
  rfl

/-- Settles O32: on a full frame the three samples the statement names are the bit's tap; index 0 slices it, index
`j + 1` mixes it by entry `j`, and an index above `N` is refused. -/
theorem variantMixesEveryBit : Obligations.VariantMixesEveryBit := by
  intro s w j ty
  refine ⟨fun live hlen hj => ?_, exec_cVariant_refused w j ty⟩
  refine ⟨_, exec_cVariant live w j ty hj, variantBits_length .., fun k c b a hk hc hb ha => ?_⟩
  obtain ⟨⟨bef, cur, aft⟩, htap, hbef, hcur, haft⟩ := windowTaps_full_frame w (length_cbufOf hlen) hk
  obtain rfl : cur = c := Option.some.inj (hcur.symm.trans hc)
  obtain rfl : bef = b := Option.some.inj (hbef.symm.trans hb)
  obtain rfl : aft = a := Option.some.inj (haft.symm.trans ha)
  rw [variantBits_getElem? htap]
  refine ⟨?_, fun e hpos he => ?_⟩
  · rintro rfl
    rfl
  · rw [scheduleEntry_of_pos hpos, he, tapBit_entry]
    rcases e with ⟨_ | _, pct⟩ <;> rfl

/-! ## Slices and mixes -/

/-- Settles O30, from the taps of a full frame. -/
theorem sliceSequences : Obligations.SliceSequences := by
  intro s w ty live hlen
  refine ⟨_, _, _, _, exec_cSlice live w ty, by simp, by simp, by simp, by simp, fun k hk => ?_⟩
  obtain ⟨tap, htap, hbef, hcur, haft⟩ := windowTaps_full_frame w (length_cbufOf hlen) hk
  simp only [List.getElem?_map, htap]
  refine ⟨hbef.symm, hcur.symm, haft.symm, fun v hv => ?_⟩
  obtain rfl : tap.cur = v := Option.some.inj (hcur.symm.trans hv)
  rfl

/-- Settles O31: the model's mix is the sign of the exact integer. -/
theorem mixIsExactSign : Obligations.MixIsExactSign := by
  intro s c m pct live
  exact exec_cMix live c m pct

/-! ## Packing and deinterleaving -/

/-- Settles O33, by the place of each bit in the packed bytes. -/
theorem packFirstBitHighest : Obligations.PackFirstBitHighest := by
  intro s bits k live hlen
  exact ⟨_, exec_cPack live bits, packBits_length hlen, fun _ _ hj hb => packBits_getLsbD hlen hj hb⟩

theorem deinterleave_getD (y : List Byte) {i : Nat} (hi : i < 6) : (deinterleave y).getD i [] = blockOf ⟨i, hi⟩ y := by
  simp [deinterleave, List.getD_eq_getElem?_getD, hi]

/-- The long codeword candidate of a whole payload is all of it (42_slicer_deinterleaver.md R141). -/
theorem codewords_payload {z : List Byte} (h : z.length = 48) : codewords z = (z, z.take 30) := by
  rw [codewords, List.take_of_length_le (by omega)]

/-- Settles O34, by the place of each byte in its block and the length of the payload. -/
theorem deinterleaveAndCodewords : Obligations.DeinterleaveAndCodewords := by
  intro s y live
  refine ⟨fun hlen => ⟨_, exec_cDeint live y, by simp [deinterleave], fun i hi => ?_⟩, fun hlen => ?_⟩
  · rw [deinterleave_getD y hi]
    exact ⟨blockOf_length _ y 92 hlen, fun t _ => blockOf_getD _ y t 0⟩
  · rw [exec_cAbytes live, codewords_payload hlen]

/-! ## Intake -/

/-- Settles O27: a header that passes its checks is accepted, with the frame length of its type. -/
theorem headerIsStored : Obligations.HeaderIsStored := by
  intro s ty h live hgood
  rw [exec_hdrOp live, headerStep_good hgood]
  cases ty <;> rfl

/-- Settles O29, by what the two operations write. -/
theorem sampleStoredAndEofEnds : Obligations.SampleStoredAndEofEnds := by
  intro s live
  obtain ⟨hboundary, hmidframe⟩ := exec_cEof live
  exact ⟨exec_cSmp live, hboundary, hmidframe⟩

end Sys2Proof.Machine
end

section
/-! Decoding a block: what one Reed–Solomon attempt answers, the order of the search, and the strategies of `C.BLOCK`
tried in turn, with the shortcut after block 0 (43_rs_decoder.md R147 to R161). -/

namespace Sys2Proof.Machine

/-! ## One attempt -/

/-- Settles O35: an answer is checked to be a codeword, and its distance is the number of wrong bytes. -/
theorem attemptIsSound : Obligations.AttemptIsSound := by
  intro s code y live
  refine ⟨_, exec_cRs live code y, fun d e hr => ?_⟩
  obtain ⟨c, hdecoded, hdata⟩ := rsAttempt_sound hr
  obtain ⟨hcode, hc, hy, herr, hle⟩ := rsDecode_sound hdecoded
  exact ⟨c, hcode, hc, hy, hdata, herr.trans (byteDistance_eq_wrongBytes c y _ hc hy), hle⟩

theorem rsAttempt_zeros (par : Params) (code : Code) :
    rsAttempt par code (List.replicate (codeN code) 0) = some (List.replicate (codeK code) 0, 0) := by
  have hzeros : isCodeword (codeParams par code) code (List.replicate (codeN code) 0) = true := isCodeword_zeros _ code
  rw [rsAttempt_codeword hzeros, List.take_replicate, Nat.min_eq_left (codeK_le_codeN code)]

/-- Settles O36: the attempt takes a codeword as it is, and the zero word is one. -/
theorem codewordDecodesToItself : Obligations.CodewordDecodesToItself := by
  refine ⟨fun s code y live hy => ?_, fun s code live => ?_⟩
  · rw [exec_cRs live, rsAttempt_codeword hy]
  · rw [exec_cRs live, rsAttempt_zeros]

/-! ## The order of the search -/

theorem searchOrder_hint {n h : Nat} (hh : 1 ≤ h) :
    searchOrder n h = 0 :: h :: ((List.range n).map (· + 1)).filter (· != h) := by
  rw [searchOrder, if_pos hh]
  rfl

/-- The indices that follow 0 and the hint are in ascending order (43_rs_decoder.md R152). -/
theorem rest_pairwise_lt (n h : Nat) : (((List.range n).map (· + 1)).filter (· != h)).Pairwise (· < ·) :=
  (List.pairwise_map.mpr (List.pairwise_lt_range.imp Nat.succ_lt_succ)).filter _

theorem searchOrder_nodup (n h : Nat) : (searchOrder n h).Nodup := by
  by_cases hh : 1 ≤ h
  · have hrest : (((List.range n).map (· + 1)).filter (· != h)).Nodup := (rest_pairwise_lt n h).imp Nat.ne_of_lt
    have hzero : 0 ≠ h := by omega
    simp [searchOrder_hint hh, hrest, hzero]
  · obtain rfl : h = 0 := by omega
    rw [searchOrder_zero]
    exact List.nodup_range

theorem searchOrder_perm_range {n h : Nat} (hh : h ≤ n) : (searchOrder n h).Perm (List.range (n + 1)) := by
  rw [List.perm_ext_iff_of_nodup (searchOrder_nodup n h) List.nodup_range]
  intro j
  rw [mem_searchOrder hh, List.mem_range, Nat.lt_succ_iff]

/-! ## The search -/

section Search

variable {par : Params} {i : Fin 6} {w : Window} {h : Nat} {cb : List Sample}

/-- `C.SEARCH` finds an index iff its attempt succeeds and all those before it in the order fail. -/
theorem searchBlock_eq_some_iff {j : Nat} {d : List Byte} {e : Nat} : searchBlock par i w h cb = some (j, d, e) ↔
    ∃ pre post, searchOrder par.schedule.length h = pre ++ j :: post ∧
      rsAttempt par .uplink (variantBlock par i w j cb) = some (d, e) ∧
      ∀ j', j' ∈ pre → rsAttempt par .uplink (variantBlock par i w j' cb) = none := by
  simp only [searchBlock, findSome?_eq_some_iff_split, searchAttempt_eq_some, searchAttempt_eq_none]
  constructor
  · rintro ⟨pre, _, post, horder, ⟨rfl, hfound⟩, hbefore⟩
    exact ⟨pre, post, horder, hfound, hbefore⟩
  · rintro ⟨pre, post, horder, hfound, hbefore⟩
    exact ⟨pre, j, post, horder, ⟨rfl, hfound⟩, hbefore⟩

/-- `C.SEARCH` fails iff the attempt of every index fails. -/
theorem searchBlock_eq_none_iff (hh : h ≤ par.schedule.length) : searchBlock par i w h cb = none ↔
    ∀ j, j ≤ par.schedule.length → rsAttempt par .uplink (variantBlock par i w j cb) = none := by
  simp only [searchBlock, List.findSome?_eq_none_iff, searchAttempt_eq_none, mem_searchOrder hh]

end Search

/-- Settles O37: the order's three parts, and the first success in it. -/
theorem searchTakesFirstSuccess : Obligations.SearchTakesFirstSuccess := by
  refine ⟨fun n h hh => ⟨searchOrder_perm_range hh, rfl, fun hpos => ?_, fun hzero => ?_⟩,
    fun s i w h => ⟨fun live hh => ?_, exec_cSearch_refused i w h⟩⟩
  · rw [searchOrder_hint hpos]
    exact ⟨rfl, rest_pairwise_lt n h⟩
  · rw [hzero, searchOrder_zero]
  · exact ⟨_, exec_cSearch live i w h hh, fun j d e => searchBlock_eq_some_iff, searchBlock_eq_none_iff hh⟩

/-! ## The steps of `C.BLOCK` -/

section Block

variable {cfg : Cfg} {par : Params} {i : Fin 6} {h : Nat} {cb : List Sample}

theorem blockDecode_nominal {j : Nat} {d : List Byte} {e : Nat} (h0 : searchBlock par i .nominal h cb = some (j, d, e)) :
    blockDecode cfg par i h cb = some (d, e, j) := by
  rw [blockDecode, h0]

theorem blockDecode_later {j : Nat} {d : List Byte} {e : Nat} (h0 : searchBlock par i .nominal h cb = none)
    (h1 : searchBlock par i .later h cb = some (j, d, e)) : blockDecode cfg par i h cb = some (d, e, h) := by
  simp only [blockDecode, h0, h1]

/-- Where neither window's search finds anything the repairs are tried, one after the other. -/
theorem blockDecode_repairs (h0 : searchBlock par i .nominal h cb = none) (h1 : searchBlock par i .later h cb = none) :
    blockDecode cfg par i h cb = (blockStep5 cfg par i h cb).or (blockStep6 cfg par i h cb) := by
  simp only [blockDecode, h0, h1]
  cases blockStep5 cfg par i h cb <;> rfl

theorem blockStep5_repaired {d : List Byte} {e : Nat} (hon : cfg.tzRepairEn = true) (h5 : tzRepair par i cb = some (d, e)) :
    blockStep5 cfg par i h cb = some (d, e, h) := by
  rw [blockStep5, if_pos hon, h5, keepHint]

theorem blockStep5_none (h5 : cfg.tzRepairEn = false ∨ tzRepair par i cb = none) : blockStep5 cfg par i h cb = none := by
  rcases h5 with hoff | h5
  · rw [blockStep5, hoff, if_neg Bool.false_ne_true]
  · rw [blockStep5, h5, keepHint, ite_self]

theorem blockStep6_repaired {d : List Byte} {e : Nat} (hi : i = 0) (hon : cfg.fixedBitsEn = true)
    (h6 : fixedRepair cfg par cb = some (d, e)) : blockStep6 cfg par i h cb = some (d, e, h) := by
  rw [blockStep6, if_pos ⟨hi, hon⟩, h6, keepHint]

theorem blockStep6_none (h6 : i ≠ 0 ∨ cfg.fixedBitsEn = false ∨ fixedRepair cfg par cb = none) :
    blockStep6 cfg par i h cb = none := by
  rcases h6 with hi | hoff | h6
  · exact if_neg fun hc => hi hc.1
  · exact if_neg fun hc => Bool.false_ne_true (hoff.symm.trans hc.2)
  · rw [blockStep6, h6, keepHint, ite_self]

end Block

/-- Settles O38: the answer of each step is that of its operation, and `C.BLOCK` takes the first there is. -/
theorem blockStrategy : Obligations.BlockStrategy := by
  intro s i h
  refine ⟨exec_cBlock_refused i h, fun live hh => ?_⟩
  refine ⟨_, _, _, _, exec_cSearch live i .nominal h hh, exec_cSearch live i .later h hh, exec_cTz live i,
    exec_cFixed live, ?_⟩
  rw [exec_cBlock live i h hh]
  refine ⟨fun j d e h0 => ?_, fun j d e h0 h1 => ?_, fun d e h0 h1 hon h5 => ?_,
    fun h0 h1 h5 => ⟨fun d e hi hon h6 => ?_, fun h6 => ?_⟩⟩
  · rw [blockDecode_nominal h0]
  · rw [blockDecode_later h0 h1]
  · rw [blockDecode_repairs h0 h1, blockStep5_repaired hon h5, Option.some_or]
  · rw [blockDecode_repairs h0 h1, blockStep5_none h5, blockStep6_repaired hi hon h6, Option.none_or]
  · rw [blockDecode_repairs h0 h1, blockStep5_none h5, blockStep6_none h6, Option.none_or]

/-! ## The shortcut -/

theorem shortcutTaken_iff {par : Params} {c : Corr} : shortcutTaken par c = true ↔ block0End par c.data[0] = .ends :=
  beq_iff_eq

/-- Settles O39: the shortcut is taken iff block 0 ends the message, and then skips blocks 1..5. -/
theorem shortcutMarksBlocks : Obligations.ShortcutMarksBlocks := by
  intro s live
  rw [exec_cShortcut live, Ne, ← shortcutTaken_iff]
  refine ⟨fun htaken => ?_, fun hnot => ?_⟩
  · rw [if_pos htaken]
    exact ⟨_, rfl, rfl, rfl, rfl, fun j hj => skipBlocks_rest s.corr hj⟩
  · rw [if_neg hnot]

end Sys2Proof.Machine
end

section
/-! The two repairs of a block: trailing-zero repair, which forces the longest near-zero tail of the data bits to 0, and
fixed-bit repair, which forces the masked bits of block 0 and then tries the candidates (43_rs_decoder.md R163 to R168). -/

namespace Sys2Proof.Machine

/-! ## The samples of a block -/

/-- In a list of lists of `k` elements each, element `k t + b` of all of them is element `b` of list `t`. -/
theorem flatten_getElem?_of_length {α : Type} {k : Nat} {L : List (List α)} (hL : ∀ l ∈ L, l.length = k) (t : Nat)
    {b : Nat} (hb : b < k) : L.flatten[k * t + b]? = L[t]?.bind (·[b]?) := by
  induction L generalizing t with
  | nil => rfl
  | cons l L ih =>
    have hl : l.length = k := hL l List.mem_cons_self
    rw [List.flatten_cons]
    cases t with
    | zero => simpa using List.getElem?_append_left (by omega)
    | succ t =>
      have hpos : k * (t + 1) + b - l.length = k * t + b := by rw [hl, Nat.mul_succ]; omega
      rw [List.getElem?_append_right (by rw [hl, Nat.mul_succ]; omega), hpos, List.getElem?_cons_succ]
      exact ih (fun l hl => hL l (List.mem_cons_of_mem _ hl)) t

/-- The window-0 current samples of a frame of type `F`, in groups of eight as `C.PACK` takes their bits. -/
def sampleGroups (cb : List Sample) : List (List Sample) := groups8 4416 ((windowTaps .nominal .F cb).map Tap.cur)

theorem blockSamples_eq (i : Fin 6) (cb : List Sample) : blockSamples i cb = (blockOf i (sampleGroups cb)).flatten := rfl

theorem length_currents (cb : List Sample) : ((windowTaps .nominal .F cb).map Tap.cur).length = 8 * 552 := by
  rw [List.length_map, windowTaps_length]
  rfl

/-- Block `i` takes every sixth of the 552 groups. -/
theorem blockOf_sampleGroups_getElem? (i : Fin 6) (cb : List Sample) {t : Nat} (ht : t < 92) :
    (blockOf i (sampleGroups cb))[t]? =
      some ((((windowTaps .nominal .F cb).map Tap.cur).drop (8 * (6 * t + i.val))).take 8) := by
  rw [blockOf_getElem?, sampleGroups, groups8_getElem? _ _ 552 (length_currents cb) (by omega) (by omega)]

theorem blockOf_sampleGroups_length (i : Fin 6) (cb : List Sample) : (blockOf i (sampleGroups cb)).length = 92 :=
  blockOf_length i _ 92 (groups8_length _ _ 552 (length_currents cb) (by omega))

theorem length_of_mem_blockOf_sampleGroups {i : Fin 6} {cb : List Sample} {g : List Sample}
    (hg : g ∈ blockOf i (sampleGroups cb)) : g.length = 8 := by
  obtain ⟨t, ht, hget⟩ := List.mem_iff_getElem.mp hg
  rw [blockOf_sampleGroups_length] at ht
  have hgroup := blockOf_sampleGroups_getElem? i cb ht
  rw [List.getElem?_eq_getElem (by rw [blockOf_sampleGroups_length]; exact ht), hget, Option.some.injEq] at hgroup
  rw [hgroup, List.length_take, List.length_drop, length_currents]
  omega

theorem blockSamples_length (i : Fin 6) (cb : List Sample) : (blockSamples i cb).length = 736 := by
  have hgroups : (blockOf i (sampleGroups cb)).map List.length = List.replicate 92 8 := by
    refine List.eq_replicate_iff.mpr ⟨by rw [List.length_map, blockOf_sampleGroups_length], fun n hn => ?_⟩
    obtain ⟨g, hg, rfl⟩ := List.mem_map.mp hn
    exact length_of_mem_blockOf_sampleGroups hg
  rw [blockSamples_eq, List.length_flatten, hgroups, List.sum_replicate]
  rfl

/-- Sample `p` of the block is the one its bit `p` is sliced from (42_slicer_deinterleaver.md R143). -/
theorem blockSamples_getElem? (i : Fin 6) (cb : List Sample) {p : Nat} (hp : p < 736) :
    (blockSamples i cb)[p]? = some (blockSample i cb p) := by
  have htap : 8 * (6 * (p / 8) + i.val) + p % 8 < payloadBits .F := by simp only [payloadBits]; omega
  calc (blockSamples i cb)[p]?
      = (blockOf i (sampleGroups cb)).flatten[8 * (p / 8) + p % 8]? := by rw [Nat.div_add_mod, blockSamples_eq]
    _ = ((windowTaps .nominal .F cb).map Tap.cur)[8 * (6 * (p / 8) + i.val) + p % 8]? := by
        rw [flatten_getElem?_of_length (fun _ => length_of_mem_blockOf_sampleGroups) _ (by omega),
          blockOf_sampleGroups_getElem? i cb (by omega), Option.bind_some, List.getElem?_take_of_lt (by omega),
          List.getElem?_drop]
    _ = some (blockSample i cb p) := by
        rw [List.getElem?_map, windowTaps_getElem? _ _ _ htap]
        rfl

theorem mem_blockSamples_iff {i : Fin 6} {cb : List Sample} {v : Sample} :
    v ∈ blockSamples i cb ↔ ∃ p, p < 736 ∧ blockSample i cb p = v := by
  rw [List.mem_iff_getElem?]
  constructor
  · rintro ⟨p, hp⟩
    have hlt : p < 736 := blockSamples_length i cb ▸ (List.getElem?_eq_some_iff.mp hp).1
    rw [blockSamples_getElem? i cb hlt, Option.some.injEq] at hp
    exact ⟨p, hlt, hp⟩
  · rintro ⟨p, hp, rfl⟩
    exact ⟨p, blockSamples_getElem? i cb hp⟩

/-! ## Negative samples and their average -/

theorem negatives_eq_nil_iff {l : List Sample} : negatives l = [] ↔ ∀ v ∈ l, 0 ≤ v.toInt := by
  simp [negatives, List.filter_eq_nil_iff]

theorem negatives_blockSamples_eq_nil_iff {i : Fin 6} {cb : List Sample} :
    negatives (blockSamples i cb) = [] ↔ ∀ p, p < 736 → 0 ≤ (blockSample i cb p).toInt := by
  rw [negatives_eq_nil_iff]
  refine ⟨fun h p hp => h _ (mem_blockSamples_iff.mpr ⟨p, hp, rfl⟩), fun h v hv => ?_⟩
  obtain ⟨p, hp, rfl⟩ := mem_blockSamples_iff.mp hv
  exact h p hp

/-- The average of the negative samples is negative, so a forced bit is 0 (43_rs_decoder.md R164). -/
theorem zeroAverage_neg {l : List Sample} (h : negatives l ≠ []) : zeroAverage l < 0 := by
  have hsum : ((negatives l).map BitVec.toInt).sum < ((negatives l).map fun _ => (0 : Int)).sum :=
    List.sum_lt_sum_of_ne_nil h _ _ fun v hv => by simpa [negatives] using (List.mem_filter.mp hv).2
  rw [List.map_const', List.sum_replicate, smul_zero] at hsum
  exact Int.ediv_neg_of_neg_of_pos hsum (Int.natCast_pos.mpr (List.length_pos_of_ne_nil h))

/-! ## The tail run -/

theorem nearZero_iff {par : Params} {v : Sample} : nearZero par v = true ↔ v.toInt.natAbs ≤ par.tzThreshold.toNat :=
  decide_eq_true_iff

/-- Counted from the last data bit back, the run ends at the first sample that is not near zero. -/
theorem tailRun_eq_findIdx (par : Params) (l : List Sample) :
    tailRun par l = (l.take 576).reverse.findIdx fun v => !nearZero par v := by
  rw [tailRun, List.takeWhile_eq_take_findIdx_not, List.length_take, Nat.min_eq_left List.findIdx_le_length]

theorem tailRun_le (par : Params) (l : List Sample) : tailRun par l ≤ 576 := by
  have hle := List.findIdx_le_length (p := fun v => !nearZero par v) (xs := (l.take 576).reverse)
  rw [← tailRun_eq_findIdx, List.length_reverse, List.length_take] at hle
  omega

section TailRun

variable {par : Params} {l : List Sample} {p : Nat} {v : Sample}

/-- Data sample `p` as the run counts it. -/
theorem data_reverse_getElem? (hl : 576 ≤ l.length) (hp : p < 576) (hv : l[p]? = some v) :
    (l.take 576).reverse[575 - p]? = some v := by
  have hlen : (l.take 576).length = 576 := by rw [List.length_take]; omega
  rw [List.getElem?_reverse (by omega), hlen, show 576 - 1 - (575 - p) = p by omega, List.getElem?_take_of_lt hp, hv]

theorem nearZero_of_tailRun (hl : 576 ≤ l.length) (hp : p < 576) (hrun : 576 - tailRun par l ≤ p)
    (hv : l[p]? = some v) : nearZero par v = true := by
  obtain ⟨hlt, rfl⟩ := List.getElem?_eq_some_iff.mp (data_reverse_getElem? hl hp hv)
  have hin : 575 - p < (l.take 576).reverse.findIdx fun v => !nearZero par v := by
    rw [← tailRun_eq_findIdx]; omega
  simpa using List.not_of_lt_findIdx hin

theorem not_nearZero_of_tailRun (hl : 576 ≤ l.length) (hrun : tailRun par l < 576)
    (hv : l[575 - tailRun par l]? = some v) : nearZero par v = false := by
  have hget := data_reverse_getElem? hl (by omega) hv
  rw [show 575 - (575 - tailRun par l) = tailRun par l by omega, tailRun_eq_findIdx] at hget
  obtain ⟨hlt, rfl⟩ := List.getElem?_eq_some_iff.mp hget
  simpa using List.findIdx_getElem (w := hlt)

end TailRun

/-! ## The repaired word -/

theorem repairedBits_length {par : Params} {l : List Sample} (hl : l.length = 736) :
    (repairedBits par l).length = 8 * 92 := by
  have hle := tailRun_le par l
  simp only [repairedBits, List.length_append, List.length_map, List.length_take, List.length_drop,
    List.length_replicate, hl]
  omega

/-- A bit of the repaired word: 0 in the tail run, sliced everywhere else. -/
theorem repairedBits_getElem? {par : Params} {l : List Sample} {p : Nat} {v : Sample} (hneg : negatives l ≠ [])
    (hl : 576 ≤ l.length) (hv : l[p]? = some v) : (repairedBits par l)[p]? =
      some (if 576 - tailRun par l ≤ p ∧ p < 576 then false else sliceBit v) := by
  have hle := tailRun_le par l
  have hzero : decide (0 ≤ zeroAverage l) = false := decide_eq_false (not_le.mpr (zeroAverage_neg hneg))
  have hfront : ((l.take (576 - tailRun par l)).map sliceBit).length = 576 - tailRun par l := by
    rw [List.length_map, List.length_take]; omega
  rw [repairedBits, hzero, List.append_assoc, List.getElem?_append, hfront, List.getElem?_append, List.length_replicate]
  rcases Nat.lt_or_ge p (576 - tailRun par l) with hp | hp
  · rw [if_pos hp, if_neg (by omega), List.getElem?_map, List.getElem?_take_of_lt hp, hv, Option.map_some]
  rcases Nat.lt_or_ge p 576 with hp' | hp'
  · rw [if_neg (by omega), if_pos (by omega), if_pos ⟨hp, hp'⟩, List.getElem?_replicate_of_lt (by omega)]
  · have hpos : 576 + (p - (576 - tailRun par l) - tailRun par l) = p := by omega
    rw [if_neg (by omega), if_neg (by omega), if_neg (by omega), List.getElem?_map, List.getElem?_drop, hpos, hv,
      Option.map_some]

section TzRepair

variable {par : Params} {i : Fin 6} {cb : List Sample}

theorem tzRepair_eq_none (h : tailRun par (blockSamples i cb) = 0 ∨ negatives (blockSamples i cb) = []) :
    tzRepair par i cb = none := by
  rcases h with h | h <;> simp [tzRepair, h]

theorem tzRepair_attempts (hrun : tailRun par (blockSamples i cb) ≠ 0) (hneg : negatives (blockSamples i cb) ≠ []) :
    tzRepair par i cb = rsAttempt par .uplink (packBits (repairedBits par (blockSamples i cb))) := by
  simp [tzRepair, hrun, hneg]

/-- A bit of the word that `C.TZ` attempts. -/
theorem repairedWord_getLsbD (hneg : negatives (blockSamples i cb) ≠ []) {t b : Nat} (ht : t < 92) (hb : b < 8) :
    ((packBits (repairedBits par (blockSamples i cb))).getD t 0).getLsbD (7 - b) =
      if 576 - tailRun par (blockSamples i cb) ≤ 8 * t + b ∧ 8 * t + b < 576 then false
      else decide (0 ≤ (blockSample i cb (8 * t + b)).toInt) := by
  have hlen := blockSamples_length i cb
  rw [packBits_getLsbD (repairedBits_length hlen) ht hb, List.getD_eq_getElem?_getD,
    repairedBits_getElem? hneg (by omega) (blockSamples_getElem? i cb (by omega)), Option.getD_some, sliceBit]

end TzRepair

/-- Settles O40: `tailRun` is the run, and a forced bit is 0 because the average of the negative samples is negative. -/
theorem trailingZeroForcesTail : Obligations.TrailingZeroForcesTail := by
  intro s i live _
  have hlen : 576 ≤ (blockSamples i (cbufOf s.corr)).length := by rw [blockSamples_length]; omega
  refine ⟨_, tailRun s.par (blockSamples i (cbufOf s.corr)), exec_cTz live i, tailRun_le _ _, fun p hin hp => ?_,
    fun hrun => ?_, fun hno => ?_, fun hrun ⟨p, hp, hneg⟩ => ?_⟩
  · exact nearZero_iff.mp (nearZero_of_tailRun hlen hp hin (blockSamples_getElem? i _ (by omega)))
  · have hfar := not_nearZero_of_tailRun hlen hrun (blockSamples_getElem? i _ (by omega))
    exact not_le.mp (mt nearZero_iff.mpr (Bool.not_eq_true _ ▸ hfar))
  · exact tzRepair_eq_none (hno.imp_right negatives_blockSamples_eq_nil_iff.mpr)
  · have hsome : negatives (blockSamples i (cbufOf s.corr)) ≠ [] := fun hnil =>
      not_lt.mpr (negatives_blockSamples_eq_nil_iff.mp hnil p hp) hneg
    exact ⟨_, packBits_length (repairedBits_length (blockSamples_length i _)), tzRepair_attempts hrun hsome,
      fun t b ht hb => repairedWord_getLsbD hsome ht hb⟩

/-! ## Fixed-bit repair -/

/-- The first eight bytes of a forced word. -/
def forcedBytes (par : Params) (y : List Byte) : List Byte :=
  List.zipWith (fun b (mv : Byte × Byte) => (b &&& ~~~mv.1) ||| (mv.2 &&& mv.1)) (y.take 8)
    (par.fixedMask.toList.zip par.fixedValue.toList)

theorem forceFixed_eq (par : Params) (y : List Byte) : forceFixed par y = forcedBytes par y ++ y.drop 8 := rfl

section ForceFixed

variable {par : Params} {y : List Byte}

theorem forcedBytes_length (hy : 8 ≤ y.length) : (forcedBytes par y).length = 8 := by
  simp only [forcedBytes, List.length_zipWith, List.length_take, List.length_zip, Vector.length_toList]
  omega

theorem forceFixed_length (hy : 8 ≤ y.length) : (forceFixed par y).length = y.length := by
  rw [forceFixed_eq, List.length_append, forcedBytes_length hy, List.length_drop]
  omega

/-- A bit with mask 1 is forced to the value's bit, the others stay (43_rs_decoder.md R166). -/
theorem forceFixed_getD_masked (hy : 8 ≤ y.length) (t : Fin 8) : (forceFixed par y).getD t.val 0 =
    ((y.getD t.val 0 &&& ~~~par.fixedMask[t]) ||| (par.fixedValue[t] &&& par.fixedMask[t])) := by
  have ht : t.val < (forcedBytes par y).length := by rw [forcedBytes_length hy]; exact t.isLt
  rw [forceFixed_eq, List.getD_append _ _ _ _ ht, List.getD_eq_getElem _ _ ht, List.getD_eq_getElem _ _ (by omega)]
  simp [forcedBytes]

theorem forceFixed_getD_rest (hy : 8 ≤ y.length) {t : Nat} (ht : 8 ≤ t) : (forceFixed par y).getD t 0 = y.getD t 0 := by
  have hlen := forcedBytes_length (par := par) hy
  rw [forceFixed_eq, List.getD_append_right _ _ _ _ (by omega), hlen, List.getD_eq_getElem?_getD, List.getElem?_drop,
    Nat.add_sub_cancel' ht, ← List.getD_eq_getElem?_getD]

end ForceFixed

/-- The word that `C.FIXED` attempts first. -/
def forcedWord (par : Params) (cb : List Sample) : List Byte := forceFixed par (variantBlock par 0 .nominal 0 cb)

section FixedRepair

variable {cfg : Cfg} {par : Params} {cb : List Sample}

theorem fixedRepair_forced {a : List Byte × Nat} (h : rsAttempt par .uplink (forcedWord par cb) = some a) :
    fixedRepair cfg par cb = some a := by
  rw [forcedWord] at h
  simp only [fixedRepair, h]

/-- Where the forced word fails the candidates are tried in list order, if the policy accepts them. -/
theorem fixedRepair_candidates (h : rsAttempt par .uplink (forcedWord par cb) = none) : fixedRepair cfg par cb =
    if cfg.acceptCandidates then
      cfg.candidates.findSome? fun c => rsAttempt par .uplink (c ++ (forcedWord par cb).drop 6)
    else none := by
  rw [forcedWord] at h
  simp only [fixedRepair, h]
  rfl

end FixedRepair

/-- Settles O41: the forced word byte by byte, and the first success among the candidates. -/
theorem fixedRepairAttempts : Obligations.FixedRepairAttempts := by
  intro s live _
  have hbase := variantBlock_length s.par 0 .nominal 0 (cbufOf s.corr)
  have hlong : 8 ≤ (variantBlock s.par 0 .nominal 0 (cbufOf s.corr)).length := by omega
  refine ⟨_, forcedWord s.par (cbufOf s.corr), _, exec_cFixed live, rfl, (forceFixed_length hlong).trans hbase, hbase,
    forceFixed_getD_masked hlong, fun t ht _ => forceFixed_getD_rest hlong ht, fun a => fixedRepair_forced,
    fun hfail => ?_⟩
  rw [fixedRepair_candidates hfail]
  refine ⟨fun hoff => ?_, fun hon => ?_⟩
  · rw [hoff, if_neg Bool.false_ne_true]
  · rw [if_pos hon]
    exact ⟨fun pre c post a hsplit hbefore hc => (findSome?_eq_some_iff_split _ _ _).mpr
      ⟨pre, c, post, hsplit, hc, hbefore⟩, List.findSome?_eq_none_iff.mpr⟩

end Sys2Proof.Machine
end

section
/-! What CORR writes for a packet: the lines field by field, the capture record byte by byte, `C.COMPLETE`, and capture
as a side channel (44_output.md R177 to R188). -/

namespace Sys2Proof.Machine

/-! ## `C.COMPLETE` -/

/-- The failure line is enabled by the switch of the packet's own type. -/
theorem failLineOn_iff (cfg : Cfg) (ty : PType) :
    failLineOn cfg ty = true ↔ ty = .F ∧ cfg.failFisb = true ∨ ty = .A ∧ cfg.failAdsb = true := by
  cases ty <;> simp [failLineOn]

/-- Settles O45: the success and the failure of `C.COMPLETE`, each with its records and its line. -/
theorem completeWritesInOrder : Obligations.CompleteWritesInOrder := by
  intro s o live
  rw [exec_cComplete live]
  cases o with
  | success d =>
    have hnofail : ¬(s.cfg.captureFail = true ∧ Completion.success d = .failure) := fun ⟨_, h⟩ => nomatch h
    rw [completeStep_success, if_neg hnofail, List.append_nil]
  | failure => simp only [completeStep_failure, failLineOn_iff, and_true]

/-! ## The capture record -/

/-- A record's default name: time, type byte and the suffix (44_output.md R186). -/
theorem captureName_default {par : Params} (h : par.captureName = .default) (c : Corr) :
    captureName par c = timeText c.hsec c.husec ++ ascii ['.'] ++ [typeByte c.htype] ++ ascii ['.', 'i', '3', '2'] := by
  rw [captureName, h]
  rfl

/-- Settles O49: the record's bytes are the header and the bytes of each sample held. -/
theorem captureRecordBytes : Obligations.CaptureRecordBytes := by
  intro s k live
  refine ⟨captureRecord s.par k s.corr, exec_cCapture live k, rfl, captureName_default (c := s.corr),
    samplesBytes (cbufOf s.corr), rfl, ?_, fun j x hj hx => ?_⟩
  · rw [samplesBytes_length, length_cbufOf rfl]
  · exact samplesBytes_getD (cbufOf s.corr) (by rwa [length_cbufOf rfl]) hx

/-! ## The lines -/

/-- The six statuses as one text: two digits each, joined by colons. -/
theorem statusesText_eq (st : Vector BStatus 6) :
    statusesText st = (ascii [':']).intercalate (st.toList.map fun b => decPad (statusNumber b) 2) := by
  have hlist : st.toList = [st[0], st[1], st[2], st[3], st[4], st[5]] := by
    refine List.ext_getElem (by simp) fun i hi _ => ?_
    have : i < 6 := by simpa using hi
    interval_cases i <;> simp
  rw [hlist]
  simp [statusesText, List.intercalate, List.append_assoc]

section LineFields

variable {par : Params} {c : Corr} (d : List Byte)

theorem successLine_fisb (h : c.htype = .F) : successLine par c d =
    ascii "+".toList ++ hex d ++ ascii ";rs=".toList ++ dec c.herr ++ ascii "/".toList ++ statusesText c.status ++
      ascii ";ss=".toList ++ levelText c.hlevel ++ ascii "/".toList ++ rssiField par c ++ ascii ";t=".toList ++
      timeText c.hsec c.husec ++ ascii "\n".toList := by
  rw [successLine, h]
  simp only [lineFields, List.append_assoc]
  rfl

theorem successLine_adsb (h : c.htype = .A) : successLine par c d =
    ascii "-".toList ++ hex d ++ ascii ";rs=".toList ++ dec c.herr ++ ascii "/".toList ++
      dec (statusNumber c.astatus) ++ ascii ";ss=".toList ++ levelText c.hlevel ++ ascii "/".toList ++
      rssiField par c ++ ascii ";t=".toList ++ timeText c.hsec c.husec ++ ascii "\n".toList := by
  rw [successLine, h]
  simp only [lineFields, List.append_assoc]
  rfl

theorem failureLine_fisb (h : c.htype = .F) : failureLine par c =
    ascii "#FAILED-FIS-B rs=".toList ++ dec c.herr ++ ascii "/".toList ++ statusesText c.status ++
      ascii ";ss=".toList ++ levelText c.hlevel ++ ascii "/".toList ++ rssiField par c ++ ascii ";t=".toList ++
      timeText c.hsec c.husec ++ ascii " ".toList ++ c.hbuf ++ ascii "\n".toList := by
  rw [failureLine, h]
  simp only [lineFields, List.append_assoc]
  rfl

/-- The status of a failed ADS-B packet is the fixed text 98 (44_output.md R183). -/
theorem failureLine_adsb (h : c.htype = .A) : failureLine par c =
    ascii "#FAILED-ADS-B rs=".toList ++ dec c.herr ++ ascii "/98;ss=".toList ++ levelText c.hlevel ++
      ascii "/".toList ++ rssiField par c ++ ascii ";t=".toList ++ timeText c.hsec c.husec ++ ascii " ".toList ++
      c.hbuf ++ ascii "\n".toList := by
  have hstatus : ascii "/98;ss=".toList = ascii ['/'] ++ ascii ['9', '8'] ++ ascii [';', 's', 's', '='] := rfl
  rw [failureLine, h, hstatus]
  simp only [lineFields, List.append_assoc]
  rfl

end LineFields

/-- Settles O47: the lines of each type, field by field. -/
theorem lineTexts : Obligations.LineTexts := by
  intro s d live
  refine ⟨rssiField s.par s.corr, _, _, exec_cLine live d, exec_cFailline live, rfl, ?_⟩
  rintro lv tm six rfl rfl rfl
  rw [← statusesText_eq]
  exact ⟨fun hF => ⟨successLine_fisb d hF, failureLine_fisb hF⟩,
    fun hA => ⟨successLine_adsb d hA, failureLine_adsb hA⟩⟩

/-! ## Capture as a side channel -/

/-- A configuration with its two capture switches set. -/
def withCapture (raw fail : Bool) (cfg : Cfg) : Cfg := { cfg with captureRaw := raw, captureFail := fail }

section Switches

variable (raw fail : Bool) (cfg : Cfg) (par : Params)

/-- No step of a block's decode reads the capture switches. -/
theorem blockDecode_withCapture (i : Fin 6) (h : Nat) (cb : List Sample) :
    blockDecode (withCapture raw fail cfg) par i h cb = blockDecode cfg par i h cb := rfl

theorem fisbBlocks_withCapture (l : List (Fin 6)) (c : Corr) :
    fisbBlocks (withCapture raw fail cfg) par l c = fisbBlocks cfg par l c := by
  induction l generalizing c with
  | nil => rfl
  | cons i l ih => simp only [fisbBlocks, blockDecode_withCapture, ih]

theorem fisbDecode_withCapture (c : Corr) : fisbDecode (withCapture raw fail cfg) par c = fisbDecode cfg par c :=
  fisbBlocks_withCapture raw fail cfg par _ _

end Switches

/-- The same state but for the capture switches and what CORR has to hand over on `CAP`. -/
def SameButCapture (s t : State) : Prop :=
  ∃ raw fail recs, t = { s with cfg := withCapture raw fail s.cfg, io := { s.io with capWr := recs } }

theorem sameButCapture_switches (raw fail : Bool) (s : State) :
    SameButCapture s { s with cfg := withCapture raw fail s.cfg } := ⟨raw, fail, s.io.capWr, rfl⟩

namespace SameButCapture

variable {s t : State}

theorem outWr (h : SameButCapture s t) : s.io.outWr = t.io.outWr := by
  obtain ⟨_, _, _, rfl⟩ := h
  rfl

theorem corr (h : SameButCapture s t) : s.corr = t.corr := by
  obtain ⟨_, _, _, rfl⟩ := h
  rfl

theorem demod (h : SameButCapture s t) : s.demod = t.demod := by
  obtain ⟨_, _, _, rfl⟩ := h
  rfl

theorem setCorr (h : SameButCapture s t) (c : Corr) : SameButCapture { s with corr := c } { t with corr := c } := by
  obtain ⟨raw, fail, recs, rfl⟩ := h
  exact ⟨raw, fail, recs, rfl⟩

theorem setHdr (h : SameButCapture s t) :
    SameButCapture { s with corr := backToHdr s.corr } { t with corr := backToHdr t.corr } := by
  rw [← h.corr]
  exact h.setCorr _

/-- `C.COMPLETE` carries the capture switches to `CAP` only. -/
theorem completeStep (h : SameButCapture s t) (o : Completion) :
    SameButCapture (completeStep o s) (completeStep o t) := by
  obtain ⟨raw, fail, _, rfl⟩ := h
  cases o with
  | success d => rw [completeStep_success, completeStep_success]; exact ⟨raw, fail, _, rfl⟩
  | failure => rw [completeStep_failure, completeStep_failure]; exact ⟨raw, fail, _, rfl⟩

/-- `C.FISB` decodes the same and completes the same outcome. -/
theorem fisbStep (h : SameButCapture s t) : SameButCapture (fisbStep s) (fisbStep t) := by
  have hdecode : fisbDecode t.cfg t.par t.corr = fisbDecode s.cfg s.par s.corr := by
    obtain ⟨raw, fail, _, rfl⟩ := h
    exact fisbDecode_withCapture raw fail s.cfg s.par s.corr
  rw [Machine.fisbStep, Machine.fisbStep, hdecode]
  generalize fisbDecode s.cfg s.par s.corr = c
  exact ((h.setCorr c).completeStep (fisbOutcome c)).setHdr

/-- `C.ADSB` searches the same and completes the same outcome. -/
theorem adsbStep (h : SameButCapture s t) : SameButCapture (adsbStep s) (adsbStep t) := by
  have hsearch : adsbSearch t.par (cbufOf t.corr) = adsbSearch s.par (cbufOf s.corr) := by
    obtain ⟨_, _, _, rfl⟩ := h
    rfl
  rw [Machine.adsbStep, Machine.adsbStep, hsearch, ← h.corr]
  cases adsbSearch s.par (cbufOf s.corr) with
  | some r => exact ((h.setCorr _).completeStep (.success r.1)).setHdr
  | none => exact ((h.setCorr _).completeStep .failure).setHdr

theorem exec_fisb_adsb (h : SameButCapture s t) {i : Instr} (live : CorrLive s) (hi : i = .cFisb ∨ i = .cAdsb) :
    ∃ s' t', exec i s = .next s' ∧ exec i t = .next t' ∧ SameButCapture s' t' := by
  have live' : CorrLive t := by rwa [CorrLive, ← h.corr]
  rcases hi with rfl | rfl
  · exact ⟨_, _, exec_cFisb live, exec_cFisb live', h.fisbStep⟩
  · exact ⟨_, _, exec_cAdsb live, exec_cAdsb live', h.adsbStep⟩

end SameButCapture

/-- Settles O46: setting the switches leaves the state the same but for capture, and both decodes keep it so. -/
theorem captureIsSideChannel : Obligations.CaptureIsSideChannel := by
  intro s raw fail i live hi
  obtain ⟨s', t', hs, ht, h⟩ := (sameButCapture_switches raw fail s).exec_fisb_adsb live hi
  exact ⟨s', t', hs, ht, h.outWr, h.corr, h.demod⟩

end Sys2Proof.Machine
end

section
/-! Halted agents: what a fault and an abort do, that a halted agent stays as it is, when an operation completes, and the
order of the header's faults (60_exceptions.md R190, R194, R195, R199, R205). -/

namespace Sys2Proof.Machine

/-! ## The host abort -/

theorem abortAgent_demod_live {s : State} (h : DemodLive s) : abortAgent .demod s =
    { s with demod := { s.demod with ctl := .aborted, exit := .nonzero }, io := closeDemodPorts s.io } := if_pos h

theorem abortAgent_demod_halted {s : State} (h : ¬DemodLive s) : abortAgent .demod s = s := if_neg h

theorem abortAgent_corr_live {s : State} (h : CorrLive s) : abortAgent .corr s =
    { s with corr := { s.corr with ctl := .aborted, exit := .nonzero }, io := closeCorrPorts s.io } := if_pos h

theorem abortAgent_corr_halted {s : State} (h : ¬CorrLive s) : abortAgent .corr s = s := if_neg h

/-- An abort changes no more of a state than one agent's record and the ports. -/
theorem abortAgent_frame (a : Agent) (s : State) : (abortAgent a s).cfg = s.cfg ∧ (abortAgent a s).par = s.par ∧
    (abortAgent a s).io.alone = s.io.alone ∧ (abortAgent a s).io.log = s.io.log := by
  cases a with
  | demod =>
    by_cases h : DemodLive s
    · rw [abortAgent_demod_live h]; exact ⟨rfl, rfl, rfl, rfl⟩
    · rw [abortAgent_demod_halted h]; exact ⟨rfl, rfl, rfl, rfl⟩
  | corr =>
    by_cases h : CorrLive s
    · rw [abortAgent_corr_live h]; exact ⟨rfl, rfl, rfl, rfl⟩
    · rw [abortAgent_corr_halted h]; exact ⟨rfl, rfl, rfl, rfl⟩

theorem step_abort {s : State} {a : Agent} {sc : List HostAct} (h : s.script = .abort a :: sc) :
    step s = .next (abortAgent a { s with script := sc }) := by
  unfold step
  rw [h]

/-- A halting CORR takes back no record the host has. -/
theorem cap_prefix_capAccepted (p : Io) : p.cap <+: capAccepted p := by
  unfold capAccepted
  split
  · exact List.prefix_rfl
  · split
    · exact List.prefix_rfl
    · exact List.prefix_append _ _

/-- Settles O52: the fields `raiseFault` writes, and an abort of an agent live or halted. -/
theorem faultAndAbortHaltAgent : Obligations.FaultAndAbortHaltAgent := by
  intro s code
  refine ⟨⟨rfl, rfl, rfl, rfl, rfl, rfl, rfl, rfl⟩,
    ⟨rfl, rfl, rfl, rfl, rfl, rfl, rfl, rfl, cap_prefix_capAccepted s.io, rfl, rfl⟩, fun sc a hs => ?_⟩
  obtain ⟨-, -, -, hlog⟩ := abortAgent_frame a { s with script := sc }
  refine ⟨_, step_abort hs, hlog, ?_, ?_⟩
  · rintro rfl
    refine ⟨abortAgent_demod_corr _, fun live => ?_, fun halted => abortAgent_demod_halted halted⟩
    rw [abortAgent_demod_live (by exact live)]
    exact ⟨rfl, rfl, rfl, rfl, rfl⟩
  · rintro rfl
    refine ⟨abortAgent_corr_demod _, fun live => ?_, fun halted => abortAgent_corr_halted halted⟩
    rw [abortAgent_corr_live (by exact live)]
    exact ⟨rfl, rfl, rfl, rfl, rfl, rfl, rfl, cap_prefix_capAccepted s.io, rfl⟩

/-! ## A halted agent -/

theorem hostPort_alone (p : Port) (r st : Option Bool) (io : Io) : (hostPort p r st io).alone = io.alone := by
  cases p <;> rfl

/-- No step changes the configuration, the parameters or whether CORR runs alone. -/
theorem step_frame {s t : State} (h : step s = .next t) : t.cfg = s.cfg ∧ t.par = s.par ∧ t.io.alone = s.io.alone := by
  obtain ⟨sc, -, rfl | ⟨-, -, he⟩ | ⟨-, he⟩ | ⟨a, -, rfl⟩ | ⟨p, r, st, rfl⟩⟩ := step_effects h
  · exact ⟨rfl, rfl, rfl⟩
  · obtain ⟨-, hcfg, hpar, -, halone⟩ := he.frame
    exact ⟨hcfg, hpar, halone⟩
  · obtain ⟨-, hcfg, hpar, -, halone⟩ := he.frame
    exact ⟨hcfg, hpar, halone⟩
  · obtain ⟨hcfg, hpar, halone, -⟩ := abortAgent_frame a { s with script := sc }
    exact ⟨hcfg, hpar, halone⟩
  · exact ⟨rfl, rfl, hostPort_alone _ _ _ _⟩

/-- A halted DEMOD has no move of its own, and an abort leaves it as it is. -/
theorem step_demod_halted {s t : State} (hd : ¬DemodLive s) (h : step s = .next t) : t.demod = s.demod := by
  obtain ⟨sc, -, rfl | ⟨live, -, -⟩ | ⟨-, he⟩ | ⟨a, -, rfl⟩ | ⟨p, r, st, rfl⟩⟩ := step_effects h
  · rfl
  · exact absurd live hd
  · exact he.frame.1
  · cases a with
    | demod => rw [abortAgent_demod_halted (s := { s with script := sc }) hd]
    | corr => exact abortAgent_corr_demod _
  · rfl

/-- A halted CORR has no move of its own, and an abort leaves it as it is. -/
theorem step_corr_halted {s t : State} (hc : ¬CorrLive s) (h : step s = .next t) : t.corr = s.corr := by
  obtain ⟨sc, -, rfl | ⟨-, -, he⟩ | ⟨live, -⟩ | ⟨a, -, rfl⟩ | ⟨p, r, st, rfl⟩⟩ := step_effects h
  · rfl
  · exact he.frame.1
  · exact absurd live hc
  · cases a with
    | demod => exact abortAgent_demod_corr _
    | corr => rw [abortAgent_corr_halted (s := { s with script := sc }) hc]
  · rfl

theorem demodMove_halted {s : State} (h : ¬DemodLive s ∨ s.io.alone = true) (limit : Option Nat) :
    demodMove limit s = .halted := by
  rcases h with h | h
  · have hl : s.demod.ctl.live = false := Bool.eq_false_iff.mpr h
    simp [demodMove, hl]
  · simp [demodMove, h]

theorem corrMove_halted {s : State} (h : ¬CorrLive s) (limit : Option Nat) : corrMove limit s = .halted := by
  have hl : s.corr.ctl.live = false := Bool.eq_false_iff.mpr h
  simp [corrMove, hl]

/-- Settles O54: the effects of a step on a halted agent, and the free step of a core without a live agent. -/
theorem haltedAgentIsFrozen : Obligations.HaltedAgentIsFrozen := by
  refine ⟨fun s t h => ⟨fun hd => step_demod_halted hd h, fun hc => step_corr_halted hc h, step_frame h⟩,
    fun s hs hd hc => ?_⟩
  simp only [step, hs, freeStep, demodMove_halted hd, corrMove_halted hc]

/-! ## When an operation completes -/

/-- What no operation changes: the configuration, the parameters, the script, what the host has received on `OUT`, and
what stands at the inputs. -/
def KeepsDelivered (s t : State) : Prop :=
  t.cfg = s.cfg ∧ t.par = s.par ∧ t.script = s.script ∧ t.io.out = s.io.out ∧ t.io.ch = s.io.ch ∧
    t.io.inq = s.io.inq ∧ t.io.cin = s.io.cin

/-- Only what agents have to hand over differs, of the ports, and neither the configuration nor the host's script. -/
theorem keepsDelivered_of_io {s t : State} (hcfg : t.cfg = s.cfg) (hpar : t.par = s.par) (hscript : t.script = s.script)
    {w o : List Byte} {c : List CapRec} (hio : t.io = { s.io with chWr := w, outWr := o, capWr := c }) :
    KeepsDelivered s t := by
  refine ⟨hcfg, hpar, hscript, ?_⟩
  rw [hio]
  exact ⟨rfl, rfl, rfl, rfl⟩

theorem WritesFrameOnly.keepsDelivered {s t : State} (h : WritesFrameOnly s t) : KeepsDelivered s t ∧ t.corr = s.corr := by
  unfold WritesFrameOnly at h
  rw [h]
  exact ⟨⟨rfl, rfl, rfl, rfl, rfl, rfl, rfl⟩, rfl⟩

theorem iqStep_keepsDelivered (i q : Half) (s : State) :
    KeepsDelivered s (iqStep i q s) ∧ (iqStep i q s).corr = s.corr := by
  obtain ⟨rec, hio, hcorr, hcfg, hpar, hscript⟩ := iqStep_frame i q s
  exact ⟨keepsDelivered_of_io hcfg hpar hscript hio, hcorr⟩

theorem raiseFault_keepsDelivered (a : Agent) (code : FCode) (s : State) : KeepsDelivered s (raiseFault a code s) := by
  cases a <;> exact ⟨rfl, rfl, rfl, rfl, rfl, rfl, rfl⟩

theorem headerStep_keepsDelivered (h : List Byte) (s : State) :
    KeepsDelivered s (headerStep h s) ∧ (headerStep h s).demod = s.demod := by
  rcases headerStep_cases h s with ⟨code, e⟩ | ⟨t, -, e⟩ <;> rw [e]
  · exact ⟨raiseFault_keepsDelivered _ _ _, rfl⟩
  · exact ⟨⟨rfl, rfl, rfl, rfl, rfl, rfl, rfl⟩, rfl⟩

theorem completeStep_keepsDelivered (o : Completion) (s : State) :
    KeepsDelivered s (completeStep o s) ∧ (completeStep o s).demod = s.demod := by
  obtain ⟨hdemod, -, hcfg, hpar, hscript, a, b, hio⟩ := completeStep_frame o s
  exact ⟨keepsDelivered_of_io hcfg hpar hscript hio, hdemod⟩

theorem fisbStep_keepsDelivered (s : State) : KeepsDelivered s (fisbStep s) ∧ (fisbStep s).demod = s.demod := by
  obtain ⟨hdemod, hcfg, hpar, hscript, a, b, hio⟩ := fisbStep_frame s
  exact ⟨keepsDelivered_of_io hcfg hpar hscript hio, hdemod⟩

theorem adsbStep_keepsDelivered (s : State) : KeepsDelivered s (adsbStep s) ∧ (adsbStep s).demod = s.demod := by
  obtain ⟨hdemod, hcfg, hpar, hscript, a, b, hio⟩ := adsbStep_frame s
  exact ⟨keepsDelivered_of_io hcfg hpar hscript hio, hdemod⟩

/-- An operation of DEMOD that may run: what it does to a live DEMOD, CORR and the delivered bytes kept. -/
theorem exec_demod {i : Instr} (hi : i.agent = .demod) (s : State) :
    ∃ f, exec i s = demodRun s f ∧ KeepsDelivered s (f s) ∧ (f s).corr = s.corr := by
  cases i with
  | dIq i q => exact ⟨_, rfl, iqStep_keepsDelivered i q s⟩
  | dArbitrate cand v => exact ⟨_, rfl, (arbitrateStep_writesFrameOnly cand v s).keepsDelivered⟩
  | dCapture v => exact ⟨_, rfl, (captureStep_writesFrameOnly v s).keepsDelivered⟩
  | dChunk | dEof | dDisc | dEnergy | dGate | dShift | dProbe | dCorrelate | dSelect | dEmit | dStamp | dHeader =>
    unfold exec
    refine ⟨_, rfl, ?_⟩
    exact ⟨⟨rfl, rfl, rfl, rfl, rfl, rfl, rfl⟩, rfl⟩
  | _ => cases hi

/-- An operation of CORR whose index is one of the schedule: what it does to a live CORR, DEMOD and the delivered bytes
kept. -/
theorem exec_corr {i : Instr} (hi : i.agent = .corr) {s : State} (hx : i.indexOk s.par = true) :
    ∃ f, exec i s = corrRun s f ∧ KeepsDelivered s (f s) ∧ (f s).demod = s.demod := by
  cases i with
  | cHdrF h => exact ⟨_, rfl, headerStep_keepsDelivered h s⟩
  | cHdrA h => exact ⟨_, rfl, headerStep_keepsDelivered h s⟩
  | cEof pos =>
    unfold exec
    refine ⟨_, rfl, ?_⟩
    cases pos <;> exact ⟨⟨rfl, rfl, rfl, rfl, rfl, rfl, rfl⟩, rfl⟩
  | cVariant | cSearch | cBlock =>
    refine ⟨_, if_pos (of_decide_eq_true hx), ?_⟩
    exact ⟨⟨rfl, rfl, rfl, rfl, rfl, rfl, rfl⟩, rfl⟩
  | cShortcut =>
    unfold exec
    refine ⟨_, rfl, ?_⟩
    split <;> exact ⟨⟨rfl, rfl, rfl, rfl, rfl, rfl, rfl⟩, rfl⟩
  | cFisb => exact ⟨_, rfl, fisbStep_keepsDelivered s⟩
  | cAdsb => exact ⟨_, rfl, adsbStep_keepsDelivered s⟩
  | cComplete o => exact ⟨_, rfl, completeStep_keepsDelivered o s⟩
  | cSmp | cSlice | cMix | cPack | cDeint | cAbytes | cRs | cTz | cFixed | cLine | cFailline | cCapture =>
    unfold exec
    refine ⟨_, rfl, ?_⟩
    exact ⟨⟨rfl, rfl, rfl, rfl, rfl, rfl, rfl⟩, rfl⟩
  | _ => cases hi

/-- An index above `N` is refused, whatever the state of CORR (log 21). -/
theorem exec_refused {i : Instr} {s : State} (hx : i.indexOk s.par = false) : exec i s = .refused .scheduleIndex := by
  cases i with
  | cVariant w j t => exact if_neg (of_decide_eq_false hx)
  | cSearch k w h => exact if_neg (of_decide_eq_false hx)
  | cBlock k h => exact if_neg (of_decide_eq_false hx)
  | _ => cases hx

theorem exec_keepsDelivered {i : Instr} {s t : State} (h : exec i s = .next t) : KeepsDelivered s t := by
  cases hx : i.indexOk s.par with
  | false => rw [exec_refused hx] at h; cases h
  | true =>
    cases hi : i.agent with
    | demod =>
      obtain ⟨f, e, hkeep, -⟩ := exec_demod hi s
      obtain ⟨-, rfl⟩ := demodRun_eq_next (e.symm.trans h)
      exact hkeep
    | corr =>
      obtain ⟨f, e, hkeep, -⟩ := exec_corr hi hx
      obtain ⟨-, rfl⟩ := corrRun_eq_next (e.symm.trans h)
      exact hkeep

/-- Settles O55: every operation with its index in the schedule is a `demodRun` or a `corrRun`. -/
theorem operationCompletesWhenLive : Obligations.OperationCompletesWhenLive := by
  refine fun i s => ⟨fun hx => ⟨fun live hi => ?_, fun live hi => ?_, fun halted hi => ?_, fun halted hi => ?_⟩,
    exec_refused, fun t => exec_keepsDelivered⟩
  · obtain ⟨f, e, -, hcorr⟩ := exec_demod hi s
    exact ⟨f s, e.trans (demodRun_live live f), hcorr⟩
  · obtain ⟨f, e, -, hdemod⟩ := exec_corr hi hx
    exact ⟨f s, e.trans (corrRun_live live f), hdemod⟩
  · obtain ⟨f, e, -⟩ := exec_demod hi s
    exact e.trans (demodRun_halted halted f)
  · obtain ⟨f, e, -⟩ := exec_corr hi hx
    exact e.trans (corrRun_halted halted f)

/-! ## The header's faults -/

section HeaderFaults
variable {h : List Byte} (s : State)

theorem headerStep_length (hl : h.length ≠ 36) : headerStep h s = raiseFault .corr .hdrLen s := if_pos hl

theorem headerStep_type (hl : h.length = 36) (ht : typeOfByte (h.getD 18 0) = none) :
    headerStep h s = raiseFault .corr .hdrType s := by
  rw [headerStep, if_neg (not_not.mpr hl), ht]

theorem headerStep_format {t : PType} (hl : h.length = 36) (ht : typeOfByte (h.getD 18 0) = some t)
    (hw : headerWellformed h = false) : headerStep h s = raiseFault .corr .hdrFormat s := by
  rw [headerStep, if_neg (not_not.mpr hl), ht]
  exact if_neg (Bool.eq_false_iff.mp hw)

end HeaderFaults

theorem getD_of_getElem? {l : List Byte} {k : Nat} {b : Byte} (h : l[k]? = some b) : l.getD k 0 = b := by
  rw [List.getD_eq_getElem?_getD, h, Option.getD_some]

/-- A step that reads a whole header with an unknown type byte (60_exceptions.md R194). -/
theorem step_header_type {s : State} {sc : List HostAct} (hm : CorrMoves sc s) (hc : CorrReads .hdr s)
    (hr : s.corr.rbuf.length ≤ 36) (hk : 36 ≤ (s.corr.rbuf ++ corrInput s).length)
    (ht : typeOfByte ((s.corr.rbuf ++ corrInput s).getD 18 0) = none) :
    step s = .next (raiseFault .corr .hdrType (afterRead 36 sc s)) := by
  have hlen : ((s.corr.rbuf ++ corrInput s).take 36).length = 36 := by rw [List.length_take, Nat.min_eq_left hk]
  have htype : typeOfByte (((s.corr.rbuf ++ corrInput s).take 36).getD 18 0) = none := by
    rwa [List.getD_eq_getElem?_getD, List.getElem?_take_of_lt (by decide), ← List.getD_eq_getElem?_getD]
  refine step_corr_done hm ?_
  rw [corrMove_hdr hc sc, corrRead_whole (s := { s with script := sc }) hr hk]
  exact runToken_error (decode_header_type hlen htype)

/-- Settles O28: each fault is the branch of `headerStep` that its checks reach. -/
theorem headerFaultsInOrder : Obligations.HeaderFaultsInOrder := by
  refine ⟨fun s ty h live => ⟨fun _ hl => ?_, fun b hl hb hF hA => ?_, fun b hl hb hFA hw => ?_⟩,
    fun s sc b hs hc hr hk hb hF hA => ?_⟩
  · rw [exec_hdrOp live, headerStep_length s (Nat.ne_of_lt hl)]
  · rw [exec_hdrOp live, headerStep_type s hl (by rw [getD_of_getElem? hb]; exact typeOfByte_eq_none.mpr ⟨hF, hA⟩)]
  · obtain ⟨t, ht⟩ : ∃ t, typeOfByte b = some t := by
      rcases hFA with rfl | rfl
      · exact ⟨.F, rfl⟩
      · exact ⟨.A, rfl⟩
    rw [exec_hdrOp live, headerStep_format s hl (by rw [getD_of_getElem? hb]; exact ht) hw]
  · refine step_header_type (.inl hs) hc hr hk ?_
    rw [getD_of_getElem? hb]
    exact typeOfByte_eq_none.mpr ⟨hF, hA⟩

end Sys2Proof.Machine
end

section
/-! The stream between the agents: a CORR fed by DEMOD stands in whole frame records (20_memory.md R59 to R62;
60_exceptions.md R197, R202). -/

namespace Sys2Proof.Machine

/-! ## Whole records -/

theorem WholeRecords.append {l r : List Byte} (hl : WholeRecords l) (hr : WholeRecords r) : WholeRecords (l ++ r) := by
  induction hl with
  | nil => exact hr
  | cons t h body rest hh hb _ ih => simpa using WholeRecords.cons t h body _ hh hb ih

/-- The first 36 bytes of a stream of whole records are a header, and its frame's samples follow. -/
theorem WholeRecords.header_first {tok l : List Byte} (h : WholeRecords (tok ++ l)) (htok : tok.length = 36) :
    ∃ t body rest, GoodHeader t tok ∧ l = body ++ rest ∧ body.length = 4 * frameLen t ∧ WholeRecords rest := by
  generalize hm : tok ++ l = m at h
  cases h with
  | nil =>
    rw [(List.append_eq_nil_iff.mp hm).1] at htok
    cases htok
  | cons t h body rest hh hb hr =>
    rw [List.append_assoc] at hm
    obtain ⟨rfl, rfl⟩ := List.append_inj hm (htok.trans hh.1.symm)
    exact ⟨t, body, rest, hh, rfl, hb, hr⟩

/-- A stream of whole records that has not ended is no shorter than a header. -/
theorem WholeRecords.header_le_length {l : List Byte} (h : WholeRecords l) (hne : l ≠ []) : 36 ≤ l.length := by
  cases h with
  | nil => exact absurd rfl hne
  | cons t h body rest hh hb hr =>
    have hlen : h.length = 36 := hh.1
    simp only [List.length_append]
    omega

theorem wholeRecords_record {t : PType} {h : List Byte} {frame : List Sample} (hh : GoodHeader t h)
    (hf : frame.length = frameLen t) : WholeRecords (h ++ samplesBytes frame) := by
  have hb : (samplesBytes frame).length = 4 * frameLen t := by rw [samplesBytes_length, hf]
  simpa using WholeRecords.cons t h (samplesBytes frame) [] hh hb .nil

/-! ## What CORR has still to read -/

/-- The bytes CORR has still to read, those it has taken of its next token first: what stands in `CH`, and what DEMOD
has yet to hand over. -/
def toRead (s : State) : List Byte := s.corr.rbuf ++ (s.io.ch ++ s.io.chWr)

theorem streamInv_hdr {s : State} (h : s.corr.ctl = .hdr) : StreamInv s ↔ WholeRecords (toRead s) := by
  unfold StreamInv
  rw [h, toRead, List.append_assoc]

theorem streamInv_samples {s : State} (h : s.corr.ctl = .samples) : StreamInv s ↔ s.corr.ccnt < s.corr.clen ∧
    ∃ body rest, toRead s = body ++ rest ∧ body.length = 4 * (s.corr.clen - s.corr.ccnt) ∧ WholeRecords rest := by
  unfold StreamInv
  rw [h, toRead, List.append_assoc]

theorem streamInv_decode {s : State} (h : s.corr.ctl = .decode) :
    StreamInv s ↔ s.corr.rbuf = [] ∧ WholeRecords (toRead s) := by
  unfold StreamInv
  rw [h]
  exact and_congr_right fun hb => by rw [toRead, hb, List.nil_append]

theorem streamInv_halted {s : State} (h : ¬CorrLive s) : StreamInv s := by
  unfold StreamInv
  cases hc : s.corr.ctl with
  | hdr | samples | decode => exact absurd (by rw [CorrLive, hc]; rfl) h
  | ended | faulted | aborted => trivial

/-- Whole records more to read leave CORR in a stream of whole records. -/
theorem StreamInv.extend {s t : State} (h : StreamInv s) (hc : t.corr = s.corr) {r : List Byte} (hr : WholeRecords r)
    (ht : toRead t = toRead s ++ r) : StreamInv t := by
  by_cases live : CorrLive s
  · rcases corrLive_cases live with hctl | hctl | hctl
    · rw [streamInv_hdr (by rw [hc, hctl]), ht]
      exact ((streamInv_hdr hctl).mp h).append hr
    · obtain ⟨hlt, body, rest, e, hlen, hrest⟩ := (streamInv_samples hctl).mp h
      rw [streamInv_samples (by rw [hc, hctl]), ht, hc]
      exact ⟨hlt, body, rest ++ r, by rw [e, List.append_assoc], hlen, hrest.append hr⟩
    · obtain ⟨hb, hs⟩ := (streamInv_decode hctl).mp h
      rw [streamInv_decode (by rw [hc, hctl]), ht, hc]
      exact ⟨hb, hs.append hr⟩
  · exact streamInv_halted (by rwa [CorrLive, hc])

/-! ## The two agents' parts of the framing invariant -/

/-- DEMOD's part: its header, and its end of `CH`. -/
def DemodFramed (s : State) : Prop :=
  HeaderInv s.demod ∧ (DemodLive s ∨ s.io.chWr = []) ∧ (s.io.chClosed = true → ¬DemodLive s)

/-- CORR's part: the stream it stands in, its end of `CH`, and no framing fault. -/
def CorrFramed (s : State) : Prop :=
  StreamInv s ∧ (s.io.chBroken = true → ¬CorrLive s) ∧ ∀ f, s.corr.ctl = .faulted f → framingFault f = false

theorem framingInv_iff (s : State) : FramingInv s ↔ s.io.alone = false ∧ DemodFramed s ∧ CorrFramed s := by
  unfold FramingInv DemodFramed CorrFramed
  tauto

theorem demodFramed_halted {s : State} (h : ¬DemodLive s) (hw : s.io.chWr = []) : DemodFramed s :=
  ⟨fun he => absurd (demodLive_of_emitting he) h, .inr hw, fun _ => h⟩

/-- Nothing is left to frame for a CORR that has halted. -/
theorem corrFramed_halted {s : State} (h : ¬CorrLive s) (hf : ∀ f, s.corr.ctl = .faulted f → framingFault f = false) :
    CorrFramed s := ⟨streamInv_halted h, fun _ => h, hf⟩

theorem corrFramed_live {s : State} (live : CorrLive s) (hb : s.io.chBroken = false) (h : StreamInv s) : CorrFramed s :=
  ⟨h, fun hb' => absurd (hb.symm.trans hb') nofun, fun _ hf => by rw [CorrLive, hf] at live; cases live⟩

theorem CorrFramed.not_broken {s : State} (h : CorrFramed s) (live : CorrLive s) : s.io.chBroken = false :=
  Bool.eq_false_iff.mpr fun hb => h.2.1 hb live

/-- CORR's part while DEMOD adds whole records to its stream. -/
theorem CorrFramed.extend {s t : State} (h : CorrFramed s) (hc : t.corr = s.corr) (hb : t.io.chBroken = s.io.chBroken)
    {r : List Byte} (hr : WholeRecords r) (ht : toRead t = toRead s ++ r) : CorrFramed t := by
  obtain ⟨hs, hbroken, hfault⟩ := h
  exact ⟨hs.extend hc hr ht, by rwa [hb, CorrLive, hc], by rwa [hc]⟩

/-- CORR's part while the bytes it has to read stay as they are. -/
theorem CorrFramed.congr {s t : State} (h : CorrFramed s) (hc : t.corr = s.corr) (hb : t.io.chBroken = s.io.chBroken)
    (ht : toRead t = toRead s) : CorrFramed t := h.extend hc hb .nil (by rw [ht, List.append_nil])

/-! ## A pair -/

theorem arbitrateStep_io (cand : Option Cand) (v : Sample) (s : State) : (arbitrateStep cand v s).io = s.io := by
  rcases arbitrateStep_cases cand v s with
    ⟨p, -, ⟨c, -, -, e⟩ | ⟨-, e⟩⟩ | ⟨-, ⟨-, e⟩ | ⟨c, -, -, e⟩ | ⟨c, -, -, e⟩⟩ <;> rw [e]

/-- What a pair adds to the stream: nothing, or the record of the frame it fills. -/
theorem iqStep_adds_whole_records {s : State} (hf : FrameInv s.demod) (hh : HeaderInv s.demod) (i q : Half) :
    ∃ r, WholeRecords r ∧ (iqStep i q s).io = { s.io with chWr := s.io.chWr ++ r } := by
  have hnone : s.io = { s.io with chWr := s.io.chWr ++ [] } := by simp
  by_cases he : s.demod.ctl = .emitting
  · obtain ⟨hcount, hflen, -⟩ := (frameInv_emitting he).mp hf
    rw [iqStep_emitting he]
    by_cases hfull : s.demod.fcnt + 1 = s.demod.flen
    · have hlen : (s.demod.frameRev.reverse ++ [discriminate s.demod i q]).length = frameLen s.demod.ftype := by
        rw [← hflen, ← hfull, ← hcount]; simp
      rw [captureStep_full (by exact hfull)]
      exact ⟨_, wholeRecords_record (hh he) hlen, rfl⟩
    · rw [captureStep_more (by exact hfull)]
      exact ⟨[], .nil, hnone⟩
  · obtain ⟨cand, x, -, -, e⟩ := iqStep_search_cases (i := i) (q := q) he
    rw [e, advancePair_io, arbitrateStep_io]
    exact ⟨[], .nil, hnone⟩

/-- Arbitration begins a frame only of a candidate in its ranges, so the frame's header is a good one. -/
theorem headerInv_arbitrateStep {cand : Option Cand} (hcand : ∀ c, cand = some c → c.ok = true) {s : State}
    (hpend : ∀ p, s.demod.ctl = .pending p → p.ok = true) (hne : s.demod.ctl ≠ .emitting) (v : Sample) :
    HeaderInv (arbitrateStep cand v s).demod := by
  rcases arbitrateStep_cases cand v s with
    ⟨p, hp, ⟨c, hc, -, e⟩ | ⟨-, e⟩⟩ | ⟨-, ⟨-, e⟩ | ⟨c, hc, -, e⟩ | ⟨c, -, -, e⟩⟩ <;> rw [e]
  · exact fun _ => (headerBytes_good _ (hcand c hc)).1
  · exact fun _ => (headerBytes_good _ (hpend p hp)).1
  · exact fun he => absurd he hne
  · exact fun _ => (headerBytes_good _ (hcand c hc)).1
  · exact nofun

theorem HeaderInv.iqStep {s : State} (hh : HeaderInv s.demod) (hf : FrameInv s.demod) (i q : Half) :
    HeaderInv (iqStep i q s).demod := by
  by_cases he : s.demod.ctl = .emitting
  · rw [iqStep_emitting he]
    by_cases hfull : s.demod.fcnt + 1 = s.demod.flen
    · rw [captureStep_full (by exact hfull)]; exact nofun
    · rw [captureStep_more (by exact hfull)]; exact hh
  · obtain ⟨cand, x, -, hx, e⟩ := iqStep_search_cases (i := i) (q := q) he
    have hctl : x.ctl = s.demod.ctl := by
      rcases hx with ⟨-, rfl⟩ | ⟨c, -, -, -, rfl⟩ <;> simp [shiftedDemod, senseStep]
    have hcand : ∀ c, cand = some c → c.ok = true := by
      rintro c rfl
      rcases hx with ⟨hn, -⟩ | ⟨c', hs, hok, -⟩
      · cases hn
      · cases hs; exact hok
    have hpend : ∀ p, x.ctl = .pending p → p.ok = true := by
      intro p hp
      obtain ⟨-, -, hok, -⟩ := (frameInv_pending (hctl.symm.trans hp)).mp hf
      exact hok
    rw [e]
    exact headerInv_arbitrateStep (s := { s with demod := x }) hcand hpend (by rwa [hctl]) _

theorem framed_iqStep {s : State} (live : DemodLive s) (hf : FrameInv s.demod) (hd : DemodFramed s) (hc : CorrFramed s)
    (i q : Half) : DemodFramed (iqStep i q s) ∧ CorrFramed (iqStep i q s) := by
  obtain ⟨hhdr, -, hclosed⟩ := hd
  obtain ⟨r, hr, hio⟩ := iqStep_adds_whole_records hf hhdr i q
  obtain ⟨-, -, hcorr, -⟩ := iqStep_frame i q s
  refine ⟨⟨hhdr.iqStep hf i q, .inl (iqStep_live i q live).1, ?_⟩, hc.extend hcorr (by rw [hio]) hr ?_⟩
  · rw [hio]; exact fun hcl => absurd live (hclosed hcl)
  · simp [toRead, hcorr, hio]

/-! ## Every move of DEMOD -/

/-- A fault of a DEMOD that writes nothing leaves the stream as it is. -/
theorem framed_raiseFault_demod {s : State} (hw : s.io.chWr = []) (hc : CorrFramed s) (code : FCode) :
    DemodFramed (raiseFault .demod code s) ∧ CorrFramed (raiseFault .demod code s) :=
  ⟨demodFramed_halted nofun rfl, hc.congr rfl rfl (by simp [toRead, hw])⟩

theorem DemodEffect.framed {s t : State} (h : DemodEffect s t) (live : DemodLive s) (hf : FrameInv s.demod)
    (hd : DemodFramed s) (hc : CorrFramed s) : DemodFramed t ∧ CorrFramed t := by
  have ⟨hhdr, _, hclosed⟩ := hd
  cases h with
  | transfer limit hw h =>
    rcases pumpCh_cases h with ⟨hb, rfl⟩ | ⟨-, k, -, -, -, rfl⟩
    · obtain ⟨-, hbroken, hfault⟩ := hc
      exact ⟨demodFramed_halted nofun rfl, corrFramed_halted (hbroken hb) hfault⟩
    · exact ⟨⟨hhdr, .inl live, hclosed⟩, hc.congr rfl rfl (by simp [toRead])⟩
  | pair b0 b1 b2 b3 rest hw hb =>
    exact framed_iqStep (s := { s with demod := { s.demod with ibuf := rest } }) live hf hd (hc.congr rfl rfl rfl) _ _
  | chunk sec usec bytes rest hw hb hq => exact ⟨⟨hhdr, .inl live, hclosed⟩, hc.congr rfl rfl rfl⟩
  | eof rest hw hb hq => exact ⟨demodFramed_halted nofun hw, hc.congr rfl rfl rfl⟩
  | readFault rest hw hb hq => exact framed_raiseFault_demod (by exact hw) (hc.congr rfl rfl rfl) _
  | shortRead hw hb hl => exact framed_raiseFault_demod (by exact hw) (hc.congr rfl rfl rfl) _

/-! ## Every move of CORR -/

/-- A fault of CORR that is none of framing leaves nothing to frame. -/
theorem corrFramed_raiseFault {s : State} {code : FCode} (h : framingFault code = false) :
    CorrFramed (raiseFault .corr code s) :=
  corrFramed_halted nofun fun _ hf => by cases hf; exact h

/-- A header in progress is not complete. -/
theorem IntakeInv.rbuf_hdr {c : Corr} (h : IntakeInv c) (hc : c.ctl = .hdr) : c.rbuf.length < 36 :=
  ((intakeInv_hdr hc).mp h).2

/-- A sample word in progress is not complete. -/
theorem IntakeInv.rbuf_samples {c : Corr} (h : IntakeInv c) (hc : c.ctl = .samples) : c.rbuf.length < 4 := by
  obtain ⟨-, hr, -⟩ := (intakeInv_samples hc).mp h
  exact hr

theorem tokenBytes_length {s : State} {k : Nat} (hr : s.corr.rbuf.length ≤ k)
    (hn : k - s.corr.rbuf.length ≤ (corrInput s).length) : (tokenBytes k s).length = k := by
  rw [tokenBytes, List.length_append, List.length_take, Nat.min_eq_left hn]
  omega

section FedByDemod
variable {s : State} (ha : s.io.alone = false)
include ha

theorem corrInput_fed : corrInput s = s.io.ch := by rw [corrInput, ha]; rfl

theorem corrInputEnd_fed_ne_error : corrInputEnd s ≠ .error := by
  rw [corrInputEnd, ha]
  cases s.io.chClosed <;> nofun

/-- A `CH` at its end belongs to a DEMOD that writes nothing more, so CORR has only its own bytes left. -/
theorem toRead_at_end (hd : DemodFramed s) (hi : corrInput s = []) (he : corrInputEnd s = .eof) :
    toRead s = s.corr.rbuf := by
  obtain ⟨-, hw, hclosed⟩ := hd
  have hcl : s.io.chClosed = true := by
    rw [corrInputEnd, ha] at he
    cases hc : s.io.chClosed <;> simp_all
  rw [toRead, ← corrInput_fed ha, hi, hw.resolve_left (hclosed hcl), List.append_nil, List.append_nil]

/-- A whole token is the first of the bytes to read, and the rest are left. -/
theorem tokenBytes_toRead (k : Nat) (sc : List HostAct) : tokenBytes k s ++ toRead (afterRead k sc s) = toRead s := by
  have hsplit := List.take_append_drop (k - s.corr.rbuf.length) s.io.ch
  simp only [tokenBytes, toRead, afterRead, corrInput_fed ha, ha, Bool.false_eq_true, if_false, List.nil_append]
  rw [List.append_assoc, ← List.append_assoc (List.take _ _), hsplit]

/-- Bytes taken for a token that is not all there are still bytes to read. -/
theorem toRead_partialRead : toRead { dropInput (corrInput s).length s with
    corr := { s.corr with rbuf := s.corr.rbuf ++ corrInput s } } = toRead s := by
  rw [dropInput_all, toRead, toRead, corrInput_fed ha, ha]
  simp

end FedByDemod

theorem afterRead_chBroken (k : Nat) (sc : List HostAct) (s : State) :
    (afterRead k sc s).io.chBroken = s.io.chBroken := by
  unfold afterRead
  cases s.io.alone <;> rfl

/-- The header at a record boundary is a good one, so CORR takes it in and its frame's samples follow. -/
theorem CorrFramed.header {s : State} (h : CorrFramed s) (ha : s.io.alone = false) (hc : s.corr.ctl = .hdr)
    (hr : s.corr.rbuf.length ≤ 36) (hn : 36 - s.corr.rbuf.length ≤ (corrInput s).length) (sc : List HostAct) :
    CorrFramed (headerStep (tokenBytes 36 s) (afterRead 36 sc s)) := by
  have live : CorrLive s := by rw [CorrLive, hc]; rfl
  have hs := (streamInv_hdr hc).mp h.1
  rw [← tokenBytes_toRead ha 36 sc] at hs
  obtain ⟨t, body, rest, hgood, hbody, hlen, hrest⟩ := hs.header_first (tokenBytes_length hr hn)
  have hpos : 0 < frameLen t := by cases t <;> decide
  have hb := (afterRead_chBroken 36 sc s).trans (h.not_broken live)
  rw [headerStep_good hgood]
  exact corrFramed_live rfl hb ((streamInv_samples rfl).mpr ⟨hpos, body, rest, hbody, hlen, hrest⟩)

/-- A sample word is the next four bytes of the frame; the frame's last one leaves CORR at a record boundary. -/
theorem CorrFramed.sample {s : State} (h : CorrFramed s) (ha : s.io.alone = false) (hc : s.corr.ctl = .samples)
    (hr : s.corr.rbuf.length ≤ 4) (hn : 4 - s.corr.rbuf.length ≤ (corrInput s).length) (sc : List HostAct) (v : Sample) :
    CorrFramed { afterRead 4 sc s with corr := sampleStep v (afterRead 4 sc s).corr } := by
  have live : CorrLive s := by rw [CorrLive, hc]; rfl
  have hb := (afterRead_chBroken 4 sc s).trans (h.not_broken live)
  obtain ⟨hlt, body, rest, e, hlen, hrest⟩ := (streamInv_samples hc).mp h.1
  rw [← tokenBytes_toRead ha 4 sc] at e
  have htok := tokenBytes_length hr hn
  obtain ⟨body', rfl⟩ : tokenBytes 4 s <+: body := List.prefix_of_prefix_length_le ⟨_, e⟩ ⟨_, rfl⟩ (by omega)
  rw [List.append_assoc] at e
  have hleft := List.append_cancel_left e
  rw [List.length_append, htok] at hlen
  by_cases hf : s.corr.ccnt + 1 = s.corr.clen
  · have hctl : (sampleStep v (afterRead 4 sc s).corr).ctl = .decode := if_pos hf
    obtain rfl : body' = [] := List.eq_nil_of_length_eq_zero (by omega)
    have hread : toRead { afterRead 4 sc s with corr := sampleStep v (afterRead 4 sc s).corr } = rest := hleft
    exact corrFramed_live (by rw [CorrLive, hctl]; rfl) hb ((streamInv_decode hctl).mpr ⟨rfl, by rwa [hread]⟩)
  · have hctl : (sampleStep v (afterRead 4 sc s).corr).ctl = .samples := (if_neg hf).trans hc
    have hlt' : s.corr.ccnt + 1 < s.corr.clen := by omega
    have hlen' : body'.length = 4 * (s.corr.clen - (s.corr.ccnt + 1)) := by omega
    exact corrFramed_live (by rw [CorrLive, hctl]; rfl) hb
      ((streamInv_samples hctl).mpr ⟨hlt', body', rest, hleft, hlen', hrest⟩)

theorem dropInput_chBroken (k : Nat) (s : State) : (dropInput k s).io.chBroken = s.io.chBroken := by
  unfold dropInput
  split <;> rfl

/-- A read that goes on leaves CORR before the same token. -/
theorem CorrFramed.partialRead {s : State} (h : CorrFramed s) (ha : s.io.alone = false)
    (hc : s.corr.ctl = .hdr ∨ s.corr.ctl = .samples) : CorrFramed { dropInput (corrInput s).length s with
      corr := { s.corr with rbuf := s.corr.rbuf ++ corrInput s } } := by
  have live : CorrLive s := by rcases hc with hc | hc <;> rw [CorrLive, hc] <;> rfl
  have hread := toRead_partialRead ha
  refine corrFramed_live live ((dropInput_chBroken _ _).trans (h.not_broken live)) ?_
  rcases hc with hc | hc
  · rw [streamInv_hdr (by exact hc), hread]
    exact (streamInv_hdr hc).mp h.1
  · rw [streamInv_samples (by exact hc), hread]
    exact (streamInv_samples hc).mp h.1

/-- A decode reads nothing and leaves CORR at the record boundary where it stood. -/
theorem CorrFramed.decoded {s t : State} (h : CorrFramed s) (hc : s.corr.ctl = .decode) (hctl : t.corr.ctl = .hdr)
    (hr : t.corr.rbuf = s.corr.rbuf) (hio : ∃ a b, t.io = { s.io with capWr := a, outWr := b }) : CorrFramed t := by
  obtain ⟨a, b, hio⟩ := hio
  have hread : toRead t = toRead s := by rw [toRead, toRead, hr, hio]
  refine corrFramed_live (by rw [CorrLive, hctl]; rfl) ?_ ?_
  · rw [hio]
    exact h.not_broken (by rw [CorrLive, hc]; rfl)
  · rw [streamInv_hdr hctl, hread]
    exact ((streamInv_decode hc).mp h.1).2

/-- After `C.FISB` CORR waits for a header, having read nothing. -/
theorem fisbStep_reads (s : State) : (fisbStep s).corr.ctl = .hdr ∧ (fisbStep s).corr.rbuf = s.corr.rbuf := by
  rw [fisbStep_corr, fisbDecode_frame]
  exact ⟨rfl, rfl⟩

/-- After `C.ADSB` CORR waits for a header, having read nothing. -/
theorem adsbStep_reads (s : State) : (adsbStep s).corr.ctl = .hdr ∧ (adsbStep s).corr.rbuf = s.corr.rbuf := by
  cases hs : adsbSearch s.par (cbufOf s.corr) with
  | none => rw [adsbStep_failure hs]; exact ⟨rfl, rfl⟩
  | some r => rw [adsbStep_success hs]; exact ⟨rfl, rfl⟩

/-- Every move of a CORR fed by DEMOD keeps its part: a whole token is the one the stream has at that place, and the
stream ends nowhere inside a token. -/
theorem CorrEffect.framed {s t : State} (h : CorrEffect s t) (ha : s.io.alone = false) (hi : IntakeInv s.corr)
    (hd : DemodFramed s) (hs : CorrFramed s) : CorrFramed t := by
  cases h with
  | transfer limit h =>
    rcases pumpCorr_cases h with rfl | e
    · exact corrFramed_raiseFault rfl
    · rw [e]; exact hs.congr rfl rfl rfl
  | header hc hn => exact hs.header ha hc (hi.rbuf_hdr hc).le hn _
  | sample v hc hn hv => exact hs.sample ha hc (hi.rbuf_samples hc).le hn _ v
  | oddSample hc hn hl => exact absurd (tokenBytes_length (hi.rbuf_samples hc).le hn) hl
  | partialRead k hc hn hne => exact hs.partialRead ha (hc.imp And.left And.left)
  | readFault hin he => exact absurd he (corrInputEnd_fed_ne_error ha)
  | cleanEnd hc hin he hb => exact corrFramed_halted nofun nofun
  | headerEof hc hin he hb =>
    have hw := (streamInv_hdr hc).mp hs.1
    rw [toRead_at_end ha hd hin he] at hw
    exact absurd (hi.rbuf_hdr hc) (Nat.not_lt.mpr (hw.header_le_length hb))
  | sampleEof hc hn hin he =>
    obtain ⟨hlt, body, rest, e, hlen, -⟩ := (streamInv_samples hc).mp hs.1
    rw [toRead_at_end ha hd hin he] at e
    have hle : body.length ≤ s.corr.rbuf.length := by rw [e, List.length_append]; omega
    omega
  | fisb hc ht =>
    obtain ⟨-, -, -, -, hio⟩ := fisbStep_frame s
    exact hs.decoded hc (fisbStep_reads s).1 (fisbStep_reads s).2 hio
  | adsb hc ht =>
    obtain ⟨-, -, -, -, hio⟩ := adsbStep_frame s
    exact hs.decoded hc (adsbStep_reads s).1 (adsbStep_reads s).2 hio

theorem CorrEffect.chClosed {s t : State} (h : CorrEffect s t) : t.io.chClosed = s.io.chClosed := by
  have hread : ∀ k, (afterRead k s.script s).io.chClosed = s.io.chClosed := fun k => by
    unfold afterRead
    cases s.io.alone <;> rfl
  cases h with
  | transfer limit h =>
    rcases pumpCorr_cases h with rfl | e
    · rfl
    · rw [e]
  | header hc hn =>
    obtain ⟨-, -, -, -, hio | hio⟩ := headerStep_frame (tokenBytes 36 s) (afterRead 36 s.script s)
    · rw [hio]; exact hread 36
    · rw [hio]; exact hread 36
  | sample | oddSample => exact hread _
  | partialRead k hc hn hi =>
    unfold dropInput
    split <;> rfl
  | headerEof hc hi he hb =>
    obtain ⟨-, -, -, -, hio | hio⟩ := headerStep_frame s.corr.rbuf s
    · rw [hio]
    · rw [hio]; rfl
  | fisb hc ht =>
    obtain ⟨-, -, -, -, a, b, hio⟩ := fisbStep_frame s
    rw [hio]
  | adsb hc ht =>
    obtain ⟨-, -, -, -, a, b, hio⟩ := adsbStep_frame s
    rw [hio]
  | _ => rfl

theorem DemodFramed.congr {s t : State} (h : DemodFramed s) (hd : t.demod = s.demod) (hw : t.io.chWr = s.io.chWr)
    (hc : t.io.chClosed = s.io.chClosed) : DemodFramed t := by
  simpa only [DemodFramed, DemodLive, hd, hw, hc] using h

/-! ## A step -/

/-- An abort keeps the framing unless it cuts a record that DEMOD is writing (60_exceptions.md R199). -/
theorem framed_abortAgent {s : State} {a : Agent} (hw : a = .demod → s.io.chWr = []) (hd : DemodFramed s)
    (hc : CorrFramed s) : DemodFramed (abortAgent a s) ∧ CorrFramed (abortAgent a s) := by
  cases a with
  | demod =>
    by_cases live : DemodLive s
    · rw [abortAgent_demod_live live]
      exact ⟨demodFramed_halted nofun rfl, hc.congr rfl rfl (by simp [toRead, hw rfl])⟩
    · rw [abortAgent_demod_halted live]
      exact ⟨hd, hc⟩
  | corr =>
    by_cases live : CorrLive s
    · rw [abortAgent_corr_live live]
      exact ⟨hd.congr rfl rfl rfl, corrFramed_halted nofun nofun⟩
    · rw [abortAgent_corr_halted live]
      exact ⟨hd, hc⟩

/-- The host closes and stalls no port but `OUT` and `CAP`. -/
theorem hostPort_chPorts (p : Port) (r st : Option Bool) (io : Io) : (hostPort p r st io).chWr = io.chWr ∧
    (hostPort p r st io).chClosed = io.chClosed ∧ (hostPort p r st io).chBroken = io.chBroken := by
  cases p <;> exact ⟨rfl, rfl, rfl⟩

/-- Settles O59: every effect of a step keeps both agents' parts of the framing invariant. -/
theorem demodNeverBreaksFraming : Obligations.DemodNeverBreaksFraming := by
  intro s t hinv hintake hframing habort hstep
  obtain ⟨ha, hd, hc⟩ := (framingInv_iff s).mp hframing
  obtain ⟨-, -, hframe⟩ := hinv
  obtain ⟨-, -, halone⟩ := step_frame hstep
  refine (framingInv_iff t).mpr ⟨halone.trans ha, ?_⟩
  obtain ⟨sc, -, rfl | ⟨live, -, he⟩ | ⟨-, he⟩ | ⟨a, hs, rfl⟩ | ⟨p, r, st, rfl⟩⟩ := step_effects hstep
  · exact ⟨hd, hc⟩
  · exact he.framed live hframe hd hc
  · exact ⟨hd.congr he.frame.1 he.demod_ports.2 he.chClosed, he.framed ha hintake hd hc⟩
  · refine framed_abortAgent (s := { s with script := sc }) ?_ hd hc
    rintro rfl
    exact habort sc hs
  · obtain ⟨hw, hclosed, hbroken⟩ := hostPort_chPorts p r st s.io
    exact ⟨hd.congr rfl hw hclosed, hc.congr rfl hbroken (by rw [toRead, hw, hostPort_ch]; rfl)⟩

end Sys2Proof.Machine
end

section
/-! What a pair makes of the chunk tag: two DEMODs that differ only in times, run side by side through `D.IQ`
(70_reset_and_hazards.md R226, R227). -/

namespace Sys2Proof.Machine

/-! ## DEMOD without its times -/

/-- DEMOD with the tag, the time of a pending candidate and the time field of its header taken out. -/
def eraseTimes (d : Demod) : Demod :=
  { d with csec := 0, cusec := 0, cidx := 0, fhdr := d.fhdr.drop 17, ctl := eraseTime d.ctl }

theorem sameButTime_iff {d d' : Demod} : SameButTime d d' ↔ eraseTimes d = eraseTimes d' := Iff.rfl

/-- What can be read off a DEMOD without its times is the same for two DEMODs that differ only in times. -/
theorem SameButTime.reads {α : Type} {d d' : Demod} (h : SameButTime d d') (g : Demod → α)
    (hg : ∀ d, g (eraseTimes d) = g d) : g d' = g d :=
  calc g d' = g (eraseTimes d') := (hg d').symm
    _ = g (eraseTimes d) := congrArg g (sameButTime_iff.mp h).symm
    _ = g d := hg d

/-- Two DEMODs that differ only in times still do after a change that is some `f'` of DEMOD without its times. -/
theorem SameButTime.map {d d' : Demod} (h : SameButTime d d') (f f' : Demod → Demod)
    (hf : ∀ d, eraseTimes (f d) = f' (eraseTimes d)) : SameButTime (f d) (f d') :=
  calc eraseTimes (f d) = f' (eraseTimes d) := hf d
    _ = f' (eraseTimes d') := congrArg f' h
    _ = eraseTimes (f d') := (hf d').symm

/-- The same for a change that reads and writes no time. -/
theorem SameButTime.map_of_commutes {d d' : Demod} (h : SameButTime d d') (f : Demod → Demod)
    (hf : ∀ d, eraseTimes (f d) = f (eraseTimes d)) : SameButTime (f d) (f d') := h.map f f hf

/-! ## Candidates that differ in time -/

/-- Two candidates within their ranges that differ at most in time. -/
def TimeVariants (c c' : Cand) : Prop :=
  c.ok = true ∧ c'.ok = true ∧ ({ c with sec := 0, usec := 0 } : Cand) = { c' with sec := 0, usec := 0 }

theorem TimeVariants.fields {c c' : Cand} (h : TimeVariants c c') :
    c'.type = c.type ∧ c'.err = c.err ∧ c'.corr = c.corr ∧ c'.level = c.level := by
  obtain ⟨-, -, h⟩ := h
  obtain ⟨htype, -, herr, hcorr, hlevel, -⟩ := Cand.mk.inj h
  exact ⟨htype.symm, herr.symm, hcorr.symm, hlevel.symm⟩

/-- Candidates are compared by errors and correlation alone. -/
theorem better_timeVariants {c c' p p' : Cand} (hc : TimeVariants c c') (hp : TimeVariants p p') :
    better c' p' = better c p := by
  obtain ⟨-, hcerr, hccorr, -⟩ := hc.fields
  obtain ⟨-, hperr, hpcorr, -⟩ := hp.fields
  simp only [better, hcerr, hccorr, hperr, hpcorr]

/-- After its time field a header says type, level and errors alone. -/
theorem headerBytes_drop_timeVariants {c c' : Cand} (h : TimeVariants c c') :
    (headerBytes c').drop 17 = (headerBytes c).drop 17 := by
  obtain ⟨htype, herr, -, hlevel⟩ := h.fields
  obtain ⟨hok, hok', -⟩ := h
  obtain ⟨-, -, -, -, -, hdrop⟩ := headerBytes_good c hok
  obtain ⟨-, -, -, -, -, hdrop'⟩ := headerBytes_good c' hok'
  rw [hdrop, hdrop', htype, herr, hlevel]

/-- Control states that differ at most in the time of a pending candidate, which is within its ranges. -/
inductive CtlVariants : DState → DState → Prop where
  | pending {p p' : Cand} (h : TimeVariants p p') : CtlVariants (.pending p) (.pending p')
  | same {k : DState} (h : ∀ p, k ≠ .pending p) : CtlVariants k k

theorem CtlVariants.live_eq {k k' : DState} (h : CtlVariants k k') : k'.live = k.live := by
  cases h <;> rfl

theorem CtlVariants.emitting_iff {k k' : DState} (h : CtlVariants k k') : k' = .emitting ↔ k = .emitting := by
  cases h with
  | pending h => exact ⟨nofun, nofun⟩
  | same h => exact Iff.rfl

/-- Two control states alike without times: both pending, or the same. -/
theorem eraseTime_eq_cases {k k' : DState} (h : eraseTime k = eraseTime k') :
    (∃ p p', k = .pending p ∧ k' = .pending p' ∧
      ({ p with sec := 0, usec := 0 } : Cand) = { p' with sec := 0, usec := 0 }) ∨
    ((∀ p, k ≠ .pending p) ∧ k' = k) := by
  cases k with
  | pending p =>
    cases k' with
    | pending p' => exact .inl ⟨p, p', rfl, rfl, DState.pending.inj h⟩
    | _ => cases h
  | _ =>
    refine .inr ⟨nofun, ?_⟩
    cases k' with
    | pending p' => cases h
    | _ => exact h.symm

/-- The control states of two DEMODs that differ only in times; the frame invariant gives pending candidates' ranges. -/
theorem SameButTime.ctlVariants {d d' : Demod} (h : SameButTime d d') (hd : FrameInv d) (hd' : FrameInv d') :
    CtlVariants d.ctl d'.ctl := by
  rcases eraseTime_eq_cases (congrArg Demod.ctl h) with ⟨p, p', hc, hc', hp⟩ | ⟨hn, hc⟩
  · obtain ⟨-, -, hok, -⟩ := (frameInv_pending hc).mp hd
    obtain ⟨-, -, hok', -⟩ := (frameInv_pending hc').mp hd'
    rw [hc, hc']
    exact .pending ⟨hok, hok', hp⟩
  · rw [hc]
    exact .same hn

/-! ## The operations of a pair -/

theorem SameButTime.discriminate {d d' : Demod} (h : SameButTime d d') (i q : Half) :
    discriminate d' i q = discriminate d i q := h.reads (Machine.discriminate · i q) fun _ => rfl

theorem SameButTime.senseStep {d d' : Demod} (h : SameButTime d d') (cfg : Cfg) (i q : Half) :
    SameButTime (senseStep cfg i q d) (senseStep cfg i q d') :=
  h.map_of_commutes (Machine.senseStep cfg i q) fun _ => rfl

theorem SameButTime.shiftStep {d d' : Demod} (h : SameButTime d d') (p : Phase) (v : Sample) :
    SameButTime (shiftStep p v d) (shiftStep p v d') :=
  h.map_of_commutes (Machine.shiftStep p v) fun _ => by cases p <;> rfl

theorem SameButTime.countStamp {d d' : Demod} (h : SameButTime d d') : SameButTime (countStamp d) (countStamp d') :=
  h.map_of_commutes Machine.countStamp fun _ => rfl

/-- The chunk tag decides nothing about a match but the time stamped on it. -/
theorem SameButTime.probe {d d' : Demod} (h : SameButTime d d') (cfg : Cfg) (p : Phase) :
    Option.Rel TimeVariants (probe cfg p d).1 (probe cfg p d').1 ∧
      SameButTime (probe cfg p d).2 (probe cfg p d').2 := by
  have hmatch : matchType cfg (phaseReg p d') = matchType cfg (phaseReg p d) :=
    h.reads (fun d => matchType cfg (phaseReg p d)) fun _ => by cases p <;> rfl
  rcases probe_cases cfg p d with ⟨t, hm, hp, hok⟩ | ⟨hm, hp⟩
  · rcases probe_cases cfg p d' with ⟨t', hm', hp', hok'⟩ | ⟨hm', -⟩
    · obtain rfl := Option.some.inj (hm.symm.trans (hmatch.symm.trans hm'))
      have hcand := h.reads (fun d => ({ candidateOf cfg p t d with sec := 0, usec := 0 } : Cand))
        fun _ => by cases p <;> rfl
      rw [hp, hp']
      exact ⟨.some ⟨hok, hok', hcand.symm⟩, h.countStamp⟩
    · exact absurd (hm.symm.trans (hmatch.symm.trans hm')) nofun
  · rcases probe_cases cfg p d' with ⟨t', hm', -⟩ | ⟨-, hp'⟩
    · exact absurd (hm.symm.trans (hmatch.symm.trans hm')) nofun
    · rw [hp, hp']
      exact ⟨.none, h⟩

theorem SameButTime.probeIfOpen {d d' : Demod} (h : SameButTime d d') (cfg : Cfg) (p : Phase) :
    Option.Rel TimeVariants (probeIfOpen cfg p d).1 (probeIfOpen cfg p d').1 ∧
      SameButTime (probeIfOpen cfg p d).2 (probeIfOpen cfg p d').2 := by
  have hgate : d'.gate = d.gate := h.reads Demod.gate fun _ => rfl
  unfold Machine.probeIfOpen
  rw [hgate]
  cases d.gate with
  | true => exact h.probe cfg p
  | false => exact ⟨.none, h⟩

theorem probeIfOpen_ctl (cfg : Cfg) (p : Phase) (d : Demod) : (probeIfOpen cfg p d).2.ctl = d.ctl := by
  rcases probeIfOpen_cases cfg p d with e | ⟨-, t, -, -, -, e⟩ <;> rw [e]
  rfl

/-- A frame begun for candidates that differ in time: the headers differ in the time field alone. -/
theorem SameButTime.selectStep {d d' : Demod} (h : SameButTime d d') {c c' : Cand} (hc : TimeVariants c c') :
    SameButTime (selectStep c d) (selectStep c' d') := by
  have hselect : SameButTime (Machine.selectStep c d) (Machine.selectStep c d') :=
    h.map (Machine.selectStep c) (fun e => eraseTimes (Machine.selectStep c e)) fun _ => rfl
  have hcand : eraseTimes (Machine.selectStep c d') = eraseTimes (Machine.selectStep c' d') := by
    obtain ⟨htype, -⟩ := hc.fields
    simp only [eraseTimes, Machine.selectStep, htype, headerBytes_drop_timeVariants hc]
  exact sameButTime_iff.mpr (hselect.trans hcand)

/-- The same for a frame that already holds its first sample. -/
theorem SameButTime.selectStep_captured {d d' : Demod} (h : SameButTime d d') {c c' : Cand} (hc : TimeVariants c c')
    (v : Sample) : SameButTime { Machine.selectStep c d with frameRev := [v], fcnt := 1 }
      { Machine.selectStep c' d' with frameRev := [v], fcnt := 1 } :=
  (h.selectStep hc).map_of_commutes (fun d => { d with frameRev := [v], fcnt := 1 }) fun _ => rfl

/-- Arbitration with candidates pending that differ in time. -/
theorem SameButTime.arbitratePending {s u : State} (h : SameButTime s.demod u.demod) {p p' : Cand}
    (hp : TimeVariants p p') {cand cand' : Option Cand} (hcand : Option.Rel TimeVariants cand cand') (v : Sample) :
    SameButTime (arbitratePending p cand v s).demod (arbitratePending p' cand' v u).demod := by
  cases hcand with
  | none =>
    simp only [Machine.arbitratePending, captureStep_select]
    exact h.selectStep_captured hp v
  | @some c c' hc =>
    simp only [Machine.arbitratePending, captureStep_select, better_timeVariants hc hp]
    cases better c p with
    | true => exact h.selectStep hc
    | false => exact h.selectStep_captured hp v

/-- Arbitration with no candidate pending. -/
theorem SameButTime.arbitrateSearch {s u : State} (h : SameButTime s.demod u.demod) (hcfg : u.cfg = s.cfg)
    {cand cand' : Option Cand} (hcand : Option.Rel TimeVariants cand cand') :
    SameButTime (arbitrateSearch cand s).demod (arbitrateSearch cand' u).demod := by
  cases hcand with
  | none => exact h
  | @some c c' hc =>
    simp only [Machine.arbitrateSearch, hcfg]
    cases s.cfg.phaseSelect with
    | first => exact h.selectStep hc
    | best =>
      obtain ⟨-, -, htime⟩ := hc
      exact congrArg₂ (fun (e : Demod) (c : Cand) => { e with ctl := .pending c }) (sameButTime_iff.mp h) htime

/-- `D.ARBITRATE` takes times into account nowhere. -/
theorem SameButTime.arbitrateStep {s u : State} (h : SameButTime s.demod u.demod) (hcfg : u.cfg = s.cfg)
    (hctl : CtlVariants s.demod.ctl u.demod.ctl) {cand cand' : Option Cand} (hcand : Option.Rel TimeVariants cand cand')
    (v : Sample) : SameButTime (arbitrateStep cand v s).demod (arbitrateStep cand' v u).demod := by
  have hsearch := h.arbitrateSearch hcfg hcand
  unfold Machine.arbitrateStep
  generalize s.demod.ctl = k at hctl
  generalize u.demod.ctl = k' at hctl
  cases hctl with
  | pending hp => exact h.arbitratePending hp hcand v
  | same hn =>
    cases k with
    | pending p => exact absurd rfl (hn p)
    | _ => exact hsearch

/-- Shift, probe and arbitration. -/
theorem SameButTime.searchStep {s u : State} (h : SameButTime s.demod u.demod) (hcfg : u.cfg = s.cfg)
    (hctl : CtlVariants s.demod.ctl u.demod.ctl) (v : Sample) :
    SameButTime (searchStep v s).demod (searchStep v u).demod := by
  have hn : u.demod.n = s.demod.n := h.reads Demod.n fun _ => rfl
  obtain ⟨hcand, hd⟩ := (h.shiftStep (phaseOf s.demod.n) v).probeIfOpen s.cfg (phaseOf s.demod.n)
  unfold Machine.searchStep
  rw [hn, hcfg]
  refine SameButTime.arbitrateStep (s := { s with demod := _ }) (u := { u with cfg := s.cfg, demod := _ }) hd rfl ?_
    hcand v
  simpa only [probeIfOpen_ctl, shiftStep_ctl] using hctl

/-- `s` goes to `t` and `u` to `v` so that the DEMODs reached differ only in times, and what the one has written differs
from what the other has at most in the first 17 bytes. -/
def Diverge (s u t v : State) : Prop :=
  SameButTime t.demod v.demod ∧ ∃ a b : List Byte, t.io.chWr = s.io.chWr ++ a ∧ v.io.chWr = u.io.chWr ++ b ∧
    a.length = b.length ∧ a.drop 17 = b.drop 17

theorem Diverge.of_io_eq {s u t v : State} (h : SameButTime t.demod v.demod) (ht : t.io = s.io) (hv : v.io = u.io) :
    Diverge s u t v := ⟨h, [], [], by rw [ht, List.append_nil], by rw [hv, List.append_nil], rfl, rfl⟩

/-- Of the counters a pair advances `n` is the same on both sides, and `CIDX` belongs to the tag. -/
theorem Diverge.advancePair {s u t v : State} (h : Diverge s u t v) : Diverge s u (advancePair t) (advancePair v) := by
  obtain ⟨hd, hio⟩ := h
  exact ⟨hd.map (fun d => { d with n := d.n + 1, cidx := d.cidx + 1 }) (fun e => { e with n := e.n + 1 }) fun _ => rfl,
    hio⟩

/-- A sample appended to frames whose headers differ in the time field: so does the record, when there is one. -/
theorem SameButTime.captureStep {s u : State} (h : SameButTime s.demod u.demod) (hs : s.demod.fhdr.length = 36)
    (hu : u.demod.fhdr.length = 36) (v : Sample) : Diverge s u (captureStep v s) (captureStep v u) := by
  have hfcnt : u.demod.fcnt = s.demod.fcnt := h.reads Demod.fcnt fun _ => rfl
  have hflen : u.demod.flen = s.demod.flen := h.reads Demod.flen fun _ => rfl
  have hframe : u.demod.frameRev = s.demod.frameRev := h.reads Demod.frameRev fun _ => rfl
  have hhdr : s.demod.fhdr.drop 17 = u.demod.fhdr.drop 17 := congrArg Demod.fhdr h
  by_cases hfull : s.demod.fcnt + 1 = s.demod.flen
  · rw [captureStep_full hfull, captureStep_full (by rwa [hfcnt, hflen])]
    refine ⟨h.map_of_commutes (fun d => { d with frameRev := [], fcnt := 0, ctl := .search }) fun _ => rfl,
      _, _, rfl, rfl, ?_, ?_⟩
    · rw [List.length_append, List.length_append, hs, hu, hframe]
    · rw [List.drop_append_of_le_length (by omega), List.drop_append_of_le_length (by omega), hhdr, hframe]
  · rw [captureStep_more hfull, captureStep_more (by rwa [hfcnt, hflen])]
    exact .of_io_eq (h.map_of_commutes (fun d => { d with frameRev := v :: d.frameRev, fcnt := d.fcnt + 1 }) fun _ => rfl)
      rfl rfl

/-! ## The whole pair -/

/-- Inside a frame the present sample is captured; outside one it is searched, and nothing is written. -/
theorem SameButTime.iqStep {s u : State} (h : SameButTime s.demod u.demod) (hcfg : u.cfg = s.cfg)
    (hs : FrameInv s.demod) (hu : FrameInv u.demod) (hctl : CtlVariants s.demod.ctl u.demod.ctl) (i q : Half) :
    Diverge s u (iqStep i q s) (iqStep i q u) := by
  have hsense : SameButTime (Machine.senseStep s.cfg i q s.demod) (Machine.senseStep u.cfg i q u.demod) := by
    rw [hcfg]; exact h.senseStep s.cfg i q
  by_cases hc : s.demod.ctl = .emitting
  · have hc' := hctl.emitting_iff.mpr hc
    obtain ⟨-, -, -, -, -, hlen⟩ := (frameInv_emitting hc).mp hs
    obtain ⟨-, -, -, -, -, hlen'⟩ := (frameInv_emitting hc').mp hu
    rw [iqStep_emitting hc, iqStep_emitting hc', h.discriminate]
    refine Diverge.advancePair ?_
    exact SameButTime.captureStep (s := { s with demod := _ }) (u := { u with demod := _ }) hsense hlen hlen' _
  · have hc' := mt hctl.emitting_iff.mp hc
    rw [iqStep_search hc, iqStep_search hc', h.discriminate]
    refine Diverge.advancePair (.of_io_eq ?_ (arbitrateStep_io _ _ _) (arbitrateStep_io _ _ _))
    exact SameButTime.searchStep (s := { s with demod := _ }) (u := { u with demod := _ }) hsense hcfg hctl _

/-- Settles O60: DEMODs that differ only in times are live together, and a pair keeps them apart in times alone. -/
theorem chunkTagReachesOnlyTimes : Obligations.ChunkTagReachesOnlyTimes := by
  intro s u i q live hs hu hcfg _ h
  have hctl := h.ctlVariants hs hu
  exact ⟨_, _, exec_dIq live i q, exec_dIq (hctl.live_eq.trans live) i q, h.iqStep hcfg hs hu hctl i q⟩

end Sys2Proof.Machine
end
